-- ==== Sys2Proof/Word.lean ====
section
/-! DEFINITION. The machine's word, byte and register index (00_scope.md R6, R7, R12, R13). -/

namespace Sys2Proof

/-- A 32-bit unsigned word: the register and address size (R6, R13). -/
abbrev Word := BitVec 32

/-- One byte of memory. -/
abbrev Byte := BitVec 8

/-- The index of a general register: always in [0,16) (R7, R23). -/
abbrev RegId := Fin 16

/-- A 2-bit register field of format C, selecting `x[0]` to `x[3]` (R23, R87). -/
abbrev CRegId := Fin 4

end Sys2Proof
end

