-- ==== Sys2Proof/Machine/Operands.lean ====
section
/-! DEFINITION. Immediates, displacements and shift amounts as 32-bit operands (00_scope.md R13, 30_encoding.md R90,
45_alu.md R221), and register fields as register indices (10_state.md R23). -/

namespace Sys2Proof.Machine

/-- `sext_N`: two's-complement sign extension to a word (00_scope.md R13). -/
def sext {n : Nat} (v : BitVec n) : Word := v.signExtend 32

/-- `zext_N`: zero extension to a word (00_scope.md R13). -/
def zext {n : Nat} (v : BitVec n) : Word := v.setWidth 32

/-- `sext_8` of the low 8 bits of a word. -/
def sextByte (v : Word) : Word := sext (v.extractLsb' 0 8)
/-- `zext_8` of the low 8 bits of a word. -/
def zextByte (v : Word) : Word := zext (v.extractLsb' 0 8)
/-- `sext_16` of the low 16 bits of a word. -/
def sextHalf (v : Word) : Word := sext (v.extractLsb' 0 16)
/-- `zext_16` of the low 16 bits of a word. -/
def zextHalf (v : Word) : Word := zext (v.extractLsb' 0 16)

/-- The byte offset of the RR16 loads and stores: `sext_16(imm16)` (30_encoding.md R90). -/
def byteOffset (off : BitVec 16) : Word := sext off

/-- The byte offset of `lwc` and `swc`: `zext_6(imm6) << 2` (30_encoding.md R90). -/
def compactOffset (off : BitVec 6) : Word := zext off <<< 2

/-- The displacement of B12: `sext_12(imm12) << 1` (30_encoding.md R90). -/
def disp12 (imm : BitVec 12) : Word := sext imm <<< 1

/-- The displacement of B28: `sext_28(imm28) << 1` (30_encoding.md R90). -/
def disp28 (imm : BitVec 28) : Word := sext imm <<< 1

/-- The shift amount `amount[4:0]`, 0 to 31 (45_alu.md R221). -/
def shiftAmount (amount : Word) : Nat := (amount.extractLsb' 0 5).toNat

/-- The register a 2-bit field selects: `x[0]` to `x[3]` (10_state.md R23). -/
def compactReg (c : CRegId) : RegId := c.castLE (by decide)

/-- The stack pointer `x[14]` (10_state.md R21). -/
def spReg : RegId := 14

/-- The return-address register `x[15]` (10_state.md R21). -/
def raReg : RegId := 15

end Sys2Proof.Machine
end

