-- ==== Sys2Proof/Config.lean ====
section
/-! DEFINITION. What an implementation fixes (the parameters of 00_scope.md R8), what crosses the MMIO boundary
(20_memory.md R52, R62), and the one free value of the model: what an MMIO hook answers (20_memory.md R63). -/

namespace Sys2Proof

/-- What `wait` does with interrupts enabled (R8, 46_interrupt_instr.md R255). -/
inductive WaitMode
  | suspend
  | fatal
  deriving DecidableEq, Repr

/-- The parameters of R8. A machine's parameters are plain data that no step changes (log 1). -/
structure Params where
  /-- `RAM_SIZE`: bytes of RAM, mapped at [0, RAM_SIZE). -/
  ramSize : Nat
  /-- `MMIO_BASE`: first address of the MMIO range [MMIO_BASE, 2^32). -/
  mmioBase : Word
  /-- `VECTOR_BASE`: handler address of vector 0. -/
  vectorBase : Word
  /-- `VECTOR_STRIDE`: distance between the handler addresses of consecutive vectors. -/
  vectorStride : Word
  /-- `NUM_VECTORS`: vector ids are 0 to NUM_VECTORS-1. -/
  numVectors : Nat
  /-- `WAIT_MODE`. -/
  waitMode : WaitMode
  deriving DecidableEq, Repr

/-- The default of every parameter in the table of R8. -/
def Params.default : Params where
  ramSize := 0x01000000
  mmioBase := 0xF0000000
  vectorBase := 0x00000100
  vectorStride := 0x10
  numVectors := 16
  waitMode := .suspend

/-- The closed result of every MMU operation (20_memory.md R52). -/
inductive AccessStatus
  | ok
  | errorUnmapped
  | errorMisaligned
  | errorMmioGranularityIllegal
  | errorMmioPeripheralError
  | errorMmioUnmapped
  deriving DecidableEq, Repr, Inhabited

/-- What a hook call returns: any status, and (of a read) any word (R62, R63). A write hook returns no value:
the `value` of its reply is not read. -/
structure HookReply where
  status : AccessStatus
  value : Word
  deriving DecidableEq, Repr, Inhabited

/-- The free answer of an MMIO hook whose host has queued none: one status and one word per call, constrained by
nothing (R63, D4; log 3). -/
opaque Config.freeHookReply : Nat → HookReply

end Sys2Proof
end

