-- ==== Sys2Proof/Machine/State.lean ====
section
/-! DEFINITION. The state of the machine: the core's architectural state (10_state.md), its parameters
(00_scope.md R8), the host's inputs (10_state.md R34) as plain data, and the reasons a step can stop. -/

namespace Sys2Proof.Machine

/-- RAM as (address, byte) pairs in canonical form: addresses strictly rising, no byte equal to what an unlisted
address reads as, which is 0x00 (10_state.md R35, D24; log 11). -/
abbrev Memory := List Host.Cell

/-- The core's run state (10_state.md R30). -/
inductive RunState
  | running
  | waiting
  | halted
  deriving DecidableEq, Repr

/-- The halt reasons (60_exceptions.md R280); `HaltReason.code` gives their codes. -/
inductive HaltReason
  | fetchFault
  | loadFault
  | storeFault
  | illegalInstruction
  | waitWhileDisabled
  | waitUnimplemented
  deriving DecidableEq, Repr

/-- The halt record (10_state.md R31). `status` is `ok` (code 0) where the reason has none. -/
structure HaltRecord where
  reason : HaltReason
  status : AccessStatus
  pc : Word
  deriving DecidableEq, Repr

/-- The access granularities: 1, 2 or 4 bytes (00_scope.md R9). -/
inductive Gran
  | byte
  | half
  | word
  deriving DecidableEq, Repr

/-- One MMIO hook call, with the MMIO-relative address (20_memory.md R61, R62). -/
inductive MmioCall
  | read (addr : Word) (g : Gran)
  | write (addr : Word) (g : Gran) (value : Word)
  deriving DecidableEq, Repr

/-- How a hook call ends: it returns a reply, or it never returns (70_reset_and_hazards.md R310). -/
inductive HookAnswer
  | returns (r : HookReply)
  | blocks
  deriving DecidableEq, Repr

/-- What the host does between core steps (00_scope.md R10); see Machine/HostActions.lean (log 7). -/
inductive HostAction
  /-- Let the core make one step. -/
  | letCoreStep
  /-- A device raises or lowers the request line `irq[v]` (60_exceptions.md R281). -/
  | setLine (v : Nat) (raised : Bool)
  /-- The host configures or removes the MMIO hooks (70_reset_and_hazards.md R304). -/
  | configureHooks (readHook writeHook : Bool)
  /-- The host resets the machine and loads an image (70_reset_and_hazards.md R300, R303). -/
  | reset (image : List Byte)
  /-- The host stops the run: no core step until `resume` (40_dispatch.md R129). -/
  | stop
  /-- The host resumes a stopped run (40_dispatch.md R129). -/
  | resume
  /-- The keepalive hook runs, to its end or without ever returning (40_dispatch.md R131, 70_reset_and_hazards.md
  R310). -/
  | keepalive (returns : Bool)
  deriving DecidableEq, Repr

/-- The machine's state. -/
structure State where
  /-- `x[0]` to `x[15]` (10_state.md R20). -/
  regs : Vector Word 16
  /-- The instruction pointer (10_state.md R25). -/
  pc : Word
  /-- The t-bit (10_state.md R28). -/
  t : Bool
  /-- Interrupts enabled (10_state.md R29). -/
  ie : Bool
  /-- The saved return address (10_state.md R29). -/
  saved : Word
  /-- The run state (10_state.md R30). -/
  run : RunState
  /-- The halt record, or empty (10_state.md R31). -/
  halt : Option HaltRecord
  /-- The executed-instruction counter (10_state.md R32). -/
  retired : BitVec 64
  /-- RAM (20_memory.md R50). -/
  ram : Memory
  /-- The parameters (00_scope.md R8; log 1). -/
  cfg : Params
  /-- Input: the MMIO read hook is configured (20_memory.md R62). -/
  readHook : Bool
  /-- Input: the MMIO write hook is configured (20_memory.md R62). -/
  writeHook : Bool
  /-- Input: the vector ids whose request line is raised now (60_exceptions.md R281; log 6). -/
  irq : List Nat
  /-- Input: the answers the hooks give next, oldest first (20_memory.md R62; log 3). -/
  hookAnswers : List HookAnswer
  /-- Model's own: how many free hook answers were drawn (log 3). -/
  hookDraws : Nat
  /-- Model's own: the hook calls made so far, newest first (20_memory.md R61; log 5). -/
  mmioLog : List MmioCall
  /-- Model's own: the host was warned that the last image was truncated (70_reset_and_hazards.md R303; log 19). -/
  loadWarning : Bool
  /-- Input: the host has stopped the run and not resumed it (40_dispatch.md R129; log 26). -/
  stopped : Bool
  /-- Input: what the host does next, oldest first; when empty, the core steps (log 7). -/
  script : List HostAction
  deriving DecidableEq, Repr

/-- Why a step gives no next state. Each is a state from which the spec gives the core NO step. -/
inductive Fault
  /-- Raised by `coreStep` when `run = Halted`: "when `run = Halted` the core has no step" (40_dispatch.md R120,
  60_exceptions.md R279). Safe: the spec has no step either, until reset (log 8). -/
  | coreHalted
  /-- Raised by `coreStep` when `run = Waiting` and no line is raised: the waiting core is stuck
  (60_exceptions.md R285). Safe: the spec has no step either (log 9). -/
  | coreWaiting
  /-- Raised by fetch, the loads and the stores when an MMIO hook call never returns: a stuck core
  (70_reset_and_hazards.md R310). Safe: the spec's core makes no progress either (log 4). -/
  | hookBlocked
  /-- Raised by the host action `keepalive false`, a keepalive hook that never returns: the hook runs synchronously
  between core steps, so the machine is stuck (70_reset_and_hazards.md R310). Safe: no step follows (log 4). -/
  | keepaliveBlocked
  /-- Raised where the core would step while the host has stopped the run: it makes no step until a resume
  (40_dispatch.md R129). Safe: the spec's run makes no step either (log 26). -/
  | runStopped
  deriving DecidableEq, Repr

/-- Why an instruction has no meaning. -/
inductive Refusal
  /-- Raised by an arm of `exec` whose instruction has no meaning yet; no arm of this model does. Safe: it stops. -/
  | notModelled (mnemonic : String)
  deriving DecidableEq, Repr

/-- What one step or one instruction gives. -/
abbrev Result := Host.Outcome State Fault Refusal

/-- The machine right after reset with the empty image, default parameters and no host input pending
(10_state.md R35; log 10, log 11, log 12). -/
def State.reset : State where
  regs := Vector.replicate 16 0
  pc := 0
  t := false
  ie := false
  saved := 0
  run := .running
  halt := none
  retired := 0
  ram := []
  cfg := Params.default
  readHook := false
  writeHook := false
  irq := []
  hookAnswers := []
  hookDraws := 0
  mmioLog := []
  loadWarning := false
  stopped := false
  script := []

end Sys2Proof.Machine
end

