-- ==== Sys2Proof/Machine/Ops.lean ====
section
/-! DEFINITION. The named operations over registers, RAM, the MMU (20_memory.md), the commit (40_dispatch.md R126), the
interrupt controller and fault routing (60_exceptions.md R272 to R280), and the shared load and store. -/

namespace Sys2Proof.Machine

/-! ### Codes -/

/-- The AccessStatus codes (20_memory.md R52). -/
def statusCode : AccessStatus → Nat
  | .ok => 0
  | .errorUnmapped => 1
  | .errorMisaligned => 2
  | .errorMmioGranularityIllegal => 3
  | .errorMmioPeripheralError => 4
  | .errorMmioUnmapped => 5

/-- The halt reason codes (60_exceptions.md R280). -/
def reasonCode : HaltReason → Nat
  | .fetchFault => 1
  | .loadFault => 2
  | .storeFault => 3
  | .illegalInstruction => 4
  | .waitWhileDisabled => 5
  | .waitUnimplemented => 6

/-! ### Registers -/

/-- `x[r]` (00_scope.md R14). -/
def State.reg (s : State) (r : RegId) : Word := s.regs[r]

/-- `x[r] <- v` (00_scope.md R14, 10_state.md R20). -/
def State.setReg (s : State) (r : RegId) (v : Word) : State := { s with regs := s.regs.set r v }

/-- `t <- b`. -/
def State.setT (s : State) (b : Bool) : State := { s with t := b }

/-- `ie <- b`. -/
def State.setIe (s : State) (b : Bool) : State := { s with ie := b }

/-- Replace the contents of RAM. -/
def State.setRam (s : State) (m : Memory) : State := { s with ram := m }

/-- `run <- r` (10_state.md R30). -/
def State.setRun (s : State) (r : RunState) : State := { s with run := r }

/-- Record a hook call (log 5). -/
def State.logCall (s : State) (c : MmioCall) : State := { s with mmioLog := c :: s.mmioLog }

/-! ### RAM bytes -/

/-- The byte at an address; an unlisted address reads 0x00 (10_state.md R35). -/
def Memory.read : Memory → Nat → Byte
  | [], _ => 0
  | (b, u) :: m, a => if b = a then u else Memory.read m a

/-- The memory without any byte listed at an address. -/
def Memory.drop (m : Memory) (a : Nat) : Memory := m.filter (fun c => c.1 != a)

/-- List one byte at its place among rising addresses. -/
def Memory.place : Memory → Nat → Byte → Memory
  | [], a, v => [(a, v)]
  | (b, u) :: m, a, v => if a < b then (a, v) :: (b, u) :: m else (b, u) :: Memory.place m a v

/-- Write one byte, keeping the canonical form: a zero byte is not listed. -/
def Memory.write (m : Memory) (a : Nat) (v : Byte) : Memory := if v = 0 then m.drop a else (m.drop a).place a v

/-- Write bytes at rising addresses. -/
def Memory.writeBytes : Memory → Nat → List Byte → Memory
  | m, _, [] => m
  | m, a, b :: bs => Memory.writeBytes (Memory.write m a b) (a + 1) bs

/-- The RAM that holds the bytes from address `a` on and 0x00 elsewhere (70_reset_and_hazards.md R303). -/
def Memory.ofBytes : Nat → List Byte → Memory
  | _, [] => []
  | a, b :: bs => if b = 0 then Memory.ofBytes (a + 1) bs else (a, b) :: Memory.ofBytes (a + 1) bs

/-- Every address is above `lo`, addresses rise strictly, and no byte is 0. -/
def Memory.risesAbove : Option Nat → Memory → Bool
  | _, [] => true
  | lo, (a, v) :: m => (lo.all (· < a)) && v != 0 && Memory.risesAbove (some a) m

/-- The canonical form of RAM: addresses strictly rising, no listed byte equal to 0x00. -/
def Memory.wf (m : Memory) : Bool := Memory.risesAbove none m

/-- Every listed address lies below `n`. -/
def Memory.within (m : Memory) (n : Nat) : Bool := m.all (fun c => decide (c.1 < n))

/-! ### Granularities (00_scope.md R9) -/

/-- The width in bytes. -/
def Gran.bytes : Gran → Nat
  | .byte => 1
  | .half => 2
  | .word => 4

/-- The alignment an access needs (20_memory.md R56). -/
def Gran.aligned (g : Gran) (a : Word) : Bool :=
  match g with
  | .byte => true
  | .half => a.extractLsb' 0 1 == 0
  | .word => a.extractLsb' 0 2 == 0

/-- `zext_(8n)`: the low `8n` bits (20_memory.md R53, R54). -/
def Gran.trunc (g : Gran) (v : Word) : Word :=
  match g with
  | .byte => zextByte v
  | .half => zextHalf v
  | .word => v

/-- The low `n` bytes of a value, little-endian (20_memory.md R54, R58). -/
def Gran.split (g : Gran) (v : Word) : List Byte :=
  match g with
  | .byte => [v.extractLsb' 0 8]
  | .half => [v.extractLsb' 0 8, v.extractLsb' 8 8]
  | .word => [v.extractLsb' 0 8, v.extractLsb' 8 8, v.extractLsb' 16 8, v.extractLsb' 24 8]

/-- The little-endian value at an address, zero-extended (20_memory.md R53, R58). -/
def Memory.readLE (m : Memory) (a : Nat) (g : Gran) : Word :=
  match g with
  | .byte => zext (m.read a)
  | .half => zext (m.read a) ||| zext (m.read (a + 1)) <<< 8
  | .word =>
    zext (m.read a) ||| zext (m.read (a + 1)) <<< 8 ||| zext (m.read (a + 2)) <<< 16 ||| zext (m.read (a + 3)) <<< 24

/-! ### The MMU (20_memory.md) -/

/-- The class of an address (R51). -/
inductive AddrClass
  | ram
  | mmio
  | unmapped
  deriving DecidableEq, Repr

/-- `class(a)`, by range comparison on the address alone (R51). -/
def classify (c : Params) (a : Word) : AddrClass :=
  if a.toNat < c.ramSize then .ram
  else if c.mmioBase.toNat ≤ a.toNat then .mmio
  else .unmapped

/-- How an MMU access ends. A failed access delivers no value: the spec's `any` is never read (R59; log 2). -/
inductive Access (α : Type)
  /-- Status Ok, with the value read and the state after the access. -/
  | ok (v : α) (s : State)
  /-- A status other than Ok. -/
  | failed (st : AccessStatus) (s : State)
  /-- The hook call never returns (70_reset_and_hazards.md R310). -/
  | blocked

/-- The next answer of the hooks: the oldest queued one, else a free reply (R62, R63; log 3). -/
def State.drawAnswer (s : State) : HookAnswer × State :=
  match s.hookAnswers with
  | a :: rest => (a, { s with hookAnswers := rest })
  | [] => (.returns (Config.freeHookReply s.hookDraws), { s with hookDraws := s.hookDraws + 1 })

/-- One hook call: it is logged, and the hook answers (R61, R62). -/
def State.callHook (s : State) (c : MmioCall) : Access Word :=
  match (s.logCall c).drawAnswer with
  | (.returns ⟨.ok, v⟩, s') => .ok v s'
  | (.returns ⟨st, _⟩, s') => .failed st s'
  | (.blocks, _) => .blocked

/-- `MemRead(a, n)`: classify, check alignment, then read (R53, R57). -/
def State.memRead (s : State) (a : Word) (g : Gran) : Access Word :=
  match classify s.cfg a with
  | .unmapped => .failed .errorUnmapped s
  | .ram => if g.aligned a then .ok (s.ram.readLE a.toNat g) s else .failed .errorMisaligned s
  | .mmio =>
    if g.aligned a then
      if s.readHook then
        match s.callHook (.read (a - s.cfg.mmioBase) g) with
        | .ok v s' => .ok (g.trunc v) s'
        | .failed st s' => .failed st s'
        | .blocked => .blocked
      else .failed .errorMmioUnmapped s
    else .failed .errorMisaligned s

/-- `MemWrite(a, n, v)`: classify, check alignment, then write the low `8n` bits (R54, R57). -/
def State.memWrite (s : State) (a : Word) (g : Gran) (v : Word) : Access Unit :=
  match classify s.cfg a with
  | .unmapped => .failed .errorUnmapped s
  | .ram =>
    if g.aligned a then .ok () (s.setRam (s.ram.writeBytes a.toNat (g.split v)))
    else .failed .errorMisaligned s
  | .mmio =>
    if g.aligned a then
      if s.writeHook then
        match s.callHook (.write (a - s.cfg.mmioBase) g (g.trunc v)) with
        | .ok _ s' => .ok () s'
        | .failed st s' => .failed st s'
        | .blocked => .blocked
      else .failed .errorMmioUnmapped s
    else .failed .errorMisaligned s

/-! ### The commit (40_dispatch.md R126) -/

/-- `pc <- next`, `retired <- retired + 1`. -/
def State.commit (s : State) (next : Word) : State := { s with pc := next, retired := s.retired + 1 }

/-- Commit the default advance `pc + len` (40_dispatch.md R122). -/
def State.advance (s : State) (len : Word) : State := s.commit (s.pc + len)

/-! ### The interrupt controller, fault routing and halt (60_exceptions.md) -/

/-- The handler address of vector `v` (R273). -/
def vectorAddr (c : Params) (v : Nat) : Word := c.vectorBase + BitVec.ofNat 32 v * c.vectorStride

/-- Entering vector `v`: `ie <- 0`, `saved <- pc`, `pc <- vector(v)`, and nothing else (R272, R289). -/
def State.enterVector (s : State) (v : Nat) : State :=
  { s with ie := false, saved := s.pc, pc := vectorAddr s.cfg v }

/-- `fire(v)` (R272): `none` is the answer "false", with no side effect; `some s'` is "true" with the state after. -/
def State.fire (s : State) (v : Nat) : Option State := if s.ie then some (s.enterVector v) else none

/-- `halt(reason, st)`: the halted state with its record; no other state changes (R279). -/
def State.haltWith (s : State) (reason : HaltReason) (st : AccessStatus) : State :=
  { s with run := .halted, halt := some { reason := reason, status := st, pc := s.pc } }

/-- The kinds of synchronous fault (R275). -/
inductive FaultKind
  | fetch
  | load
  | store
  | illegal
  deriving DecidableEq, Repr

/-- `reason(kind)` (R276). -/
def faultReason : FaultKind → HaltReason
  | .fetch => .fetchFault
  | .load => .loadFault
  | .store => .storeFault
  | .illegal => .illegalInstruction

/-- `route_fault(kind, st)`: taking an exception. Vector 0 when interrupts are enabled, else a halt (R276). -/
def State.routeFault (s : State) (kind : FaultKind) (st : AccessStatus) : State :=
  match s.fire 0 with
  | some s' => s'
  | none => s.haltWith (faultReason kind) st

/-- `return_from_interrupt()` and its commit: `ie <- 1`, the next `pc` is `saved` (R274). -/
def State.returnFromInterrupt (s : State) : State := (s.setIe true).commit s.saved

/-! ### Shared shapes of instructions -/

/-- Write one register and go on to the next instruction (45_alu.md R220). -/
def State.writeBack (s : State) (rd : RegId) (v : Word) (len : Word) : Result :=
  .next ((s.setReg rd v).advance len)

/-- Write the t-bit and go on (43_tests.md R185). -/
def State.writeTest (s : State) (b : Bool) : Result := .next ((s.setT b).advance 2)

/-- A load: the register is written only when the MMU answers Ok, else a load fault (40_dispatch.md R124). -/
def State.loadInto (s : State) (rd : RegId) (ea : Word) (g : Gran) (ext : Word → Word) (len : Word) : Result :=
  match s.memRead ea g with
  | .ok v s' => .next ((s'.setReg rd (ext v)).advance len)
  | .failed st s' => .next (s'.routeFault .load st)
  | .blocked => .fault .hookBlocked

/-- A store: it commits only when the MMU answers Ok, else a store fault (40_dispatch.md R124). -/
def State.storeFrom (s : State) (ea : Word) (g : Gran) (v : Word) (len : Word) : Result :=
  match s.memWrite ea g v with
  | .ok _ s' => .next (s'.advance len)
  | .failed st s' => .next (s'.routeFault .store st)
  | .blocked => .fault .hookBlocked

end Sys2Proof.Machine
end

