-- ==== Sys2Proof/Machine/Alu.lean ====
section
/-! DEFINITION. Arithmetic, logical and shift operations (45_alu.md R220 to R238). -/

namespace Sys2Proof.Machine

/-- `<<`, modulo 2^32, by the low 5 bits of the amount (R221). -/
def shiftLeft (v amount : Word) : Word := v <<< shiftAmount amount

/-- `>>u`, filling with zeros, by the low 5 bits of the amount (R221, R237). -/
def shiftRightU (v amount : Word) : Word := v >>> shiftAmount amount

/-- `>>s`, filling with copies of bit 31, by the low 5 bits of the amount (R221, R237). -/
def shiftRightS (v amount : Word) : Word := v.sshiftRight (shiftAmount amount)

/-- `add` (R222). -/
def execAdd (rd rs : RegId) (s : State) : Result := s.writeBack rd (s.reg rd + s.reg rs) 2

/-- `sub` (R223). -/
def execSub (rd rs : RegId) (s : State) : Result := s.writeBack rd (s.reg rd - s.reg rs) 2

/-- `and` (R224). -/
def execAnd (rd rs : RegId) (s : State) : Result := s.writeBack rd (s.reg rd &&& s.reg rs) 2

/-- `or` (R225). -/
def execOr (rd rs : RegId) (s : State) : Result := s.writeBack rd (s.reg rd ||| s.reg rs) 2

/-- `xor` (R226). -/
def execXor (rd rs : RegId) (s : State) : Result := s.writeBack rd (s.reg rd ^^^ s.reg rs) 2

/-- `shl` (R227). -/
def execShl (rd rs : RegId) (s : State) : Result := s.writeBack rd (shiftLeft (s.reg rd) (s.reg rs)) 2

/-- `shr` (R228). -/
def execShr (rd rs : RegId) (s : State) : Result := s.writeBack rd (shiftRightU (s.reg rd) (s.reg rs)) 2

/-- `sar` (R229). -/
def execSar (rd rs : RegId) (s : State) : Result := s.writeBack rd (shiftRightS (s.reg rd) (s.reg rs)) 2

/-- `addi` (R230). -/
def execAddi (rd rs : RegId) (imm : BitVec 16) (s : State) : Result := s.writeBack rd (s.reg rs + sext imm) 4

/-- `andi` (R231). -/
def execAndi (rd rs : RegId) (imm : BitVec 16) (s : State) : Result := s.writeBack rd (s.reg rs &&& zext imm) 4

/-- `ori` (R232). -/
def execOri (rd rs : RegId) (imm : BitVec 16) (s : State) : Result := s.writeBack rd (s.reg rs ||| zext imm) 4

/-- `xori` (R233). -/
def execXori (rd rs : RegId) (imm : BitVec 16) (s : State) : Result := s.writeBack rd (s.reg rs ^^^ zext imm) 4

/-- `shli` (R234). -/
def execShli (rd rs : RegId) (imm : BitVec 16) (s : State) : Result :=
  s.writeBack rd (shiftLeft (s.reg rs) (zext imm)) 4

/-- `shri` (R235). -/
def execShri (rd rs : RegId) (imm : BitVec 16) (s : State) : Result :=
  s.writeBack rd (shiftRightU (s.reg rs) (zext imm)) 4

/-- `sari` (R236). -/
def execSari (rd rs : RegId) (imm : BitVec 16) (s : State) : Result :=
  s.writeBack rd (shiftRightS (s.reg rs) (zext imm)) 4

end Sys2Proof.Machine
end

