-- ==== Sys2Proof/Machine/Flags.lean ====
section
/-! DEFINITION. The one flag computation of the machine: the value each test gives the t-bit (43_tests.md R185 to
R191). Signed tests compare `signed(a)` with `signed(b)`, unsigned tests compare the words (00_scope.md R13). -/

namespace Sys2Proof.Machine

/-- `teq` (R186). -/
def tEq (a b : Word) : Bool := a == b
/-- `tne` (R187). -/
def tNe (a b : Word) : Bool := a != b
/-- `tlt`, signed (R188). -/
def tLtS (a b : Word) : Bool := decide (a.toInt < b.toInt)
/-- `tltu`, unsigned (R189). -/
def tLtU (a b : Word) : Bool := decide (a.toNat < b.toNat)
/-- `tge`, signed (R190). -/
def tGeS (a b : Word) : Bool := decide (b.toInt ≤ a.toInt)
/-- `tgeu`, unsigned (R191). -/
def tGeU (a b : Word) : Bool := decide (b.toNat ≤ a.toNat)

end Sys2Proof.Machine
end

