-- ==== Sys2Proof/Machine/Compare.lean ====
section
/-! DEFINITION. The six tests (43_tests.md R185 to R191): each writes the t-bit and nothing else. -/

namespace Sys2Proof.Machine

/-- `teq` (R186). -/
def execTeq (ra rb : RegId) (s : State) : Result := s.writeTest (tEq (s.reg ra) (s.reg rb))

/-- `tne` (R187). -/
def execTne (ra rb : RegId) (s : State) : Result := s.writeTest (tNe (s.reg ra) (s.reg rb))

/-- `tlt` (R188). -/
def execTlt (ra rb : RegId) (s : State) : Result := s.writeTest (tLtS (s.reg ra) (s.reg rb))

/-- `tltu` (R189). -/
def execTltu (ra rb : RegId) (s : State) : Result := s.writeTest (tLtU (s.reg ra) (s.reg rb))

/-- `tge` (R190). -/
def execTge (ra rb : RegId) (s : State) : Result := s.writeTest (tGeS (s.reg ra) (s.reg rb))

/-- `tgeu` (R191). -/
def execTgeu (ra rb : RegId) (s : State) : Result := s.writeTest (tGeU (s.reg ra) (s.reg rb))

end Sys2Proof.Machine
end

