-- ==== Sys2Proof/Machine/Control.lean ====
section
/-! DEFINITION. Jumps, branches and calls (44_control.md R200 to R212). A target is committed unchecked (R210). -/

namespace Sys2Proof.Machine

/-- Commit `target` when `taken`, else the default advance of a 2-byte instruction (R203, R204, R206, R207). -/
def State.branchIf (s : State) (taken : Bool) (target : Word) : Result :=
  .next (if taken then s.commit target else s.advance 2)

/-- `j` (R201). -/
def execJ (rs : RegId) (s : State) : Result := .next (s.commit (s.reg rs))

/-- `jal`: the target is read before `x[15]` is written (R202, R211). -/
def execJal (rs : RegId) (s : State) : Result := .next ((s.setReg raReg (s.pc + 2)).commit (s.reg rs))

/-- `jt` (R203). -/
def execJt (rs : RegId) (s : State) : Result := s.branchIf s.t (s.reg rs)

/-- `jf` (R204). -/
def execJf (rs : RegId) (s : State) : Result := s.branchIf (!s.t) (s.reg rs)

/-- `bra` (R205). -/
def execBra (imm : BitVec 12) (s : State) : Result := .next (s.commit (s.pc + disp12 imm))

/-- `bt` (R206). -/
def execBt (imm : BitVec 12) (s : State) : Result := s.branchIf s.t (s.pc + disp12 imm)

/-- `bf` (R207). -/
def execBf (imm : BitVec 12) (s : State) : Result := s.branchIf (!s.t) (s.pc + disp12 imm)

/-- `jmp` (R208). -/
def execJmp (imm : BitVec 28) (s : State) : Result := .next (s.commit (s.pc + disp28 imm))

/-- `call` (R209, R211). -/
def execCall (imm : BitVec 28) (s : State) : Result :=
  .next ((s.setReg raReg (s.pc + 4)).commit (s.pc + disp28 imm))

end Sys2Proof.Machine
end

