-- ==== Sys2Proof/Machine/Interrupt.lean ====
section
/-! DEFINITION. The interrupt instructions and `Unknown` (46_interrupt_instr.md R250 to R256), and the external
interrupts (60_exceptions.md R281 to R285). -/

namespace Sys2Proof.Machine

/-- `ei` (R250). -/
def execEi (s : State) : Result := .next ((s.setIe true).advance 2)

/-- `di` (R251). -/
def execDi (s : State) : Result := .next ((s.setIe false).advance 2)

/-- `reti` (R252). -/
def execReti (s : State) : Result := .next s.returnFromInterrupt

/-- `wait`: a halt with interrupts disabled or with `WAIT_MODE = Fatal` (R253), else the step commits and the core
waits (R256). -/
def execWait (s : State) : Result :=
  if s.ie then
    match s.cfg.waitMode with
    | .fatal => .next (s.haltWith .waitUnimplemented .ok)
    | .suspend => .next ((s.advance 2).setRun .waiting)
  else .next (s.haltWith .waitWhileDisabled .ok)

/-- `Unknown`: the illegal-instruction fault (R254). The word is kept for diagnostics only. -/
def execUnknown (_w : Word) (s : State) : Result := .next (s.routeFault .illegal .ok)

/-- The lowest raised vector id `v` with 1 <= v < NUM_VECTORS, if any (60_exceptions.md R281, R284). -/
def State.request (s : State) : Option Nat :=
  (List.range' 1 (s.cfg.numVectors - 1)).find? (fun v => s.irq.contains v)

/-- Phase 1 of a `Running` step: a request is looked at only with `ie = 1` (40_dispatch.md R121, R127). -/
def State.sampleRequest (s : State) : Option Nat := if s.ie then s.request else none

/-- `take_interrupt(v)`: `fire(v)` with `ie = 1` (R283). Where `ie = 0`, `fire` has no effect (log 16). -/
def State.takeInterrupt (s : State) (v : Nat) : State :=
  match s.fire v with
  | some s' => s'
  | none => s

/-- The wake-up of a waiting core: `run <- Running`, then `take_interrupt(v)` (R285). -/
def State.wakeUp (s : State) (v : Nat) : State := (s.setRun .running).takeInterrupt v

end Sys2Proof.Machine
end

