-- ==== Sys2Proof/Machine/LoadStore.lean ====
section
/-! DEFINITION. Loads, stores and push (41_loads_stores.md R140 to R153). -/

namespace Sys2Proof.Machine

/-- The effective address of the RR16 forms: `x[rbase] + sext_16(off)`, modulo 2^32 (R140, R145). -/
def effAddr (s : State) (rbase : RegId) (off : BitVec 16) : Word := s.reg rbase + byteOffset off

/-- The effective address of the C forms: `x[rbase] + (zext_6(off) << 2)` (R152, R153). -/
def effAddrC (s : State) (rbase : CRegId) (off : BitVec 6) : Word :=
  s.reg (compactReg rbase) + compactOffset off

/-- The address `push` stores to: `x[14] - 4` (R151). -/
def pushAddr (s : State) : Word := s.reg spReg - 4

/-- `lb`: load byte, sign-extended (R140). -/
def execLb (rd rbase : RegId) (off : BitVec 16) (s : State) : Result :=
  s.loadInto rd (effAddr s rbase off) .byte sextByte 4

/-- `lbu`: load byte, zero-extended (R141). -/
def execLbu (rd rbase : RegId) (off : BitVec 16) (s : State) : Result :=
  s.loadInto rd (effAddr s rbase off) .byte zextByte 4

/-- `lh`: load 2 bytes, sign-extended (R142). -/
def execLh (rd rbase : RegId) (off : BitVec 16) (s : State) : Result :=
  s.loadInto rd (effAddr s rbase off) .half sextHalf 4

/-- `lhu`: load 2 bytes, zero-extended (R143). -/
def execLhu (rd rbase : RegId) (off : BitVec 16) (s : State) : Result :=
  s.loadInto rd (effAddr s rbase off) .half zextHalf 4

/-- `lw`: load 4 bytes (R144). -/
def execLw (rd rbase : RegId) (off : BitVec 16) (s : State) : Result :=
  s.loadInto rd (effAddr s rbase off) .word id 4

/-- `sb`: store byte (R146). -/
def execSb (rs rbase : RegId) (off : BitVec 16) (s : State) : Result :=
  s.storeFrom (effAddr s rbase off) .byte (s.reg rs) 4

/-- `sh`: store 2 bytes (R147). -/
def execSh (rs rbase : RegId) (off : BitVec 16) (s : State) : Result :=
  s.storeFrom (effAddr s rbase off) .half (s.reg rs) 4

/-- `sw`: store 4 bytes (R148). -/
def execSw (rs rbase : RegId) (off : BitVec 16) (s : State) : Result :=
  s.storeFrom (effAddr s rbase off) .word (s.reg rs) 4

/-- `push`: store `x[rs]` at `x[14] - 4`; `x[14]` changes only when the store answers Ok (R151). -/
def execPush (rs : RegId) (s : State) : Result :=
  match s.memWrite (pushAddr s) .word (s.reg rs) with
  | .ok _ s' => .next ((s'.setReg spReg (pushAddr s)).advance 2)
  | .failed st s' => .next (s'.routeFault .store st)
  | .blocked => .fault .hookBlocked

/-- `lwc`: compact load word (R152). -/
def execLwc (rd rbase : CRegId) (off : BitVec 6) (s : State) : Result :=
  s.loadInto (compactReg rd) (effAddrC s rbase off) .word id 2

/-- `swc`: compact store word (R153). -/
def execSwc (rs rbase : CRegId) (off : BitVec 6) (s : State) : Result :=
  s.storeFrom (effAddrC s rbase off) .word (s.reg (compactReg rs)) 2

end Sys2Proof.Machine
end

