-- ==== Sys2Proof/Machine/Moves.lean ====
section
/-! DEFINITION. Register moves and immediate loads (42_moves_immediates.md R170 to R174). -/

namespace Sys2Proof.Machine

/-- `mov` (R170). -/
def execMov (rd rs : RegId) (s : State) : Result := s.writeBack rd (s.reg rs) 2

/-- `li`: signed 8-bit immediate (R171). -/
def execLi (rd : RegId) (imm : BitVec 8) (s : State) : Result := s.writeBack rd (sext imm) 2

/-- `liu`: unsigned 8-bit immediate (R172). -/
def execLiu (rd : RegId) (imm : BitVec 8) (s : State) : Result := s.writeBack rd (zext imm) 2

/-- `lil`: unsigned 16-bit immediate (R173). -/
def execLil (rd : RegId) (imm : BitVec 16) (s : State) : Result := s.writeBack rd (zext imm) 4

/-- `lih`: the high half, keeping the low half (R174). -/
def execLih (rd : RegId) (imm : BitVec 16) (s : State) : Result :=
  s.writeBack rd ((zext imm <<< 16) ||| (s.reg rd &&& 0x0000FFFF)) 4

end Sys2Proof.Machine
end

