-- ==== Sys2Proof/Syntax.lean ====
section
/-! DEFINITION. The closed instruction set: one constructor for each row of spec/opcode_table.json, with the fields of
30_encoding.md R83 that the instruction uses (R91 names the bits that no instruction uses: they are no fields). -/

namespace Sys2Proof

/-- The decoded variants (30_encoding.md R95, R97, R98), in the table's order. Immediates are the raw fields of the
encoding; Machine/Operands.lean turns them into 32-bit operands (R90). -/
inductive Instr
  /- format RR: registers -/
  | mov (rd rs : RegId)
  | add (rd rs : RegId)
  | sub (rd rs : RegId)
  | and (rd rs : RegId)
  | or (rd rs : RegId)
  | xor (rd rs : RegId)
  | shl (rd rs : RegId)
  | shr (rd rs : RegId)
  | sar (rd rs : RegId)
  | teq (ra rb : RegId)
  | tne (ra rb : RegId)
  | tlt (ra rb : RegId)
  | tltu (ra rb : RegId)
  | tge (ra rb : RegId)
  | tgeu (ra rb : RegId)
  | j (rs : RegId)
  | jal (rs : RegId)
  | jt (rs : RegId)
  | jf (rs : RegId)
  | push (rs : RegId)
  | ei
  | di
  | reti
  | wait
  /- format RR16: registers and a 16-bit extension -/
  | lb (rd rbase : RegId) (off : BitVec 16)
  | lbu (rd rbase : RegId) (off : BitVec 16)
  | lh (rd rbase : RegId) (off : BitVec 16)
  | lhu (rd rbase : RegId) (off : BitVec 16)
  | lw (rd rbase : RegId) (off : BitVec 16)
  | sb (rs rbase : RegId) (off : BitVec 16)
  | sh (rs rbase : RegId) (off : BitVec 16)
  | sw (rs rbase : RegId) (off : BitVec 16)
  | addi (rd rs : RegId) (imm : BitVec 16)
  | andi (rd rs : RegId) (imm : BitVec 16)
  | ori (rd rs : RegId) (imm : BitVec 16)
  | xori (rd rs : RegId) (imm : BitVec 16)
  | shli (rd rs : RegId) (imm : BitVec 16)
  | shri (rd rs : RegId) (imm : BitVec 16)
  | sari (rd rs : RegId) (imm : BitVec 16)
  | lil (rd : RegId) (imm : BitVec 16)
  | lih (rd : RegId) (imm : BitVec 16)
  /- format C: a pair of 2-bit registers and a 6-bit immediate -/
  | lwc (rd rbase : CRegId) (off : BitVec 6)
  | swc (rs rbase : CRegId) (off : BitVec 6)
  /- format RI: a register and an 8-bit immediate -/
  | li (rd : RegId) (imm : BitVec 8)
  | liu (rd : RegId) (imm : BitVec 8)
  /- format B12: a 12-bit displacement -/
  | bra (imm : BitVec 12)
  | bt (imm : BitVec 12)
  | bf (imm : BitVec 12)
  /- format B28: a 28-bit displacement -/
  | jmp (imm : BitVec 28)
  | call (imm : BitVec 28)
  /- the catch-all, with the whole fetched word (R96, R254) -/
  | unknown (w : Word)
  deriving DecidableEq, Repr

end Sys2Proof
end

