-- ==== Sys2Proof/Machine/Dispatch.lean ====
section
/-! DEFINITION. The execute phase: an exhaustive case analysis over the variant (40_dispatch.md R123). -/

namespace Sys2Proof.Machine

/-- Execute one instruction and commit it, or route the fault it raises, or halt (40_dispatch.md R121, R127). -/
def exec (i : Instr) (s : State) : Host.Outcome State Fault Refusal :=
  match i with
  | .mov rd rs => Sys2Proof.Machine.execMov rd rs s
  | .add rd rs => Sys2Proof.Machine.execAdd rd rs s
  | .sub rd rs => Sys2Proof.Machine.execSub rd rs s
  | .and rd rs => Sys2Proof.Machine.execAnd rd rs s
  | .or rd rs => Sys2Proof.Machine.execOr rd rs s
  | .xor rd rs => Sys2Proof.Machine.execXor rd rs s
  | .shl rd rs => Sys2Proof.Machine.execShl rd rs s
  | .shr rd rs => Sys2Proof.Machine.execShr rd rs s
  | .sar rd rs => Sys2Proof.Machine.execSar rd rs s
  | .teq ra rb => Sys2Proof.Machine.execTeq ra rb s
  | .tne ra rb => Sys2Proof.Machine.execTne ra rb s
  | .tlt ra rb => Sys2Proof.Machine.execTlt ra rb s
  | .tltu ra rb => Sys2Proof.Machine.execTltu ra rb s
  | .tge ra rb => Sys2Proof.Machine.execTge ra rb s
  | .tgeu ra rb => Sys2Proof.Machine.execTgeu ra rb s
  | .j rs => Sys2Proof.Machine.execJ rs s
  | .jal rs => Sys2Proof.Machine.execJal rs s
  | .jt rs => Sys2Proof.Machine.execJt rs s
  | .jf rs => Sys2Proof.Machine.execJf rs s
  | .push rs => Sys2Proof.Machine.execPush rs s
  | .ei => Sys2Proof.Machine.execEi s
  | .di => Sys2Proof.Machine.execDi s
  | .reti => Sys2Proof.Machine.execReti s
  | .wait => Sys2Proof.Machine.execWait s
  | .lb rd rbase off => Sys2Proof.Machine.execLb rd rbase off s
  | .lbu rd rbase off => Sys2Proof.Machine.execLbu rd rbase off s
  | .lh rd rbase off => Sys2Proof.Machine.execLh rd rbase off s
  | .lhu rd rbase off => Sys2Proof.Machine.execLhu rd rbase off s
  | .lw rd rbase off => Sys2Proof.Machine.execLw rd rbase off s
  | .sb rs rbase off => Sys2Proof.Machine.execSb rs rbase off s
  | .sh rs rbase off => Sys2Proof.Machine.execSh rs rbase off s
  | .sw rs rbase off => Sys2Proof.Machine.execSw rs rbase off s
  | .addi rd rs imm => Sys2Proof.Machine.execAddi rd rs imm s
  | .andi rd rs imm => Sys2Proof.Machine.execAndi rd rs imm s
  | .ori rd rs imm => Sys2Proof.Machine.execOri rd rs imm s
  | .xori rd rs imm => Sys2Proof.Machine.execXori rd rs imm s
  | .shli rd rs imm => Sys2Proof.Machine.execShli rd rs imm s
  | .shri rd rs imm => Sys2Proof.Machine.execShri rd rs imm s
  | .sari rd rs imm => Sys2Proof.Machine.execSari rd rs imm s
  | .lil rd imm => Sys2Proof.Machine.execLil rd imm s
  | .lih rd imm => Sys2Proof.Machine.execLih rd imm s
  | .lwc rd rbase off => Sys2Proof.Machine.execLwc rd rbase off s
  | .swc rs rbase off => Sys2Proof.Machine.execSwc rs rbase off s
  | .li rd imm => Sys2Proof.Machine.execLi rd imm s
  | .liu rd imm => Sys2Proof.Machine.execLiu rd imm s
  | .bra imm => Sys2Proof.Machine.execBra imm s
  | .bt imm => Sys2Proof.Machine.execBt imm s
  | .bf imm => Sys2Proof.Machine.execBf imm s
  | .jmp imm => Sys2Proof.Machine.execJmp imm s
  | .call imm => Sys2Proof.Machine.execCall imm s
  | .unknown w => Sys2Proof.Machine.execUnknown w s

end Sys2Proof.Machine
end

