-- ==== Sys2Proof/WellFormed.lean ====
section
/-! DEFINITION. Which instructions are well-formed, and which parameters a machine may have. -/

namespace Sys2Proof

/-- The top bytes that belong to no instruction, as 30_encoding.md R98 lists them. -/
def isUnassignedTop (top : Byte) : Bool :=
  let n := top.toNat
  n == 0x00 || (0x19 ≤ n && n ≤ 0x1F) || (0x31 ≤ n && n ≤ 0x3F) || (0x48 ≤ n && n ≤ 0x4F)
    || (0x70 ≤ n && n ≤ 0x7F) || (0xD0 ≤ n && n ≤ 0xFF)

/-- A well-formed instruction. Every field has exactly the width its encoding gives it, so the one check is
that the word kept by `unknown` has a top byte of R98. -/
def Instr.wf : Instr → Bool
  | .unknown w => isUnassignedTop (w.extractLsb' 8 8)
  | _ => true

/-- The constraints of the table of 00_scope.md R8. -/
def Params.wf (c : Params) : Bool :=
  c.ramSize % 4 == 0 && 4 ≤ c.ramSize && c.ramSize ≤ c.mmioBase.toNat && c.mmioBase.toNat % 4 == 0
    && c.vectorBase.toNat % 2 == 0 && c.vectorStride.toNat % 2 == 0 && 2 ≤ c.numVectors

end Sys2Proof
end

