-- ==== Sys2Proof/Decode.lean ====
section
/-! DEFINITION. The instruction decoder (30_encoding.md R82 to R100), the encoder written from the same tables, and
the byte layout of an instruction in memory (R81). -/

namespace Sys2Proof

/-! ### Discriminators and fields (R82, R83) -/

/-- `T8 = w[15:8]`, the top byte. -/
def discT8 (w : Word) : BitVec 8 := w.extractLsb' 8 8
/-- `T6 = w[15:10]`. -/
def discT6 (w : Word) : BitVec 6 := w.extractLsb' 10 6
/-- `T4 = w[15:12]`. -/
def discT4 (w : Word) : BitVec 4 := w.extractLsb' 12 4

/-- `ra = w[7:4]` of RR and RR16. -/
def fieldRa (w : Word) : RegId := (w.extractLsb' 4 4).toFin
/-- `rb = w[3:0]` of RR and RR16. -/
def fieldRb (w : Word) : RegId := (w.extractLsb' 0 4).toFin
/-- `imm16 = w[31:16]` of RR16. -/
def fieldImm16 (w : Word) : BitVec 16 := w.extractLsb' 16 16
/-- `ra = w[11:8]` of RI. -/
def fieldRaRI (w : Word) : RegId := (w.extractLsb' 8 4).toFin
/-- `imm8 = w[7:0]` of RI. -/
def fieldImm8 (w : Word) : BitVec 8 := w.extractLsb' 0 8
/-- `ca = w[9:8]` of C. -/
def fieldCa (w : Word) : CRegId := (w.extractLsb' 8 2).toFin
/-- `cb = w[7:6]` of C. -/
def fieldCb (w : Word) : CRegId := (w.extractLsb' 6 2).toFin
/-- `imm6 = w[5:0]` of C. -/
def fieldImm6 (w : Word) : BitVec 6 := w.extractLsb' 0 6
/-- `imm12 = w[11:0]` of B12. -/
def fieldImm12 (w : Word) : BitVec 12 := w.extractLsb' 0 12
/-- `imm28 = w[31:16] : w[11:0]` of B28. -/
def fieldImm28 (w : Word) : BitVec 28 :=
  (w.extractLsb' 16 16).setWidth 28 <<< 12 ||| (w.extractLsb' 0 12).setWidth 28

/-! ### The decoder (R92 to R98) -/

/-- The 8-bit opcodes (R95). -/
def decode8 (w : Word) : Option Instr :=
  match (discT8 w).toNat with
  | 0x01 => some (.mov (fieldRa w) (fieldRb w))
  | 0x02 => some (.add (fieldRa w) (fieldRb w))
  | 0x03 => some (.sub (fieldRa w) (fieldRb w))
  | 0x04 => some (.and (fieldRa w) (fieldRb w))
  | 0x05 => some (.or (fieldRa w) (fieldRb w))
  | 0x06 => some (.xor (fieldRa w) (fieldRb w))
  | 0x07 => some (.shl (fieldRa w) (fieldRb w))
  | 0x08 => some (.shr (fieldRa w) (fieldRb w))
  | 0x09 => some (.sar (fieldRa w) (fieldRb w))
  | 0x0A => some (.teq (fieldRa w) (fieldRb w))
  | 0x0B => some (.tne (fieldRa w) (fieldRb w))
  | 0x0C => some (.tlt (fieldRa w) (fieldRb w))
  | 0x0D => some (.tltu (fieldRa w) (fieldRb w))
  | 0x0E => some (.tge (fieldRa w) (fieldRb w))
  | 0x0F => some (.tgeu (fieldRa w) (fieldRb w))
  | 0x10 => some (.j (fieldRa w))
  | 0x11 => some (.jal (fieldRa w))
  | 0x12 => some (.jt (fieldRa w))
  | 0x13 => some (.jf (fieldRa w))
  | 0x14 => some (.push (fieldRa w))
  | 0x15 => some .ei
  | 0x16 => some .di
  | 0x17 => some .reti
  | 0x18 => some .wait
  | 0x20 => some (.lb (fieldRa w) (fieldRb w) (fieldImm16 w))
  | 0x21 => some (.lbu (fieldRa w) (fieldRb w) (fieldImm16 w))
  | 0x22 => some (.lh (fieldRa w) (fieldRb w) (fieldImm16 w))
  | 0x23 => some (.lhu (fieldRa w) (fieldRb w) (fieldImm16 w))
  | 0x24 => some (.lw (fieldRa w) (fieldRb w) (fieldImm16 w))
  | 0x25 => some (.sb (fieldRa w) (fieldRb w) (fieldImm16 w))
  | 0x26 => some (.sh (fieldRa w) (fieldRb w) (fieldImm16 w))
  | 0x27 => some (.sw (fieldRa w) (fieldRb w) (fieldImm16 w))
  | 0x28 => some (.addi (fieldRa w) (fieldRb w) (fieldImm16 w))
  | 0x29 => some (.andi (fieldRa w) (fieldRb w) (fieldImm16 w))
  | 0x2A => some (.ori (fieldRa w) (fieldRb w) (fieldImm16 w))
  | 0x2B => some (.xori (fieldRa w) (fieldRb w) (fieldImm16 w))
  | 0x2C => some (.shli (fieldRa w) (fieldRb w) (fieldImm16 w))
  | 0x2D => some (.shri (fieldRa w) (fieldRb w) (fieldImm16 w))
  | 0x2E => some (.sari (fieldRa w) (fieldRb w) (fieldImm16 w))
  | 0x2F => some (.lil (fieldRa w) (fieldImm16 w))
  | 0x30 => some (.lih (fieldRa w) (fieldImm16 w))
  | _ => none

/-- The 7-bit stage, which never matches (R93). -/
def decode7 (_ : Word) : Option Instr := none

/-- The 6-bit opcodes (R97). -/
def decode6 (w : Word) : Option Instr :=
  match (discT6 w).toNat with
  | 0b010000 => some (.lwc (fieldCa w) (fieldCb w) (fieldImm6 w))
  | 0b010001 => some (.swc (fieldCa w) (fieldCb w) (fieldImm6 w))
  | _ => none

/-- The 4-bit opcodes (R97). -/
def decode4 (w : Word) : Option Instr :=
  match (discT4 w).toNat with
  | 0x5 => some (.li (fieldRaRI w) (fieldImm8 w))
  | 0x6 => some (.liu (fieldRaRI w) (fieldImm8 w))
  | 0x8 => some (.bra (fieldImm12 w))
  | 0x9 => some (.bt (fieldImm12 w))
  | 0xA => some (.bf (fieldImm12 w))
  | 0xB => some (.jmp (fieldImm28 w))
  | 0xC => some (.call (fieldImm28 w))
  | _ => none

/-- The decoder: total and pure, most specific discriminator first, the first match wins (R92, R96). -/
def decode (w : Word) : Instr :=
  match decode8 w with
  | some i => i
  | none =>
    match decode7 w with
    | some i => i
    | none =>
      match decode6 w with
      | some i => i
      | none =>
        match decode4 w with
        | some i => i
        | none => .unknown w

/-- The length in bytes (R100): 4 for RR16 and B28, 2 for the others and for `Unknown`. -/
def Instr.len : Instr → Nat
  | .lb _ _ _ | .lbu _ _ _ | .lh _ _ _ | .lhu _ _ _ | .lw _ _ _ | .sb _ _ _ | .sh _ _ _ | .sw _ _ _ => 4
  | .addi _ _ _ | .andi _ _ _ | .ori _ _ _ | .xori _ _ _ | .shli _ _ _ | .shri _ _ _ | .sari _ _ _ => 4
  | .lil _ _ | .lih _ _ | .jmp _ | .call _ => 4
  | .mov _ _ | .add _ _ | .sub _ _ | .and _ _ | .or _ _ | .xor _ _ | .shl _ _ | .shr _ _ | .sar _ _ => 2
  | .teq _ _ | .tne _ _ | .tlt _ _ | .tltu _ _ | .tge _ _ | .tgeu _ _ => 2
  | .j _ | .jal _ | .jt _ | .jf _ | .push _ | .ei | .di | .reti | .wait => 2
  | .lwc _ _ _ | .swc _ _ _ | .li _ _ | .liu _ _ | .bra _ | .bt _ | .bf _ | .unknown _ => 2

/-! ### Bytes (R81) -/

/-- The word whose bytes lie at rising addresses `b0`, `b1`, `b2`, `b3` (R81). -/
def wordOfBytes (b0 b1 b2 b3 : Byte) : Word :=
  b0.setWidth 32 ||| b1.setWidth 32 <<< 8 ||| b2.setWidth 32 <<< 16 ||| b3.setWidth 32 <<< 24

/-- The four bytes of a word in memory order (R81). -/
def bytesOfWord (w : Word) : List Byte :=
  [w.extractLsb' 0 8, w.extractLsb' 8 8, w.extractLsb' 16 8, w.extractLsb' 24 8]

/-- Why a byte stream holds no instruction word. -/
inductive DecodeError
  /-- Fewer than the 4 bytes that every fetch reads (30_encoding.md R80, 70_reset_and_hazards.md R308). -/
  | truncated (available : Nat)
  deriving DecidableEq, Repr

/-- Decode the instruction at the head of a byte stream, with what stands after it. A word that is no instruction
decodes to `Unknown` (R98). A stream of fewer than 4 bytes is rejected by name. -/
def decodeBytes : List Byte → Except DecodeError (Instr × List Byte)
  | b0 :: b1 :: b2 :: b3 :: rest =>
    let i := decode (wordOfBytes b0 b1 b2 b3)
    .ok (i, (b0 :: b1 :: b2 :: b3 :: rest).drop i.len)
  | bs => .error (.truncated bs.length)

/-- The instruction the decoder reads from the `nbits` low bits of `w`, the bits above them 0, laid out as the
hardware stores them. -/
def decodeTableWord (nbits w : Nat) : Option Instr :=
  match decodeBytes (bytesOfWord (BitVec.ofNat 32 (w % 2 ^ nbits))) with
  | .ok (i, _) => some i
  | .error _ => none

/-! ### The encoder (R83 to R91, R95, R97) -/

/-- A register index as the 4 bits of a register field. -/
def regBits (r : RegId) : Word := BitVec.ofNat 32 r.val

/-- A compact register index as the 2 bits of a register field. -/
def cregBits (r : CRegId) : Word := BitVec.ofNat 32 r.val

/-- Format RR (R84); bits 31..16 are not part of the instruction and are written 0. -/
def encodeRR (op : BitVec 8) (ra rb : RegId) : Word :=
  op.setWidth 32 <<< 8 ||| regBits ra <<< 4 ||| regBits rb

/-- Format RR16 (R85). -/
def encodeRR16 (op : BitVec 8) (ra rb : RegId) (imm : BitVec 16) : Word :=
  imm.setWidth 32 <<< 16 ||| op.setWidth 32 <<< 8 ||| regBits ra <<< 4 ||| regBits rb

/-- Format RI (R86). -/
def encodeRI (op : BitVec 4) (ra : RegId) (imm : BitVec 8) : Word :=
  op.setWidth 32 <<< 12 ||| regBits ra <<< 8 ||| imm.setWidth 32

/-- Format C (R87). -/
def encodeC (op : BitVec 6) (ca cb : CRegId) (imm : BitVec 6) : Word :=
  op.setWidth 32 <<< 10 ||| cregBits ca <<< 8 ||| cregBits cb <<< 6 ||| imm.setWidth 32

/-- Format B12 (R88). -/
def encodeB12 (op : BitVec 4) (imm : BitVec 12) : Word := op.setWidth 32 <<< 12 ||| imm.setWidth 32

/-- Format B28 (R89): `imm28[27:12] : op : imm28[11:0]`. -/
def encodeB28 (op : BitVec 4) (imm : BitVec 28) : Word :=
  (imm.extractLsb' 12 16).setWidth 32 <<< 16 ||| op.setWidth 32 <<< 12 ||| (imm.extractLsb' 0 12).setWidth 32

/-- The 32-bit word of an instruction. Bits that no field uses are written 0 (R91). -/
def encode : Instr → Word
  | .mov rd rs => encodeRR 0x01 rd rs
  | .add rd rs => encodeRR 0x02 rd rs
  | .sub rd rs => encodeRR 0x03 rd rs
  | .and rd rs => encodeRR 0x04 rd rs
  | .or rd rs => encodeRR 0x05 rd rs
  | .xor rd rs => encodeRR 0x06 rd rs
  | .shl rd rs => encodeRR 0x07 rd rs
  | .shr rd rs => encodeRR 0x08 rd rs
  | .sar rd rs => encodeRR 0x09 rd rs
  | .teq ra rb => encodeRR 0x0A ra rb
  | .tne ra rb => encodeRR 0x0B ra rb
  | .tlt ra rb => encodeRR 0x0C ra rb
  | .tltu ra rb => encodeRR 0x0D ra rb
  | .tge ra rb => encodeRR 0x0E ra rb
  | .tgeu ra rb => encodeRR 0x0F ra rb
  | .j rs => encodeRR 0x10 rs 0
  | .jal rs => encodeRR 0x11 rs 0
  | .jt rs => encodeRR 0x12 rs 0
  | .jf rs => encodeRR 0x13 rs 0
  | .push rs => encodeRR 0x14 rs 0
  | .ei => encodeRR 0x15 0 0
  | .di => encodeRR 0x16 0 0
  | .reti => encodeRR 0x17 0 0
  | .wait => encodeRR 0x18 0 0
  | .lb rd rbase off => encodeRR16 0x20 rd rbase off
  | .lbu rd rbase off => encodeRR16 0x21 rd rbase off
  | .lh rd rbase off => encodeRR16 0x22 rd rbase off
  | .lhu rd rbase off => encodeRR16 0x23 rd rbase off
  | .lw rd rbase off => encodeRR16 0x24 rd rbase off
  | .sb rs rbase off => encodeRR16 0x25 rs rbase off
  | .sh rs rbase off => encodeRR16 0x26 rs rbase off
  | .sw rs rbase off => encodeRR16 0x27 rs rbase off
  | .addi rd rs imm => encodeRR16 0x28 rd rs imm
  | .andi rd rs imm => encodeRR16 0x29 rd rs imm
  | .ori rd rs imm => encodeRR16 0x2A rd rs imm
  | .xori rd rs imm => encodeRR16 0x2B rd rs imm
  | .shli rd rs imm => encodeRR16 0x2C rd rs imm
  | .shri rd rs imm => encodeRR16 0x2D rd rs imm
  | .sari rd rs imm => encodeRR16 0x2E rd rs imm
  | .lil rd imm => encodeRR16 0x2F rd 0 imm
  | .lih rd imm => encodeRR16 0x30 rd 0 imm
  | .lwc rd rbase off => encodeC 0b010000 rd rbase off
  | .swc rs rbase off => encodeC 0b010001 rs rbase off
  | .li rd imm => encodeRI 0x5 rd imm
  | .liu rd imm => encodeRI 0x6 rd imm
  | .bra imm => encodeB12 0x8 imm
  | .bt imm => encodeB12 0x9 imm
  | .bf imm => encodeB12 0xA imm
  | .jmp imm => encodeB28 0xB imm
  | .call imm => encodeB28 0xC imm
  | .unknown w => w

/-- The bytes an instruction occupies in memory, at rising addresses (R81). -/
def encodeBytes (i : Instr) : List Byte := (bytesOfWord (encode i)).take i.len

end Sys2Proof
end

