-- ==== Sys2Proof/Machine/Fetch.lean ====
section
/-! DEFINITION. Instruction fetch (30_encoding.md R80), and where the next instruction is stored for a fetch. -/

namespace Sys2Proof.Machine

/-- The instruction word at `pc`: two 2-byte reads, the low half first; the high half is not read when the low half
fails (R80, D6). -/
def State.fetch (s : State) : Access Word :=
  match s.memRead s.pc .half with
  | .ok lo s1 =>
    match s1.memRead (s.pc + 2) .half with
    | .ok hi s2 => .ok (lo ||| (hi <<< 16)) s2
    | .failed st s2 => .failed st s2
    | .blocked => .blocked
  | .failed st s1 => .failed st s1
  | .blocked => .blocked

/-- Store the four bytes of a word at `pc`, `pc + 1`, `pc + 2`, `pc + 3` (R81). -/
def State.placeWord (s : State) (w : Word) : State :=
  s.setRam ((((s.ram.write s.pc.toNat (w.extractLsb' 0 8)).write (s.pc + 1).toNat (w.extractLsb' 8 8)).write
    (s.pc + 2).toNat (w.extractLsb' 16 8)).write (s.pc + 3).toNat (w.extractLsb' 24 8))

end Sys2Proof.Machine
end

