-- ==== Sys2Proof/Machine/Run.lean ====
section
/-! DEFINITION. The step of the core in each run state (40_dispatch.md R120, R121, R127), and the run that the host can
stop between steps (R129). -/

namespace Sys2Proof.Machine

/-- Phases 2 to 6: fetch, decode, execute and commit (40_dispatch.md R127). -/
def State.runInstruction (s : State) : Result :=
  match s.fetch with
  | .ok w s' => exec (decode w) s'
  | .failed st s' => .next (s'.routeFault .fetch st)
  | .blocked => .fault .hookBlocked

/-- The core's step in each run state (40_dispatch.md R120, R127, 60_exceptions.md R283, R285). -/
def coreStep (s : State) : Result :=
  match s.run with
  | .halted => .fault .coreHalted
  | .waiting =>
    match s.request with
    | some v => .next (s.wakeUp v)
    | none => .fault .coreWaiting
  | .running =>
    match s.sampleRequest with
    | some v => .next (s.takeInterrupt v)
    | none => s.runInstruction

/-- The run's next core step; a stopped run makes none until it is resumed (40_dispatch.md R129; log 26). -/
def State.letCore (s : State) : Result := if s.stopped then .fault .runStopped else coreStep s

end Sys2Proof.Machine
end

