-- ==== Sys2Proof/Machine/HostActions.lean ====
section
/-! DEFINITION. What the host does between core steps (00_scope.md R10): reset with an image, request lines, MMIO hook
configuration, stop, resume, keepalive. -/

namespace Sys2Proof.Machine

/-- Reset with a program image: every element of core state at its reset value, the first RAM_SIZE bytes of the image
in RAM from address 0, a warning when the image was longer (70_reset_and_hazards.md R300, R303; 10_state.md R35). The
parameters and the host's inputs are no core state and stay (10_state.md R34; log 20). -/
def State.resetWith (s : State) (image : List Byte) : State :=
  { s with
    regs := Vector.replicate 16 0
    pc := 0
    t := false
    ie := false
    saved := 0
    run := .running
    halt := none
    retired := 0
    ram := Memory.ofBytes 0 (image.take s.cfg.ramSize)
    loadWarning := decide (s.cfg.ramSize < image.length) }

/-- Raise or lower `irq[v]` (60_exceptions.md R281). -/
def State.driveLine (s : State) (v : Nat) (raised : Bool) : State :=
  { s with irq := if raised then v :: s.irq.filter (· != v) else s.irq.filter (· != v) }

/-- Stop or resume the run: the core's state is untouched (40_dispatch.md R129). -/
def State.setStopped (s : State) (b : Bool) : State := { s with stopped := b }

/-- Configure or remove the MMIO hooks (70_reset_and_hazards.md R304). -/
def State.setHooks (s : State) (r w : Bool) : State := { s with readHook := r, writeHook := w }

/-- What the host does next: the rest of the script. -/
def State.setScript (s : State) (rest : List HostAction) : State := { s with script := rest }

/-- Perform one host action. The keepalive hook changes nothing; when it never returns the machine is stuck
(40_dispatch.md R131, 70_reset_and_hazards.md R310; log 4). -/
def State.hostAct (s : State) (a : HostAction) : Result :=
  match a with
  | .letCoreStep => s.letCore
  | .setLine v raised => .next (s.driveLine v raised)
  | .configureHooks r w => .next (s.setHooks r w)
  | .reset image => .next (s.resetWith image)
  | .stop => .next (s.setStopped true)
  | .resume => .next (s.setStopped false)
  | .keepalive true => .next s
  | .keepalive false => .fault .keepaliveBlocked

end Sys2Proof.Machine
end

