-- ==== Sys2Proof/Machine/Step.lean ====
section
/-! DEFINITION. The step of the machine, which does the host's next action or lets the core step (log 7), and the
placing of an instruction where it is fetched. -/

namespace Sys2Proof.Machine

/-- One step of the machine: the host's next action, or the core's step when the host has nothing to do. -/
def step (s : State) : Host.Outcome State Fault Refusal :=
  match s.script with
  | [] => s.letCore
  | a :: rest => (s.setScript rest).hostAct a

/-- `s` with the instruction word `w` (its low `nbits` bits, the bits above them 0) stored where the next fetch reads
(30_encoding.md R80, R81): the load of a program from outside the machine (log 12). -/
def State.withFetchWord (s : State) (nbits w : Nat) : State := s.placeWord (BitVec.ofNat 32 (w % 2 ^ nbits))

end Sys2Proof.Machine
end

