-- ==== Sys2Proof/Safety.lean ====
section
/-! DEFINITION. The terms in which claims about the machine are stated: which words encode an instruction, what one
step may change (frames), what a routed fault leaves, and the invariant of every run. -/

namespace Sys2Proof

/-! ### Encodings (30_encoding.md R83): every word with these bits decodes to this instruction -/

/-- Every word whose top byte is `op` decodes to `mk ra rb` with `ra = w[7:4]`, `rb = w[3:0]`. -/
def EncodesRR (op : BitVec 8) (mk : RegId → RegId → Instr) : Prop :=
  ∀ w : Word, w.extractLsb' 8 8 = op → decode w = mk (w.extractLsb' 4 4).toFin (w.extractLsb' 0 4).toFin

/-- As `EncodesRR`, for an instruction that ignores `rb` (30_encoding.md R91). -/
def EncodesR (op : BitVec 8) (mk : RegId → Instr) : Prop :=
  ∀ w : Word, w.extractLsb' 8 8 = op → decode w = mk (w.extractLsb' 4 4).toFin

/-- As `EncodesRR`, for an instruction that ignores both register fields (30_encoding.md R91). -/
def EncodesOp (op : BitVec 8) (i : Instr) : Prop := ∀ w : Word, w.extractLsb' 8 8 = op → decode w = i

/-- Format RR16, with `imm16 = w[31:16]`. -/
def EncodesRR16 (op : BitVec 8) (mk : RegId → RegId → BitVec 16 → Instr) : Prop :=
  ∀ w : Word, w.extractLsb' 8 8 = op →
    decode w = mk (w.extractLsb' 4 4).toFin (w.extractLsb' 0 4).toFin (w.extractLsb' 16 16)

/-- Format RR16, for an instruction that ignores `rb` (30_encoding.md R91). -/
def EncodesR16 (op : BitVec 8) (mk : RegId → BitVec 16 → Instr) : Prop :=
  ∀ w : Word, w.extractLsb' 8 8 = op → decode w = mk (w.extractLsb' 4 4).toFin (w.extractLsb' 16 16)

/-- Format C: `w[15:10] = op`, `ca = w[9:8]`, `cb = w[7:6]`, `imm6 = w[5:0]`. -/
def EncodesC (op : BitVec 6) (mk : CRegId → CRegId → BitVec 6 → Instr) : Prop :=
  ∀ w : Word, w.extractLsb' 10 6 = op →
    decode w = mk (w.extractLsb' 8 2).toFin (w.extractLsb' 6 2).toFin (w.extractLsb' 0 6)

/-- Format RI: `w[15:12] = op`, `ra = w[11:8]`, `imm8 = w[7:0]`. -/
def EncodesRI (op : BitVec 4) (mk : RegId → BitVec 8 → Instr) : Prop :=
  ∀ w : Word, w.extractLsb' 12 4 = op → decode w = mk (w.extractLsb' 8 4).toFin (w.extractLsb' 0 8)

/-- Format B12: `w[15:12] = op`, `imm12 = w[11:0]`. -/
def EncodesB12 (op : BitVec 4) (mk : BitVec 12 → Instr) : Prop :=
  ∀ w : Word, w.extractLsb' 12 4 = op → decode w = mk (w.extractLsb' 0 12)

/-- Format B28: `w[15:12] = op`, `imm28 = w[31:16] : w[11:0]`. -/
def EncodesB28 (op : BitVec 4) (mk : BitVec 28 → Instr) : Prop :=
  ∀ (w : Word) (imm : BitVec 28), w.extractLsb' 12 4 = op →
    imm.toNat = (w.extractLsb' 16 16).toNat * 2 ^ 12 + (w.extractLsb' 0 12).toNat → decode w = mk imm

namespace Machine

/-! ### Frames: what is the same in two states -/

/-- The interrupt state, the run state and the halt record are unchanged. -/
structure SameControl (s t : State) : Prop where
  ie : t.ie = s.ie
  saved : t.saved = s.saved
  run : t.run = s.run
  halt : t.halt = s.halt

/-- The parameters and the host's settings, lines and coming actions are unchanged. -/
structure SameInputs (s t : State) : Prop where
  cfg : t.cfg = s.cfg
  readHook : t.readHook = s.readHook
  writeHook : t.writeHook = s.writeHook
  irq : t.irq = s.irq
  script : t.script = s.script
  loadWarning : t.loadWarning = s.loadWarning
  stopped : t.stopped = s.stopped

/-- No MMIO hook was called and no answer used up. -/
structure NoHookCall (s t : State) : Prop where
  mmioLog : t.mmioLog = s.mmioLog
  hookAnswers : t.hookAnswers = s.hookAnswers
  hookDraws : t.hookDraws = s.hookDraws

/-- Every byte of RAM reads as before. -/
def SameRam (s t : State) : Prop := ∀ a : Nat, t.ram.read a = s.ram.read a

/-- Every general register reads as before. -/
def SameRegs (s t : State) : Prop := ∀ r : RegId, t.reg r = s.reg r

/-- Everything but the registers, the t-bit, RAM, `pc` and `retired` is unchanged. -/
structure SameRest (s t : State) : Prop where
  control : SameControl s t
  inputs : SameInputs s t
  hooks : NoHookCall s t

/-- The instruction completed: `pc` is `next` and one more instruction is retired (40_dispatch.md R126). -/
structure Committed (s t : State) (next : Word) : Prop where
  pc : t.pc = next
  retired : t.retired = s.retired + 1

/-- The instruction wrote `v` to register `rd`, went on to `next`, and changed nothing else. -/
structure WroteReg (s t : State) (rd : RegId) (v next : Word) : Prop where
  value : t.reg rd = v
  otherRegs : ∀ r, r ≠ rd → t.reg r = s.reg r
  tbit : t.t = s.t
  ram : SameRam s t
  rest : SameRest s t
  commit : Committed s t next

/-- The instruction wrote `b` to the t-bit, went on to `next`, and changed nothing else. -/
structure WroteT (s t : State) (b : Bool) (next : Word) : Prop where
  value : t.t = b
  regs : SameRegs s t
  ram : SameRam s t
  rest : SameRest s t
  commit : Committed s t next

/-- The instruction went on to `next` and changed nothing else. -/
structure WentTo (s t : State) (next : Word) : Prop where
  regs : SameRegs s t
  tbit : t.t = s.t
  ram : SameRam s t
  rest : SameRest s t
  commit : Committed s t next

/-- The instruction stored the low `g.bytes` bytes of `v` at `a` upward, little-endian, went on to `next`, and changed
no other byte and nothing else; registers are left to the statement. -/
structure StoredBytes (s t : State) (a : Word) (g : Gran) (v : Word) (next : Word) : Prop where
  stored : ∀ i, i < g.bytes → t.ram.read (a.toNat + i) = v.extractLsb' (8 * i) 8
  otherBytes : ∀ b : Nat, (b < a.toNat ∨ a.toNat + g.bytes ≤ b) → t.ram.read b = s.ram.read b
  tbit : t.t = s.t
  rest : SameRest s t
  commit : Committed s t next

/-- The instruction set `ie` to `b`, went on to `next`, and changed nothing else. -/
structure WroteIe (s t : State) (b : Bool) (next : Word) : Prop where
  value : t.ie = b
  saved : t.saved = s.saved
  run : t.run = s.run
  halt : t.halt = s.halt
  regs : SameRegs s t
  tbit : t.t = s.t
  ram : SameRam s t
  inputs : SameInputs s t
  hooks : NoHookCall s t
  commit : Committed s t next

/-- The core entered vector `v` from `s`: `ie`, `saved` and `pc` as 60_exceptions.md R272 says, nothing else. -/
structure Vectored (s t : State) (v : Nat) : Prop where
  ie : t.ie = false
  saved : t.saved = s.pc
  pc : t.pc = s.cfg.vectorBase + BitVec.ofNat 32 v * s.cfg.vectorStride
  halt : t.halt = s.halt
  retired : t.retired = s.retired
  regs : SameRegs s t
  tbit : t.t = s.t
  ram : SameRam s t
  inputs : SameInputs s t
  hooks : NoHookCall s t

/-- The core halted in `s` with this record, and nothing else changed (60_exceptions.md R279). -/
structure HaltedWith (s t : State) (reason : HaltReason) (st : AccessStatus) : Prop where
  run : t.run = .halted
  halt : t.halt = some { reason := reason, status := st, pc := s.pc }
  ie : t.ie = s.ie
  saved : t.saved = s.saved
  pc : t.pc = s.pc
  retired : t.retired = s.retired
  regs : SameRegs s t
  tbit : t.t = s.t
  ram : SameRam s t
  inputs : SameInputs s t
  hooks : NoHookCall s t

/-- A fault was routed (60_exceptions.md R276): to vector 0 with `ie = 1`, to a halt with `ie = 0`. -/
def FaultRouted (reason : HaltReason) (st : AccessStatus) (s t : State) : Prop :=
  if s.ie = true then Vectored s t 0 ∧ t.run = s.run else HaltedWith s t reason st

/-- Only MMIO hooks were called and their answers used up: all other state is the same. -/
structure OnlyHooks (s t : State) : Prop where
  regs : SameRegs s t
  pc : t.pc = s.pc
  tbit : t.t = s.t
  retired : t.retired = s.retired
  ram : SameRam s t
  control : SameControl s t
  inputs : SameInputs s t

/-- Only RAM and MMIO hooks can differ: all other state is the same. -/
structure OnlyMemory (s t : State) : Prop where
  regs : SameRegs s t
  pc : t.pc = s.pc
  tbit : t.t = s.t
  retired : t.retired = s.retired
  control : SameControl s t
  inputs : SameInputs s t

/-- A load as its rule gives it: the MMU read at `ea`; on Ok the register `rd` takes a word that `value` relates to the
word read, on any other status a load fault (41_loads_stores.md R140, 40_dispatch.md R124). -/
def LoadRule (i : Instr) (s : State) (ea : Word) (g : Gran) (rd : RegId) (len : Word)
    (value : Word → Word → Prop) : Prop :=
  (∀ v s', s.memRead ea g = .ok v s' →
    OnlyHooks s s' ∧ ∃ t x, exec i s = .next t ∧ WroteReg s' t rd x (s.pc + len) ∧ value v x) ∧
  (∀ st s', s.memRead ea g = .failed st s' →
    OnlyHooks s s' ∧ ∃ t, exec i s = .next t ∧ FaultRouted .loadFault st s' t)

/-- A store as its rule gives it: the MMU write of `x[rs]` at `ea`; on Ok it commits, on any other status a store
fault with no register written (41_loads_stores.md R146, 40_dispatch.md R124). -/
def StoreRule (i : Instr) (s : State) (ea : Word) (g : Gran) (rs : RegId) (len : Word) : Prop :=
  (∀ u s', s.memWrite ea g (s.reg rs) = .ok u s' →
    OnlyMemory s s' ∧ ∃ t, exec i s = .next t ∧ WentTo s' t (s.pc + len)) ∧
  (∀ st s', s.memWrite ea g (s.reg rs) = .failed st s' →
    OnlyHooks s s' ∧ ∃ t, exec i s = .next t ∧ FaultRouted .storeFault st s' t)

/-- The halt reason of a faulting data access: a load fault for the loads, a store fault for the stores and `push`
(40_dispatch.md R124). -/
inductive DataKind
  | load
  | store
  deriving DecidableEq, Repr

/-- `LoadFault` or `StoreFault` (60_exceptions.md R280). -/
def DataKind.reason : DataKind → HaltReason
  | .load => .loadFault
  | .store => .storeFault

/-- The one data access of an instruction in a state, if it has one: kind, address and granularity
(20_memory.md R64). -/
def dataAccess (i : Instr) (s : State) : Option (DataKind × Word × Gran) :=
  match i with
  | .lb _ b off | .lbu _ b off => some (.load, s.reg b + off.signExtend 32, .byte)
  | .lh _ b off | .lhu _ b off => some (.load, s.reg b + off.signExtend 32, .half)
  | .lw _ b off => some (.load, s.reg b + off.signExtend 32, .word)
  | .lwc _ b off => some (.load, s.reg (b.castLE (by decide)) + BitVec.ofNat 32 (4 * off.toNat), .word)
  | .sb _ b off => some (.store, s.reg b + off.signExtend 32, .byte)
  | .sh _ b off => some (.store, s.reg b + off.signExtend 32, .half)
  | .sw _ b off => some (.store, s.reg b + off.signExtend 32, .word)
  | .swc _ b off => some (.store, s.reg (b.castLE (by decide)) + BitVec.ofNat 32 (4 * off.toNat), .word)
  | .push _ => some (.store, s.reg 14 - 4, .word)
  | _ => none

/-- The register whose value a store stores (41_loads_stores.md R146 to R153). -/
def storeSource : Instr → Option RegId
  | .sb rs _ _ | .sh rs _ _ | .sw rs _ _ | .push rs => some rs
  | .swc rs _ _ => some (rs.castLE (by decide))
  | _ => none

/-- The general register an instruction writes when it completes, if it writes one (10_state.md R22, R24). -/
def destReg : Instr → Option RegId
  | .mov rd _ | .add rd _ | .sub rd _ | .and rd _ | .or rd _ | .xor rd _ | .shl rd _ | .shr rd _ | .sar rd _ => some rd
  | .lb rd _ _ | .lbu rd _ _ | .lh rd _ _ | .lhu rd _ _ | .lw rd _ _ => some rd
  | .addi rd _ _ | .andi rd _ _ | .ori rd _ _ | .xori rd _ _ | .shli rd _ _ | .shri rd _ _ | .sari rd _ _ => some rd
  | .lil rd _ | .lih rd _ | .li rd _ | .liu rd _ => some rd
  | .lwc rd _ _ => some (rd.castLE (by decide))
  | .push _ => some 14
  | .jal _ | .call _ => some 15
  | _ => none

/-- The six tests (43_tests.md R185). -/
def isTest : Instr → Bool
  | .teq _ _ | .tne _ _ | .tlt _ _ | .tltu _ _ | .tge _ _ | .tgeu _ _ => true
  | _ => false

/-- The forms that read the t-bit (10_state.md R28). -/
def readsT : Instr → Bool
  | .jt _ | .jf _ | .bt _ | .bf _ => true
  | _ => false

/-- The stores, `push` among them (40_dispatch.md R124). -/
def isStore : Instr → Bool
  | .sb _ _ _ | .sh _ _ _ | .sw _ _ _ | .swc _ _ _ | .push _ => true
  | _ => false

/-- The instructions that may put any word into `pc`: the register-indirect jumps and `reti`
(44_control.md R210, 46_interrupt_instr.md R252). -/
def jumpsToAnyWord : Instr → Bool
  | .j _ | .jal _ | .jt _ | .jf _ | .reti => true
  | _ => false

/-- A result with a function applied to its next state. -/
def mapNext (f : State → State) : Result → Result
  | .next t => .next (f t)
  | .fault r => .fault r
  | .refused r => .refused r

/-! ### The invariant of every run -/

/-- What holds in every state that a run from reset reaches. -/
structure Inv (s : State) : Prop where
  /-- The parameters satisfy the constraints of 00_scope.md R8. -/
  params : s.cfg.wf = true
  /-- RAM is in canonical form. -/
  ramCanonical : s.ram.wf = true
  /-- RAM holds bytes only at addresses below RAM_SIZE (20_memory.md R50). -/
  ramBounded : s.ram.within s.cfg.ramSize = true
  /-- The halt record exists exactly in the halted state (10_state.md R31). -/
  haltRecord : s.run = .halted ↔ s.halt.isSome = true
  /-- A waiting core has interrupts enabled and `WAIT_MODE = Suspend` (60_exceptions.md R285, 10_state.md R30). -/
  waiting : s.run = .waiting → s.ie = true ∧ s.cfg.waitMode = .suspend

end Machine

end Sys2Proof
end

