-- ==== Sys2Proof/Certificates/Slice0/Obligations.lean ====
section
/-! DEFINITION. The statements for the provers. Each is about the machine, none about a program; the terms they use
(frames, encodings, the invariant) are in Sys2Proof/Safety.lean. -/

open Sys2Proof Sys2Proof.Machine

/-! ### Encoding and decoding (30_encoding.md) -/

/-- Decoding the encoding of a well-formed instruction gives it back, every operand at every value
(30_encoding.md R83 to R98). -/
def Obligations.EncodeThenDecodeIsIdentity : Prop :=
  ∀ i : Instr, i.wf = true → decode (encode i) = i

/-- A byte stream that begins with an instruction's bytes decodes to it and leaves exactly the bytes after it, whatever
they are (30_encoding.md R81, R91). `Unknown` has no bytes of its own. -/
def Obligations.BytesDecodeAndAreConsumed : Prop :=
  ∀ (i : Instr) (rest : List Byte), (∀ u, i ≠ .unknown u) → 4 ≤ i.len + rest.length →
    decodeBytes (encodeBytes i ++ rest) = .ok (i, rest)

/-- 30_encoding.md R91: the bits that no field uses do not take part in decoding, and the encoder writes them 0. -/
def Obligations.UnusedBitsAreIgnored : Prop :=
  (∀ w w' : Word, (∀ u, decode w ≠ .unknown u) → (decode w).len = 2 →
    w'.extractLsb' 0 16 = w.extractLsb' 0 16 → decode w' = decode w) ∧
  (∀ w w' : Word, w.extractLsb' 8 8 ∈ [0x10#8, 0x11#8, 0x12#8, 0x13#8, 0x14#8, 0x2F#8, 0x30#8] →
    w'.extractLsb' 4 28 = w.extractLsb' 4 28 → decode w' = decode w) ∧
  (∀ w w' : Word, w.extractLsb' 8 8 ∈ [0x15#8, 0x16#8, 0x17#8, 0x18#8] →
    w'.extractLsb' 8 24 = w.extractLsb' 8 24 → decode w' = decode w) ∧
  (∀ i : Instr, (∀ u, i ≠ .unknown u) → i.len = 2 → (encode i).extractLsb' 16 16 = 0) ∧
  (∀ (r : RegId) (imm : BitVec 16), ∀ i ∈ [Instr.j r, .jal r, .jt r, .jf r, .push r, .lil r imm, .lih r imm],
    (encode i).extractLsb' 0 4 = 0) ∧
  (∀ i ∈ [Instr.ei, .di, .reti, .wait], (encode i).extractLsb' 0 8 = 0)

/-- 30_encoding.md R98, 46_interrupt_instr.md R254: exactly the words with an unassigned top byte are `Unknown`, which
keeps the word, and executing it raises the illegal-instruction fault. -/
def Obligations.UnknownWordsRaiseIllegalInstruction : Prop :=
  (∀ w : Word, decode w = .unknown w ↔ isUnassignedTop (w.extractLsb' 8 8) = true) ∧
  (∀ w u : Word, decode w = .unknown u → u = w) ∧
  decode 0x00000000 = .unknown 0 ∧ reasonCode .illegalInstruction = 4 ∧
  (∀ (w : Word) (s : State), ∃ t, exec (.unknown w) s = .next t ∧ FaultRouted .illegalInstruction .ok s t)

/-- 30_encoding.md R100: the top byte alone tells the length. -/
def Obligations.LengthIsToldByTheTopByte : Prop :=
  ∀ w : Word, (decode w).len =
    if (0x20 ≤ (w.extractLsb' 8 8).toNat ∧ (w.extractLsb' 8 8).toNat ≤ 0x30) ∨
      (0xB0 ≤ (w.extractLsb' 8 8).toNat ∧ (w.extractLsb' 8 8).toNat ≤ 0xCF) then 4 else 2

/-- 30_encoding.md R93, R94: no 7-bit pattern matches, no word matches patterns of two widths, and so the order of
matching decides nothing. -/
def Obligations.DiscriminatorClassesAreDisjoint : Prop :=
  (∀ w : Word, decode7 w = none) ∧
  (∀ w : Word, (decode8 w).isSome = true → decode6 w = none ∧ decode4 w = none) ∧
  (∀ w : Word, (decode6 w).isSome = true → decode4 w = none) ∧
  (∀ (w : Word) (i : Instr), (∀ u, i ≠ .unknown u) →
    (decode w = i ↔ decode8 w = some i ∨ decode6 w = some i ∨ decode4 w = some i))

/-- Words that the spec writes out decode to the instructions it names (95_test_vectors.md 2). -/
def Obligations.SpecWordsDecodeAsWritten : Prop :=
  decode 0x00002012 = .lb 1 2 0 ∧ decode 0xFFFC2456 = .lw 5 6 0xFFFC ∧ decode 0x00022612 = .sh 1 2 2 ∧
  decode 0x14E0 = .push 14 ∧ decode 0x43FF = .lwc 3 3 63 ∧ decode 0x4582 = .swc 1 2 2 ∧ decode 0x0123 = .mov 2 3 ∧
  decode 0xABCD5005 = .li 0 5 ∧ decode 0xDEAD3010 = .lih 1 0xDEAD ∧ decode 0x0D12 = .tltu 1 2 ∧
  decode 0x101F = .j 1 ∧ decode 0xAFFC = .bf 0xFFC ∧ decode 0xFFFFBFFF = .jmp 0xFFFFFFF ∧
  decode 0x0001C000 = .call 0x1000 ∧ decode 0x0912 = .sar 1 2 ∧ decode 0xFFFF2E12 = .sari 1 2 0xFFFF ∧
  decode 0x1700 = .reti ∧ decode 0x0000FF00 = .unknown 0xFF00

/-! ### Moves, immediates and the ALU (42_moves_immediates.md, 45_alu.md) -/

/-- R170 to R174. -/
def Obligations.MovesAndImmediatesWriteTheirValue : Prop :=
  (EncodesRR 0x01 .mov ∧ ∀ (s : State) (rd rs : RegId), ∃ t, exec (.mov rd rs) s = .next t ∧
    WroteReg s t rd (s.reg rs) (s.pc + 2)) ∧
  (EncodesRI 0x5 .li ∧ ∀ (s : State) (rd : RegId) (imm : BitVec 8), ∃ t x, exec (.li rd imm) s = .next t ∧
    WroteReg s t rd x (s.pc + 2) ∧ x.toInt = imm.toInt) ∧
  (EncodesRI 0x6 .liu ∧ ∀ (s : State) (rd : RegId) (imm : BitVec 8), ∃ t x, exec (.liu rd imm) s = .next t ∧
    WroteReg s t rd x (s.pc + 2) ∧ x.toNat = imm.toNat) ∧
  (EncodesR16 0x2F .lil ∧ ∀ (s : State) (rd : RegId) (imm : BitVec 16), ∃ t x, exec (.lil rd imm) s = .next t ∧
    WroteReg s t rd x (s.pc + 4) ∧ x.toNat = imm.toNat) ∧
  (EncodesR16 0x30 .lih ∧ ∀ (s : State) (rd : RegId) (imm : BitVec 16), ∃ t x, exec (.lih rd imm) s = .next t ∧
    WroteReg s t rd x (s.pc + 4) ∧ x.extractLsb' 16 16 = imm ∧ x.extractLsb' 0 16 = (s.reg rd).extractLsb' 0 16)

/-- R222 to R226: the results as integers modulo 2^32, or bit by bit. -/
def Obligations.RegisterArithmeticWritesItsResult : Prop :=
  (EncodesRR 0x02 .add ∧ ∀ (s : State) (rd rs : RegId), ∃ t x, exec (.add rd rs) s = .next t ∧
    WroteReg s t rd x (s.pc + 2) ∧ x.toNat = ((s.reg rd).toNat + (s.reg rs).toNat) % 2 ^ 32) ∧
  (EncodesRR 0x03 .sub ∧ ∀ (s : State) (rd rs : RegId), ∃ t x, exec (.sub rd rs) s = .next t ∧
    WroteReg s t rd x (s.pc + 2) ∧ x.toNat = ((s.reg rd).toNat + 2 ^ 32 - (s.reg rs).toNat) % 2 ^ 32) ∧
  (EncodesRR 0x04 .and ∧ ∀ (s : State) (rd rs : RegId), ∃ t x, exec (.and rd rs) s = .next t ∧
    WroteReg s t rd x (s.pc + 2) ∧
    ∀ k < 32, x.getLsbD k = ((s.reg rd).getLsbD k && (s.reg rs).getLsbD k)) ∧
  (EncodesRR 0x05 .or ∧ ∀ (s : State) (rd rs : RegId), ∃ t x, exec (.or rd rs) s = .next t ∧
    WroteReg s t rd x (s.pc + 2) ∧
    ∀ k < 32, x.getLsbD k = ((s.reg rd).getLsbD k || (s.reg rs).getLsbD k)) ∧
  (EncodesRR 0x06 .xor ∧ ∀ (s : State) (rd rs : RegId), ∃ t x, exec (.xor rd rs) s = .next t ∧
    WroteReg s t rd x (s.pc + 2) ∧
    ∀ k < 32, x.getLsbD k = ((s.reg rd).getLsbD k ^^ (s.reg rs).getLsbD k))

/-- R227 to R229: shifts by the amount modulo 32 (R221, the spec's decision D14), as multiplication and floored
division. -/
def Obligations.RegisterShiftsTakeTheAmountModulo32 : Prop :=
  (EncodesRR 0x07 .shl ∧ ∀ (s : State) (rd rs : RegId), ∃ t x, exec (.shl rd rs) s = .next t ∧
    WroteReg s t rd x (s.pc + 2) ∧ x.toNat = (s.reg rd).toNat * 2 ^ ((s.reg rs).toNat % 32) % 2 ^ 32) ∧
  (EncodesRR 0x08 .shr ∧ ∀ (s : State) (rd rs : RegId), ∃ t x, exec (.shr rd rs) s = .next t ∧
    WroteReg s t rd x (s.pc + 2) ∧ x.toNat = (s.reg rd).toNat / 2 ^ ((s.reg rs).toNat % 32)) ∧
  (EncodesRR 0x09 .sar ∧ ∀ (s : State) (rd rs : RegId), ∃ t x, exec (.sar rd rs) s = .next t ∧
    WroteReg s t rd x (s.pc + 2) ∧ x.toInt = (s.reg rd).toInt / 2 ^ ((s.reg rs).toNat % 32))

/-- R230 to R233: a signed immediate for `addi`, zero-extended ones for the logical forms. -/
def Obligations.ImmediateArithmeticWritesItsResult : Prop :=
  (EncodesRR16 0x28 .addi ∧ ∀ (s : State) (rd rs : RegId) (imm : BitVec 16), ∃ t x,
    exec (.addi rd rs imm) s = .next t ∧ WroteReg s t rd x (s.pc + 4) ∧
    (x.toNat : Int) = ((s.reg rs).toNat + imm.toInt) % 2 ^ 32) ∧
  (EncodesRR16 0x29 .andi ∧ ∀ (s : State) (rd rs : RegId) (imm : BitVec 16), ∃ t x,
    exec (.andi rd rs imm) s = .next t ∧ WroteReg s t rd x (s.pc + 4) ∧
    ∀ k < 32, x.getLsbD k = ((s.reg rs).getLsbD k && imm.getLsbD k)) ∧
  (EncodesRR16 0x2A .ori ∧ ∀ (s : State) (rd rs : RegId) (imm : BitVec 16), ∃ t x,
    exec (.ori rd rs imm) s = .next t ∧ WroteReg s t rd x (s.pc + 4) ∧
    ∀ k < 32, x.getLsbD k = ((s.reg rs).getLsbD k || imm.getLsbD k)) ∧
  (EncodesRR16 0x2B .xori ∧ ∀ (s : State) (rd rs : RegId) (imm : BitVec 16), ∃ t x,
    exec (.xori rd rs imm) s = .next t ∧ WroteReg s t rd x (s.pc + 4) ∧
    ∀ k < 32, x.getLsbD k = ((s.reg rs).getLsbD k ^^ imm.getLsbD k))

/-- R234 to R236: shifts by the low five bits of the immediate (R221, the spec's decision D14). -/
def Obligations.ImmediateShiftsTakeTheAmountModulo32 : Prop :=
  (EncodesRR16 0x2C .shli ∧ ∀ (s : State) (rd rs : RegId) (imm : BitVec 16), ∃ t x,
    exec (.shli rd rs imm) s = .next t ∧ WroteReg s t rd x (s.pc + 4) ∧
    x.toNat = (s.reg rs).toNat * 2 ^ (imm.toNat % 32) % 2 ^ 32) ∧
  (EncodesRR16 0x2D .shri ∧ ∀ (s : State) (rd rs : RegId) (imm : BitVec 16), ∃ t x,
    exec (.shri rd rs imm) s = .next t ∧ WroteReg s t rd x (s.pc + 4) ∧
    x.toNat = (s.reg rs).toNat / 2 ^ (imm.toNat % 32)) ∧
  (EncodesRR16 0x2E .sari ∧ ∀ (s : State) (rd rs : RegId) (imm : BitVec 16), ∃ t x,
    exec (.sari rd rs imm) s = .next t ∧ WroteReg s t rd x (s.pc + 4) ∧
    x.toInt = (s.reg rs).toInt / 2 ^ (imm.toNat % 32))

/-! ### Tests (43_tests.md) -/

/-- R185 to R191: the six tests write the comparison of their operands to `t` and nothing else. -/
def Obligations.TestsWriteTheComparisonToT : Prop :=
  (EncodesRR 0x0A .teq ∧ ∀ (s : State) (ra rb : RegId), ∃ t b, exec (.teq ra rb) s = .next t ∧
    WroteT s t b (s.pc + 2) ∧ (b = true ↔ s.reg ra = s.reg rb)) ∧
  (EncodesRR 0x0B .tne ∧ ∀ (s : State) (ra rb : RegId), ∃ t b, exec (.tne ra rb) s = .next t ∧
    WroteT s t b (s.pc + 2) ∧ (b = true ↔ s.reg ra ≠ s.reg rb)) ∧
  (EncodesRR 0x0C .tlt ∧ ∀ (s : State) (ra rb : RegId), ∃ t b, exec (.tlt ra rb) s = .next t ∧
    WroteT s t b (s.pc + 2) ∧ (b = true ↔ (s.reg ra).toInt < (s.reg rb).toInt)) ∧
  (EncodesRR 0x0D .tltu ∧ ∀ (s : State) (ra rb : RegId), ∃ t b, exec (.tltu ra rb) s = .next t ∧
    WroteT s t b (s.pc + 2) ∧ (b = true ↔ (s.reg ra).toNat < (s.reg rb).toNat)) ∧
  (EncodesRR 0x0E .tge ∧ ∀ (s : State) (ra rb : RegId), ∃ t b, exec (.tge ra rb) s = .next t ∧
    WroteT s t b (s.pc + 2) ∧ (b = true ↔ (s.reg rb).toInt ≤ (s.reg ra).toInt)) ∧
  (EncodesRR 0x0F .tgeu ∧ ∀ (s : State) (ra rb : RegId), ∃ t b, exec (.tgeu ra rb) s = .next t ∧
    WroteT s t b (s.pc + 2) ∧ (b = true ↔ (s.reg rb).toNat ≤ (s.reg ra).toNat))

/-- 10_state.md R28: only the six tests write `t`, only `jt`, `jf`, `bt`, `bf` read it, and interrupt entry leaves it. -/
def Obligations.TBitIsWrittenByTestsAndReadByConditionals : Prop :=
  (∀ (i : Instr) (s t : State), isTest i = false → exec i s = .next t → t.t = s.t) ∧
  (∀ (i : Instr) (s : State) (b : Bool), readsT i = false →
    exec i { s with t := b } = mapNext (fun t => { t with t := if isTest i then t.t else b }) (exec i s)) ∧
  (∀ (s : State) (v : Nat), (s.takeInterrupt v).t = s.t ∧ (s.wakeUp v).t = s.t)

/-! ### Jumps, branches and calls (44_control.md) -/

/-- R201, R202: register-indirect jumps; `jal` jumps to the old value of its register and links in `x[15]`. -/
def Obligations.RegisterJumpsGoToTheRegister : Prop :=
  (EncodesR 0x10 .j ∧ ∀ (s : State) (rs : RegId), ∃ t, exec (.j rs) s = .next t ∧ WentTo s t (s.reg rs)) ∧
  (EncodesR 0x11 .jal ∧ ∀ (s : State) (rs : RegId), ∃ t, exec (.jal rs) s = .next t ∧
    WroteReg s t 15 (s.pc + 2) (s.reg rs))

/-- R203, R204: conditional register-indirect jumps. -/
def Obligations.ConditionalRegisterJumpsFollowT : Prop :=
  (EncodesR 0x12 .jt ∧ ∀ (s : State) (rs : RegId), ∃ t, exec (.jt rs) s = .next t ∧
    WentTo s t (if s.t = true then s.reg rs else s.pc + 2)) ∧
  (EncodesR 0x13 .jf ∧ ∀ (s : State) (rs : RegId), ∃ t, exec (.jf rs) s = .next t ∧
    WentTo s t (if s.t = false then s.reg rs else s.pc + 2))

/-- R205 to R207: a 12-bit signed halfword displacement from the branch's own address. -/
def Obligations.BranchesGoToTheDisplacedAddress : Prop :=
  (EncodesB12 0x8 .bra ∧ ∀ (s : State) (imm : BitVec 12), ∃ t, exec (.bra imm) s = .next t ∧
    WentTo s t (s.pc + BitVec.ofInt 32 (2 * imm.toInt))) ∧
  (EncodesB12 0x9 .bt ∧ ∀ (s : State) (imm : BitVec 12), ∃ t, exec (.bt imm) s = .next t ∧
    WentTo s t (if s.t = true then s.pc + BitVec.ofInt 32 (2 * imm.toInt) else s.pc + 2)) ∧
  (EncodesB12 0xA .bf ∧ ∀ (s : State) (imm : BitVec 12), ∃ t, exec (.bf imm) s = .next t ∧
    WentTo s t (if s.t = false then s.pc + BitVec.ofInt 32 (2 * imm.toInt) else s.pc + 2))

/-- R208, R209: a 28-bit signed halfword displacement; `call` links in `x[15]`. -/
def Obligations.LongJumpAndCallGoToTheDisplacedAddress : Prop :=
  (EncodesB28 0xB .jmp ∧ ∀ (s : State) (imm : BitVec 28), ∃ t, exec (.jmp imm) s = .next t ∧
    WentTo s t (s.pc + BitVec.ofInt 32 (2 * imm.toInt))) ∧
  (EncodesB28 0xC .call ∧ ∀ (s : State) (imm : BitVec 28), ∃ t, exec (.call imm) s = .next t ∧
    WroteReg s t 15 (s.pc + 4) (s.pc + BitVec.ofInt 32 (2 * imm.toInt)))

/-- R210, R200: with even vector addresses and an even `pc`, only `j`, `jal`, `jt`, `jf` and `reti` can make `pc`
odd. -/
def Obligations.OddPcComesOnlyFromRegisterJumpsAndReti : Prop :=
  ∀ (i : Instr) (s t : State), s.cfg.wf = true → s.pc.toNat % 2 = 0 → jumpsToAnyWord i = false →
    exec i s = .next t → t.pc.toNat % 2 = 0

/-! ### The MMU (20_memory.md) -/

/-- R55: no aligned access straddles two classes, and an aligned RAM word ends inside RAM. -/
def Obligations.NoAlignedAccessStraddlesClasses : Prop :=
  ∀ (c : Params) (a : Word) (g : Gran), c.wf = true → a.toNat % g.bytes = 0 →
    (∀ k, k < g.bytes → (a + BitVec.ofNat 32 k).toNat = a.toNat + k ∧
      classify c (a + BitVec.ofNat 32 k) = classify c a) ∧
    (classify c a = .ram → a.toNat + g.bytes ≤ c.ramSize)

/-- R57 (and R53, R54, R56): classification comes before alignment, alignment before any hook; a failed check changes
nothing at all. -/
def Obligations.ClassificationComesBeforeAlignment : Prop :=
  ∀ (s : State) (a : Word) (g : Gran) (v : Word),
    (s.cfg.ramSize ≤ a.toNat ∧ a.toNat < s.cfg.mmioBase.toNat →
      s.memRead a g = .failed .errorUnmapped s ∧ s.memWrite a g v = .failed .errorUnmapped s) ∧
    ((a.toNat < s.cfg.ramSize ∨ s.cfg.mmioBase.toNat ≤ a.toNat) ∧ a.toNat % g.bytes ≠ 0 →
      s.memRead a g = .failed .errorMisaligned s ∧ s.memWrite a g v = .failed .errorMisaligned s)

/-- R58: little-endian for data and fetch. After an aligned word write, the byte and half reads inside it see its bytes,
and so does a fetch. -/
def Obligations.NarrowReadsSeeTheBytesOfAWordWrite : Prop :=
  ∀ (s : State) (a v : Word), s.cfg.wf = true → a.toNat < s.cfg.ramSize → a.toNat % 4 = 0 →
    ∃ s', s.memWrite a .word v = .ok () s' ∧
      (∀ k, k < 4 → s'.memRead (a + BitVec.ofNat 32 k) .byte = .ok ((v.extractLsb' (8 * k) 8).setWidth 32) s') ∧
      (∀ k, k < 2 → s'.memRead (a + BitVec.ofNat 32 (2 * k)) .half = .ok ((v.extractLsb' (16 * k) 16).setWidth 32) s') ∧
      s'.memRead a .word = .ok v s' ∧ ({ s' with pc := a } : State).fetch = .ok v { s' with pc := a }

/-- The round trip of 95_test_vectors.md W6: a RAM write is read back at the same address and granularity, cut to its
width (R53, R54). -/
def Obligations.RamWriteThenReadReturnsTheValue : Prop :=
  ∀ (s : State) (a v : Word) (g : Gran), a.toNat < s.cfg.ramSize → a.toNat % g.bytes = 0 →
    ∃ s' x, s.memWrite a g v = .ok () s' ∧ s'.memRead a g = .ok x s' ∧ x.toNat = v.toNat % 2 ^ (8 * g.bytes)

/-- R59: an access that does not return Ok changes no RAM byte, and no read changes one. -/
def Obligations.FailedAccessesAndReadsChangeNoRam : Prop :=
  (∀ (s s' : State) (a v : Word) (g : Gran) (st : AccessStatus),
    s.memWrite a g v = .failed st s' → st ≠ .ok ∧ OnlyHooks s s' ∧ s'.ram = s.ram) ∧
  (∀ (s s' : State) (a : Word) (g : Gran) (st : AccessStatus),
    s.memRead a g = .failed st s' → st ≠ .ok ∧ OnlyHooks s s' ∧ s'.ram = s.ram) ∧
  (∀ (s s' : State) (a v : Word) (g : Gran), s.memRead a g = .ok v s' → OnlyHooks s s' ∧ s'.ram = s.ram)

/-- R61, R62: an MMIO access that passes the alignment check makes exactly one hook call, with the relative address and
the granularity, when the hook is configured; every other access makes none. -/
def Obligations.MmioAccessesMakeExactlyOneHookCall : Prop :=
  ∀ (s s' : State) (a v x : Word) (g : Gran) (st : AccessStatus),
    (s.memRead a g = .ok x s' ∨ s.memRead a g = .failed st s' →
      s'.mmioLog = if classify s.cfg a = .mmio ∧ a.toNat % g.bytes = 0 ∧ s.readHook = true
        then .read (a - s.cfg.mmioBase) g :: s.mmioLog else s.mmioLog) ∧
    (s.memWrite a g v = .ok () s' ∨ s.memWrite a g v = .failed st s' →
      ∃ y, y.toNat = v.toNat % 2 ^ (8 * g.bytes) ∧
      s'.mmioLog = if classify s.cfg a = .mmio ∧ a.toNat % g.bytes = 0 ∧ s.writeHook = true
        then .write (a - s.cfg.mmioBase) g y :: s.mmioLog else s.mmioLog)

/-! ### Loads, stores and push (41_loads_stores.md) -/

/-- R140 to R144, R152: the loads in terms of the MMU read. -/
def Obligations.LoadsFollowTheMmuRead : Prop :=
  (EncodesRR16 0x20 .lb ∧ ∀ (s : State) (rd b : RegId) (off : BitVec 16),
    LoadRule (.lb rd b off) s (s.reg b + off.signExtend 32) .byte rd 4
      (fun v x => x.toInt = (v.extractLsb' 0 8).toInt)) ∧
  (EncodesRR16 0x21 .lbu ∧ ∀ (s : State) (rd b : RegId) (off : BitVec 16),
    LoadRule (.lbu rd b off) s (s.reg b + off.signExtend 32) .byte rd 4 (fun v x => x.toNat = v.toNat % 2 ^ 8)) ∧
  (EncodesRR16 0x22 .lh ∧ ∀ (s : State) (rd b : RegId) (off : BitVec 16),
    LoadRule (.lh rd b off) s (s.reg b + off.signExtend 32) .half rd 4
      (fun v x => x.toInt = (v.extractLsb' 0 16).toInt)) ∧
  (EncodesRR16 0x23 .lhu ∧ ∀ (s : State) (rd b : RegId) (off : BitVec 16),
    LoadRule (.lhu rd b off) s (s.reg b + off.signExtend 32) .half rd 4 (fun v x => x.toNat = v.toNat % 2 ^ 16)) ∧
  (EncodesRR16 0x24 .lw ∧ ∀ (s : State) (rd b : RegId) (off : BitVec 16),
    LoadRule (.lw rd b off) s (s.reg b + off.signExtend 32) .word rd 4 (fun v x => x = v)) ∧
  (EncodesC 0b010000 .lwc ∧ ∀ (s : State) (rd b : CRegId) (off : BitVec 6),
    LoadRule (.lwc rd b off) s (s.reg (b.castLE (by decide)) + BitVec.ofNat 32 (4 * off.toNat)) .word
      (rd.castLE (by decide)) 2 (fun v x => x = v))

/-- R146 to R148, R153: the stores in terms of the MMU write. -/
def Obligations.StoresFollowTheMmuWrite : Prop :=
  (EncodesRR16 0x25 .sb ∧ ∀ (s : State) (rs b : RegId) (off : BitVec 16),
    StoreRule (.sb rs b off) s (s.reg b + off.signExtend 32) .byte rs 4) ∧
  (EncodesRR16 0x26 .sh ∧ ∀ (s : State) (rs b : RegId) (off : BitVec 16),
    StoreRule (.sh rs b off) s (s.reg b + off.signExtend 32) .half rs 4) ∧
  (EncodesRR16 0x27 .sw ∧ ∀ (s : State) (rs b : RegId) (off : BitVec 16),
    StoreRule (.sw rs b off) s (s.reg b + off.signExtend 32) .word rs 4) ∧
  (EncodesC 0b010001 .swc ∧ ∀ (s : State) (rs b : CRegId) (off : BitVec 6),
    StoreRule (.swc rs b off) s (s.reg (b.castLE (by decide)) + BitVec.ofNat 32 (4 * off.toNat)) .word
      (rs.castLE (by decide)) 2)

/-- R151: `push` in terms of the MMU write; `x[14]` changes only on Ok. -/
def Obligations.PushFollowsTheMmuWrite : Prop :=
  EncodesR 0x14 .push ∧ ∀ (s : State) (rs : RegId),
    (∀ u s', s.memWrite (s.reg 14 - 4) .word (s.reg rs) = .ok u s' →
      OnlyMemory s s' ∧ ∃ t, exec (.push rs) s = .next t ∧ WroteReg s' t 14 (s.reg 14 - 4) (s.pc + 2)) ∧
    (∀ st s', s.memWrite (s.reg 14 - 4) .word (s.reg rs) = .failed st s' →
      OnlyHooks s s' ∧ ∃ t, exec (.push rs) s = .next t ∧ FaultRouted .storeFault st s' t)

/-- The loads from RAM complete, and their value is made of the bytes at the address (R53, R140 to R144, R152). -/
def Obligations.LoadsFromRamWriteTheBytesAtTheAddress : Prop :=
  ∀ (s : State) (rd b : RegId) (off : BitVec 16) (crd cb : CRegId) (coff : BitVec 6),
    (∀ ea : Nat, ea = (s.reg b + off.signExtend 32).toNat → ea < s.cfg.ramSize →
      (∃ t x, exec (.lb rd b off) s = .next t ∧ WroteReg s t rd x (s.pc + 4) ∧
        x.toInt = (s.ram.read ea).toInt) ∧
      (∃ t x, exec (.lbu rd b off) s = .next t ∧ WroteReg s t rd x (s.pc + 4) ∧
        x.toNat = (s.ram.read ea).toNat) ∧
      (ea % 2 = 0 →
        (∃ t x, exec (.lh rd b off) s = .next t ∧ WroteReg s t rd x (s.pc + 4) ∧
          x.toInt = Int.bmod ((s.ram.read ea).toNat + 2 ^ 8 * (s.ram.read (ea + 1)).toNat) (2 ^ 16)) ∧
        (∃ t x, exec (.lhu rd b off) s = .next t ∧ WroteReg s t rd x (s.pc + 4) ∧
          x.toNat = (s.ram.read ea).toNat + 2 ^ 8 * (s.ram.read (ea + 1)).toNat)) ∧
      (ea % 4 = 0 →
        ∃ t x, exec (.lw rd b off) s = .next t ∧ WroteReg s t rd x (s.pc + 4) ∧
          x.toNat = (s.ram.read ea).toNat + 2 ^ 8 * (s.ram.read (ea + 1)).toNat
            + 2 ^ 16 * (s.ram.read (ea + 2)).toNat + 2 ^ 24 * (s.ram.read (ea + 3)).toNat)) ∧
    (∀ ea : Nat, ea = (s.reg (cb.castLE (by decide)) + BitVec.ofNat 32 (4 * coff.toNat)).toNat →
      ea < s.cfg.ramSize → ea % 4 = 0 →
      ∃ t x, exec (.lwc crd cb coff) s = .next t ∧ WroteReg s t (crd.castLE (by decide)) x (s.pc + 2) ∧
        x.toNat = (s.ram.read ea).toNat + 2 ^ 8 * (s.ram.read (ea + 1)).toNat
          + 2 ^ 16 * (s.ram.read (ea + 2)).toNat + 2 ^ 24 * (s.ram.read (ea + 3)).toNat)

/-- The stores to RAM complete and change exactly their bytes, at the address the meaning computes
(R54, R146 to R149, R153). -/
def Obligations.StoresToRamChangeExactlyTheirBytes : Prop :=
  ∀ (s : State) (rs b : RegId) (off : BitVec 16) (crs cb : CRegId) (coff : BitVec 6),
    (effAddr s b off = s.reg b + off.signExtend 32) ∧
    (effAddrC s cb coff = s.reg (cb.castLE (by decide)) + BitVec.ofNat 32 (4 * coff.toNat)) ∧
    ((effAddr s b off).toNat < s.cfg.ramSize →
      ∃ t, exec (.sb rs b off) s = .next t ∧ SameRegs s t ∧
        StoredBytes s t (effAddr s b off) .byte (s.reg rs) (s.pc + 4)) ∧
    ((effAddr s b off).toNat < s.cfg.ramSize → (effAddr s b off).toNat % 2 = 0 →
      ∃ t, exec (.sh rs b off) s = .next t ∧ SameRegs s t ∧
        StoredBytes s t (effAddr s b off) .half (s.reg rs) (s.pc + 4)) ∧
    ((effAddr s b off).toNat < s.cfg.ramSize → (effAddr s b off).toNat % 4 = 0 →
      ∃ t, exec (.sw rs b off) s = .next t ∧ SameRegs s t ∧
        StoredBytes s t (effAddr s b off) .word (s.reg rs) (s.pc + 4)) ∧
    ((effAddrC s cb coff).toNat < s.cfg.ramSize → (effAddrC s cb coff).toNat % 4 = 0 →
      ∃ t, exec (.swc crs cb coff) s = .next t ∧ SameRegs s t ∧
        StoredBytes s t (effAddrC s cb coff) .word (s.reg (crs.castLE (by decide))) (s.pc + 2))

/-- `push` to RAM completes: it stores the old `x[rs]` at `x[14] - 4` and moves `x[14]` there (R151). -/
def Obligations.PushToRamStoresBelowTheStackPointer : Prop :=
  ∀ (s : State) (rs : RegId), pushAddr s = s.reg 14 - 4 ∧
    ((pushAddr s).toNat < s.cfg.ramSize → (pushAddr s).toNat % 4 = 0 →
      ∃ t, exec (.push rs) s = .next t ∧ t.reg 14 = pushAddr s ∧ (∀ r, r ≠ 14 → t.reg r = s.reg r) ∧
        StoredBytes s t (pushAddr s) .word (s.reg rs) (s.pc + 2))

/-- R53, R54, R57, R124, R276: where a data access traps without calling a hook. The fault is routed, with the status
of the first failing check. -/
def Obligations.DataAccessFaultsAreRouted : Prop :=
  ∀ (i : Instr) (s : State) (k : DataKind) (ea : Word) (g : Gran), dataAccess i s = some (k, ea, g) →
    (s.cfg.ramSize ≤ ea.toNat ∧ ea.toNat < s.cfg.mmioBase.toNat →
      ∃ t, exec i s = .next t ∧ FaultRouted k.reason .errorUnmapped s t) ∧
    ((ea.toNat < s.cfg.ramSize ∨ s.cfg.mmioBase.toNat ≤ ea.toNat) ∧ ea.toNat % g.bytes ≠ 0 →
      ∃ t, exec i s = .next t ∧ FaultRouted k.reason .errorMisaligned s t) ∧
    (s.cfg.ramSize ≤ ea.toNat ∧ s.cfg.mmioBase.toNat ≤ ea.toNat ∧ ea.toNat % g.bytes = 0 ∧
        (if k = .load then s.readHook else s.writeHook) = false →
      ∃ t, exec i s = .next t ∧ FaultRouted k.reason .errorMmioUnmapped s t)

/-- R53, R62: a load whose read hook answers Ok completes with the hook's value cut to the width, extended as the load
does; exactly that one answer is used up. -/
def Obligations.MmioLoadsExtendTheHooksTruncatedValue : Prop :=
  ∀ (i : Instr) (s : State) (ea : Word) (g : Gran) (rd : RegId) (v : Word) (rest : List HookAnswer),
    dataAccess i s = some (.load, ea, g) → destReg i = some rd → classify s.cfg ea = .mmio →
    ea.toNat % g.bytes = 0 → s.readHook = true → s.hookAnswers = .returns ⟨.ok, v⟩ :: rest →
    ∃ t, exec i s = .next t ∧ t.pc = s.pc + BitVec.ofNat 32 i.len ∧ t.retired = s.retired + 1 ∧
      (∀ r, r ≠ rd → t.reg r = s.reg r) ∧ t.t = s.t ∧ SameRam s t ∧ SameControl s t ∧ SameInputs s t ∧
      t.mmioLog = .read (ea - s.cfg.mmioBase) g :: s.mmioLog ∧ t.hookAnswers = rest ∧ t.hookDraws = s.hookDraws ∧
      (∀ b off, i = .lb rd b off → (t.reg rd).toInt = (v.extractLsb' 0 8).toInt) ∧
      (∀ b off, i = .lbu rd b off → (t.reg rd).toNat = v.toNat % 2 ^ 8) ∧
      (∀ b off, i = .lh rd b off → (t.reg rd).toInt = (v.extractLsb' 0 16).toInt) ∧
      (∀ b off, i = .lhu rd b off → (t.reg rd).toNat = v.toNat % 2 ^ 16) ∧
      (g = .word → t.reg rd = v)

/-- R54, R62: a store whose write hook answers Ok completes; the hook gets the low bits of the value, and no RAM byte
changes. -/
def Obligations.MmioStoresPassTheLowBitsToTheHook : Prop :=
  ∀ (i : Instr) (s : State) (ea : Word) (g : Gran) (rs : RegId) (v : Word) (rest : List HookAnswer),
    dataAccess i s = some (.store, ea, g) → storeSource i = some rs → classify s.cfg ea = .mmio →
    ea.toNat % g.bytes = 0 → s.writeHook = true → s.hookAnswers = .returns ⟨.ok, v⟩ :: rest →
    ∃ t x, exec i s = .next t ∧ t.pc = s.pc + BitVec.ofNat 32 i.len ∧ t.retired = s.retired + 1 ∧
      x.toNat = (s.reg rs).toNat % 2 ^ (8 * g.bytes) ∧
      t.mmioLog = .write (ea - s.cfg.mmioBase) g x :: s.mmioLog ∧ t.hookAnswers = rest ∧ t.hookDraws = s.hookDraws ∧
      (∀ r, destReg i ≠ some r → t.reg r = s.reg r) ∧ (destReg i = some 14 → t.reg 14 = ea) ∧
      t.t = s.t ∧ SameRam s t ∧ SameControl s t ∧ SameInputs s t

/-- R62, R125: a data access whose hook answers any other status is a fault with that status; the call, its address,
granularity and (of a store) cut value, stays made. A hook that never returns leaves the core stuck
(70_reset_and_hazards.md R310; log 4). -/
def Obligations.FailingHooksFaultAndBlockingHooksStick : Prop :=
  ∀ (i : Instr) (s : State) (k : DataKind) (ea : Word) (g : Gran) (rest : List HookAnswer),
    dataAccess i s = some (k, ea, g) → classify s.cfg ea = .mmio → ea.toNat % g.bytes = 0 →
    (if k = .load then s.readHook else s.writeHook) = true →
    (∀ st v, st ≠ .ok → s.hookAnswers = .returns ⟨st, v⟩ :: rest →
      ∃ s' t, OnlyHooks s s' ∧ s'.hookAnswers = rest ∧ s'.hookDraws = s.hookDraws ∧
        (k = .load → s'.mmioLog = .read (ea - s.cfg.mmioBase) g :: s.mmioLog) ∧
        (k = .store → ∃ rs y, storeSource i = some rs ∧ y.toNat = (s.reg rs).toNat % 2 ^ (8 * g.bytes) ∧
          s'.mmioLog = .write (ea - s.cfg.mmioBase) g y :: s.mmioLog) ∧
        exec i s = .next t ∧ FaultRouted k.reason st s' t) ∧
    (s.hookAnswers = .blocks :: rest → exec i s = .fault .hookBlocked)

/-! ### Interrupt instructions (46_interrupt_instr.md) -/

/-- R250, R251, R252: `ei`, `di` and `reti`. -/
def Obligations.EiDiRetiSetTheInterruptState : Prop :=
  (EncodesOp 0x15 .ei ∧ ∀ s : State, ∃ t, exec .ei s = .next t ∧ WroteIe s t true (s.pc + 2)) ∧
  (EncodesOp 0x16 .di ∧ ∀ s : State, ∃ t, exec .di s = .next t ∧ WroteIe s t false (s.pc + 2)) ∧
  (EncodesOp 0x17 .reti ∧ ∀ s : State, ∃ t, exec .reti s = .next t ∧ WroteIe s t true s.saved)

/-- R253 (with R255, R256): `wait` suspends with interrupts enabled and `WAIT_MODE = Suspend`, and halts otherwise. -/
def Obligations.WaitSuspendsOrHalts : Prop :=
  EncodesOp 0x18 .wait ∧ reasonCode .waitWhileDisabled = 5 ∧ reasonCode .waitUnimplemented = 6 ∧
  ∀ s : State,
    (s.ie = true → s.cfg.waitMode = .suspend →
      ∃ t, exec .wait s = .next t ∧ t.run = .waiting ∧ Committed s t (s.pc + 2) ∧ SameRegs s t ∧ t.t = s.t ∧
        t.ie = s.ie ∧ t.saved = s.saved ∧ t.halt = s.halt ∧ SameRam s t ∧ SameInputs s t ∧ NoHookCall s t) ∧
    (s.ie = true → s.cfg.waitMode = .fatal →
      ∃ t, exec .wait s = .next t ∧ HaltedWith s t .waitUnimplemented .ok) ∧
    (s.ie = false → ∃ t, exec .wait s = .next t ∧ HaltedWith s t .waitWhileDisabled .ok)

/-! ### Faults and interrupts (60_exceptions.md) -/

/-- R272, R273: `fire` enters its vector with interrupts enabled and has no effect otherwise. R276, R280: every
kind of fault is routed to vector 0, or halts with its reason. -/
def Obligations.FaultsAreRoutedToVectorZeroOrHalt : Prop :=
  ∀ (s : State) (st : AccessStatus),
    (∀ v : Nat, (s.ie = true → ∃ t, s.fire v = some t ∧ Vectored s t v ∧ t.run = s.run) ∧
      (s.ie = false → s.fire v = none)) ∧
    FaultRouted .fetchFault st s (s.routeFault .fetch st) ∧ FaultRouted .loadFault st s (s.routeFault .load st) ∧
    FaultRouted .storeFault st s (s.routeFault .store st) ∧
    FaultRouted .illegalInstruction st s (s.routeFault .illegal st) ∧
    reasonCode .fetchFault = 1 ∧ reasonCode .loadFault = 2 ∧ reasonCode .storeFault = 3 ∧
    reasonCode .illegalInstruction = 4 ∧ reasonCode .waitWhileDisabled = 5 ∧ reasonCode .waitUnimplemented = 6

/-- R277, R286, 40_dispatch.md R125, R126: a step of a running core retires one instruction, or it leaves the program's
state alone and only halts or enters a vector: the lowest raised line's (R284), or vector 0 when no line is raised. -/
def Obligations.RunningStepsCommitOrArePrecise : Prop :=
  ∀ s t : State, s.script = [] → s.run = .running → step s = .next t →
    t.retired = s.retired + 1 ∨
    (t.retired = s.retired ∧ SameRegs s t ∧ t.t = s.t ∧ SameRam s t ∧
      ((t.run = .halted ∧ t.pc = s.pc ∧ t.ie = s.ie ∧ t.saved = s.saved) ∨
       (s.ie = true ∧ t.ie = false ∧ t.run = .running ∧ t.saved = s.pc ∧
        ∃ v, t.pc = s.cfg.vectorBase + BitVec.ofNat 32 v * s.cfg.vectorStride ∧
          ((v = 0 ∧ ∀ u, 1 ≤ u → u < s.cfg.numVectors → u ∉ s.irq) ∨
           (1 ≤ v ∧ v < s.cfg.numVectors ∧ v ∈ s.irq ∧ ∀ u, 1 ≤ u → u < v → u ∉ s.irq)))))

/-- R276, R277, 46_interrupt_instr.md R252: after a vectored fault, `reti` goes back to the faulting instruction with the
program's state as it was. -/
def Obligations.RetiAfterFaultReturnsToTheFaultingInstruction : Prop :=
  ∀ (i : Instr) (s t : State), s.run = .running → exec i s = .next t → t.retired = s.retired → t.run = .running →
    ∃ u, exec .reti t = .next u ∧ u.pc = s.pc ∧ u.ie = true ∧ SameRegs s u ∧ u.t = s.t ∧ SameRam s u

/-- R283, R284: with interrupts enabled a running core takes the lowest raised line before it fetches. -/
def Obligations.LowestRaisedLineIsTakenBeforeFetch : Prop :=
  ∀ (s : State) (v : Nat), s.script = [] → s.stopped = false → s.run = .running → s.ie = true →
    1 ≤ v → v < s.cfg.numVectors → v ∈ s.irq → (∀ u, 1 ≤ u → u < v → u ∉ s.irq) →
    ∃ t, step s = .next t ∧ Vectored s t v ∧ t.run = .running

/-- R282: with `ie = 0` the lines have no effect on what a running core does, and none is remembered: the step is the same
but for the lines themselves. -/
def Obligations.MaskedLinesHaveNoEffect : Prop :=
  ∀ (s : State) (lines : List Nat), s.script = [] → s.run = .running → s.ie = false →
    step { s with irq := lines } = mapNext (fun t => { t with irq := lines }) (step s)

/-- R285: a waiting core wakes into the lowest raised line's vector, and has no step while none is raised. That "has no
step" is the stop `coreWaiting` is the model's choice (log 9). -/
def Obligations.WaitingCoreWakesOnlyOnARaisedLine : Prop :=
  ∀ s : State, s.script = [] → s.stopped = false → s.run = .waiting → s.ie = true →
    (∀ v, 1 ≤ v → v < s.cfg.numVectors → v ∈ s.irq → (∀ u, 1 ≤ u → u < v → u ∉ s.irq) →
      ∃ t, step s = .next t ∧ t.run = .running ∧ Vectored s t v) ∧
    ((∀ v, 1 ≤ v → v < s.cfg.numVectors → v ∉ s.irq) → step s = .fault .coreWaiting)

/-- R279, 40_dispatch.md R120, 10_state.md R30: a halted core has no step; only the host's reset leaves `Halted`.
That "has no step" is the stop `coreHalted`, and that the host's actions are a script, are the model's choices (log 8,
log 7). -/
def Obligations.OnlyResetLeavesTheHaltedState : Prop :=
  (∀ s : State, s.run = .halted → s.script = [] → s.stopped = false → step s = .fault .coreHalted) ∧
  (∀ s t : State, s.run = .halted → step s = .next t → t.run ≠ .halted →
    ∃ image rest, s.script = .reset image :: rest ∧ t.run = .running)

/-- 60_exceptions.md R271, R279, R280, 10_state.md R30: the run state changes in execution only by `wait` or by a fatal
fault: an illegal instruction or a failed data access with `ie = 0`, with the reason and status of that cause. -/
def Obligations.RunStateChangesOnlyByWaitAndFatalFaults : Prop :=
  ∀ (i : Instr) (s t : State), s.run = .running → exec i s = .next t →
    (t.run = .running ∧ t.halt = s.halt) ∨
    (i = .wait ∧ s.ie = true ∧ s.cfg.waitMode = .suspend ∧ t.run = .waiting ∧ t.ie = true ∧ t.pc = s.pc + 2) ∨
    (t.run = .halted ∧ t.pc = s.pc ∧ t.ie = s.ie ∧ ∃ h, t.halt = some h ∧ h.pc = s.pc ∧
      ((s.ie = true ∧ i = .wait ∧ s.cfg.waitMode = .fatal ∧ h.reason = .waitUnimplemented ∧ h.status = .ok) ∨
       (s.ie = false ∧ i = .wait ∧ h.reason = .waitWhileDisabled ∧ h.status = .ok) ∨
       (s.ie = false ∧ (∃ w, i = .unknown w) ∧ h.reason = .illegalInstruction ∧ h.status = .ok) ∨
       (s.ie = false ∧ ∃ k ea g, dataAccess i s = some (k, ea, g) ∧ h.reason = k.reason ∧ h.status ≠ .ok)))

/-! ### What every instruction leaves alone (10_state.md, 20_memory.md) -/

/-- R22, R24: an instruction changes at most its one destination register. -/
def Obligations.OnlyTheDestinationRegisterChanges : Prop :=
  ∀ (i : Instr) (s t : State) (r : RegId), exec i s = .next t → destReg i ≠ some r → t.reg r = s.reg r

/-- R64, R149: only the stores change RAM, and only at the bytes of their one data access. -/
def Obligations.OnlyStoresChangeRamAndOnlyTheirBytes : Prop :=
  ∀ (i : Instr) (s t : State), exec i s = .next t →
    (isStore i = false → SameRam s t) ∧
    (∀ k ea g, dataAccess i s = some (k, ea, g) →
      ∀ a : Nat, a < ea.toNat ∨ ea.toNat + g.bytes ≤ a → t.ram.read a = s.ram.read a)

/-! ### The step (40_dispatch.md, 30_encoding.md) -/

/-- R80, R81, R127: when no interrupt is taken, the step of the machine is the execution of the instruction that the
fetched word decodes to, wherever it was fetched from (70_reset_and_hazards.md R308, R309), in the state after the fetch.
When the four bytes at an even `pc` in RAM decode to `i`, it is the execution of `i` in the very same state. -/
def Obligations.StepExecutesTheDecodedInstruction : Prop :=
  ∀ s : State, s.script = [] → s.stopped = false → s.run = .running →
    (s.ie = true → ∀ v, 1 ≤ v → v < s.cfg.numVectors → v ∉ s.irq) →
    (∀ w s', s.fetch = .ok w s' →
      OnlyHooks s s' ∧ step s = exec (decode w) s' ∧ step { s with script := [.letCoreStep] } = exec (decode w) s') ∧
    (∀ i : Instr, s.pc.toNat % 2 = 0 → s.pc.toNat + 3 < s.cfg.ramSize → s.pc.toNat + 3 < 2 ^ 32 →
      decode (wordOfBytes (s.ram.read s.pc.toNat) (s.ram.read (s.pc.toNat + 1)) (s.ram.read (s.pc.toNat + 2))
        (s.ram.read (s.pc.toNat + 3))) = i →
      step s = exec i s ∧ step { s with script := [.letCoreStep] } = exec i s)

/-- 10_state.md R27, 44_control.md R210, 30_encoding.md R80: a fetch at an odd or unmapped `pc` is a fetch fault. -/
def Obligations.OddOrUnmappedPcIsAFetchFault : Prop :=
  ∀ s : State, s.script = [] → s.stopped = false → s.run = .running →
    (s.ie = true → ∀ v, 1 ≤ v → v < s.cfg.numVectors → v ∉ s.irq) →
    (s.cfg.ramSize ≤ s.pc.toNat ∧ s.pc.toNat < s.cfg.mmioBase.toNat →
      ∃ t, step s = .next t ∧ FaultRouted .fetchFault .errorUnmapped s t) ∧
    ((s.pc.toNat < s.cfg.ramSize ∨ s.cfg.mmioBase.toNat ≤ s.pc.toNat) ∧ s.pc.toNat % 2 = 1 →
      ∃ t, step s = .next t ∧ FaultRouted .fetchFault .errorMisaligned s t)

/-- 70_reset_and_hazards.md R308: every fetch reads 4 bytes, so in the last half of RAM it reaches past RAM: to an
unmapped address, or to the MMIO read hook at relative address 0. -/
def Obligations.FetchInTheLastHalfOfRamReachesPastRam : Prop :=
  ∀ s : State, s.cfg.wf = true → s.pc.toNat = s.cfg.ramSize - 2 →
    (s.cfg.ramSize < s.cfg.mmioBase.toNat → s.fetch = .failed .errorUnmapped s) ∧
    (s.cfg.ramSize = s.cfg.mmioBase.toNat → s.readHook = false → s.fetch = .failed .errorMmioUnmapped s) ∧
    (∀ st v rest, st ≠ .ok → s.cfg.ramSize = s.cfg.mmioBase.toNat → s.readHook = true →
      s.hookAnswers = .returns ⟨st, v⟩ :: rest →
      ∃ s', s.fetch = .failed st s' ∧ s'.mmioLog = .read 0 .half :: s.mmioLog ∧ s'.hookAnswers = rest) ∧
    (∀ v rest, s.cfg.ramSize = s.cfg.mmioBase.toNat → s.readHook = true →
      s.hookAnswers = .returns ⟨.ok, v⟩ :: rest →
      ∃ w s', s.fetch = .ok w s' ∧ s'.mmioLog = .read 0 .half :: s.mmioLog ∧ s'.hookAnswers = rest ∧
        w.extractLsb' 16 16 = v.extractLsb' 0 16)

/-- 30_encoding.md R80, 70_reset_and_hazards.md R309: a fetch from MMIO calls the read hook for the low half first, and
for the high half only when the low half answered Ok; it fails with the first status that is not Ok, without a hook with
ErrorMmioUnmapped, and a call that never returns blocks it (R310; log 4). -/
def Obligations.MmioFetchReadsTheLowHalfFirst : Prop :=
  ∀ s : State, classify s.cfg s.pc = .mmio → classify s.cfg (s.pc + 2) = .mmio → s.pc.toNat % 2 = 0 →
    (s.readHook = false → s.fetch = .failed .errorMmioUnmapped s) ∧
    (∀ st v rest, s.readHook = true → st ≠ .ok → s.hookAnswers = .returns ⟨st, v⟩ :: rest →
      ∃ s', s.fetch = .failed st s' ∧ s'.mmioLog = .read (s.pc - s.cfg.mmioBase) .half :: s.mmioLog ∧
        s'.hookAnswers = rest) ∧
    (∀ lo st v rest, s.readHook = true → st ≠ .ok →
      s.hookAnswers = .returns ⟨.ok, lo⟩ :: .returns ⟨st, v⟩ :: rest →
      ∃ s', s.fetch = .failed st s' ∧ s'.hookAnswers = rest ∧
        s'.mmioLog = .read (s.pc + 2 - s.cfg.mmioBase) .half :: .read (s.pc - s.cfg.mmioBase) .half :: s.mmioLog) ∧
    (∀ lo rest, s.readHook = true →
      s.hookAnswers = .blocks :: rest ∨ s.hookAnswers = .returns ⟨.ok, lo⟩ :: .blocks :: rest → s.fetch = .blocked) ∧
    (∀ lo hi rest, s.readHook = true → s.hookAnswers = .returns ⟨.ok, lo⟩ :: .returns ⟨.ok, hi⟩ :: rest →
      ∃ w s', s.fetch = .ok w s' ∧ w.extractLsb' 0 16 = lo.extractLsb' 0 16 ∧
        w.extractLsb' 16 16 = hi.extractLsb' 0 16 ∧ s'.hookAnswers = rest ∧
        s'.mmioLog = .read (s.pc + 2 - s.cfg.mmioBase) .half :: .read (s.pc - s.cfg.mmioBase) .half :: s.mmioLog)

/-- 20_memory.md R69, 70_reset_and_hazards.md R307: a word stored where the next instruction lies is what the next fetch
reads. -/
def Obligations.StoreIsSeenByTheNextFetch : Prop :=
  ∀ (s : State) (rs b : RegId) (off : BitVec 16), s.cfg.wf = true → effAddr s b off = s.pc + 4 →
    (effAddr s b off).toNat < s.cfg.ramSize → (effAddr s b off).toNat % 4 = 0 →
    ∃ t, exec (.sw rs b off) s = .next t ∧ t.fetch = .ok (s.reg rs) t

/-! ### Reset and the host (70_reset_and_hazards.md, 10_state.md R35) -/

/-- 10_state.md R35: the value of every state element after a reset with an image, from any state (values by the spec's
decisions D23 to D25; log 10, log 11). -/
def Obligations.ResetLeavesTheStatedValues : Prop :=
  (∀ (s : State) (image : List Byte),
    (∀ r, (s.resetWith image).reg r = 0) ∧ (s.resetWith image).pc = 0 ∧ (s.resetWith image).t = false ∧
    (s.resetWith image).ie = false ∧ (s.resetWith image).saved = 0 ∧ (s.resetWith image).run = .running ∧
    (s.resetWith image).halt = none ∧ (s.resetWith image).retired = 0 ∧
    (∀ a : Nat, a < s.cfg.ramSize → (s.resetWith image).ram.read a = image[a]?.getD 0)) ∧
  (∀ r, State.reset.reg r = 0) ∧ State.reset.resetWith [] = State.reset

/-- R300, R303: the host's reset is a step in every run state. It leaves every element of core state at its reset value
(10_state.md R35; log 10, log 11) and truncates the image to RAM_SIZE bytes; keeping the parameters and the host's settings
(log 20, log 26) and the warning flag (log 19) are the model's choices. -/
def Obligations.HostResetWorksInEveryRunState : Prop :=
  ∀ (s : State) (image : List Byte) (rest : List HostAction), s.script = .reset image :: rest →
    ∃ t, step s = .next t ∧ (∀ r, t.reg r = 0) ∧ t.pc = 0 ∧ t.t = false ∧ t.ie = false ∧ t.saved = 0 ∧
      t.run = .running ∧ t.halt = none ∧ t.retired = 0 ∧ t.script = rest ∧ t.stopped = s.stopped ∧
      (∀ a : Nat, t.ram.read a = (image.take s.cfg.ramSize)[a]?.getD 0) ∧
      t.cfg = s.cfg ∧ t.readHook = s.readHook ∧ t.writeHook = s.writeHook ∧ t.irq = s.irq ∧
      NoHookCall s t ∧ (t.loadWarning = true ↔ s.cfg.ramSize < image.length)

/-- 40_dispatch.md R129, R131, 60_exceptions.md R281, 70_reset_and_hazards.md R304: stop, resume, keepalive, line changes
and hook configuration change no core state. A keepalive hook that never returns leaves the machine stuck
(70_reset_and_hazards.md R310; that "stuck" is the stop `keepaliveBlocked` is log 4). The order of host actions is the
model's `script` (log 7). -/
def Obligations.OtherHostActionsChangeNoCoreState : Prop :=
  ∀ (s : State) (a : HostAction) (rest : List HostAction), s.script = a :: rest → a ≠ .letCoreStep →
    (∀ image, a ≠ .reset image) →
    (a = .keepalive false → step s = .fault .keepaliveBlocked) ∧
    (a ≠ .keepalive false → ∃ t, step s = .next t ∧ t.script = rest ∧ t.regs = s.regs ∧ t.pc = s.pc ∧ t.t = s.t ∧ SameControl s t ∧
      t.retired = s.retired ∧ t.ram = s.ram ∧ t.cfg = s.cfg ∧ NoHookCall s t ∧ t.loadWarning = s.loadWarning ∧
      ((∀ v b, a ≠ .setLine v b) → t.irq = s.irq) ∧
      (∀ v b, a = .setLine v b → (v ∈ t.irq ↔ b = true) ∧ ∀ u, u ≠ v → (u ∈ t.irq ↔ u ∈ s.irq)) ∧
      ((∀ r w, a ≠ .configureHooks r w) → t.readHook = s.readHook ∧ t.writeHook = s.writeHook) ∧
      (∀ r w, a = .configureHooks r w → t.readHook = r ∧ t.writeHook = w) ∧
      t.stopped = if a = .stop then true else if a = .resume then false else s.stopped)

/-! ### Invariants -/

/-- The invariant holds at reset (10_state.md R35, 00_scope.md R8). -/
def Obligations.ResetSatisfiesTheInvariant : Prop := Inv State.reset

/-- Every step of the machine, the core's and the host's, keeps the invariant: legal parameters, RAM in canonical form
inside [0, RAM_SIZE), a halt record exactly when halted, a waiting core with interrupts enabled. -/
def Obligations.EveryStepKeepsTheInvariant : Prop :=
  ∀ s t : State, Inv s → step s = .next t → Inv t

/-- No step changes the parameters, which R8 gives to the implementation, and no core step the host's inputs and settings,
which are no core state (10_state.md R34). These are the model's choices and not the words of R8 and R34: the parameters are
fixed data (log 1); a device changes a line between core steps only and never inside the one that reaches it (log 6), as the
script says (log 7); the warning flag (log 19) and the stop (log 26) are the host's; a reset keeps the settings (log 20). -/
def Obligations.StepsNeverChangeParametersOrSettings : Prop :=
  (∀ s t : State, step s = .next t → t.cfg = s.cfg) ∧
  (∀ s t : State, coreStep s = .next t → SameInputs s t)

/-! ### Fetches that fail, and stopped runs (30_encoding.md R80, 40_dispatch.md R129) -/

/-- 30_encoding.md R80, 40_dispatch.md R125, R127: whatever half of a fetch fails, and for whatever reason, the step
routes a fetch fault with its status, and only the hook calls made stay. A fetch whose hook never returns leaves the core
stuck (70_reset_and_hazards.md R310; that "stuck" is the stop `hookBlocked` is log 4). -/
def Obligations.FailedFetchesAreRoutedAndBlockedFetchesStick : Prop :=
  ∀ s : State, s.script = [] → s.stopped = false → s.run = .running →
    (s.ie = true → ∀ v, 1 ≤ v → v < s.cfg.numVectors → v ∉ s.irq) →
    (∀ st s', s.fetch = .failed st s' →
      st ≠ .ok ∧ OnlyHooks s s' ∧ ∃ t, step s = .next t ∧ FaultRouted .fetchFault st s' t) ∧
    (s.fetch = .blocked → step s = .fault .hookBlocked)

/-- 40_dispatch.md R129, 00_scope.md R10: a stopped run makes no core step; a stop and a later resume leave all core state
as it was, so that the run continues with the next step; only these two actions stop and resume. That a stop is a flag, and
that "no step" is the stop `runStopped`, are the model's choices (log 26); the order of host actions is log 7. -/
def Obligations.StoppedRunMakesNoCoreStepUntilResume : Prop :=
  (∀ s : State, s.stopped = true → (s.script = [] ∨ ∃ rest, s.script = .letCoreStep :: rest) →
    step s = .fault .runStopped) ∧
  (∀ (s : State) (rest : List HostAction), s.script = .stop :: .resume :: rest →
    ∃ t u, step s = .next t ∧ t.stopped = true ∧ step t = .next u ∧ u = { s with script := rest, stopped := false }) ∧
  (∀ s t : State, step s = .next t → t.stopped ≠ s.stopped →
    ∃ rest, (s.script = .stop :: rest ∧ t.stopped = true) ∨ (s.script = .resume :: rest ∧ t.stopped = false))
end

