-- ==== Sys2Proof/Laws/PerInstr.lean ====
section
/-! SUPPORT. Statements about every instruction as syntax, one lemma per constructor. -/

namespace Sys2Proof.Laws

/-- A row of spec/opcode_table.json: the word's bits under `mask` are `value`. -/
structure OpRow where
  mask : Word
  value : Word
  deriving DecidableEq, Repr

/-- The table's row of an instruction (its "mask" and "match"). -/
def opRow : Instr → OpRow
  | .mov _ _ => ⟨0x0000FF00, 0x00000100⟩
  | .add _ _ => ⟨0x0000FF00, 0x00000200⟩
  | .sub _ _ => ⟨0x0000FF00, 0x00000300⟩
  | .and _ _ => ⟨0x0000FF00, 0x00000400⟩
  | .or _ _ => ⟨0x0000FF00, 0x00000500⟩
  | .xor _ _ => ⟨0x0000FF00, 0x00000600⟩
  | .shl _ _ => ⟨0x0000FF00, 0x00000700⟩
  | .shr _ _ => ⟨0x0000FF00, 0x00000800⟩
  | .sar _ _ => ⟨0x0000FF00, 0x00000900⟩
  | .teq _ _ => ⟨0x0000FF00, 0x00000A00⟩
  | .tne _ _ => ⟨0x0000FF00, 0x00000B00⟩
  | .tlt _ _ => ⟨0x0000FF00, 0x00000C00⟩
  | .tltu _ _ => ⟨0x0000FF00, 0x00000D00⟩
  | .tge _ _ => ⟨0x0000FF00, 0x00000E00⟩
  | .tgeu _ _ => ⟨0x0000FF00, 0x00000F00⟩
  | .j _ => ⟨0x0000FF00, 0x00001000⟩
  | .jal _ => ⟨0x0000FF00, 0x00001100⟩
  | .jt _ => ⟨0x0000FF00, 0x00001200⟩
  | .jf _ => ⟨0x0000FF00, 0x00001300⟩
  | .push _ => ⟨0x0000FF00, 0x00001400⟩
  | .ei => ⟨0x0000FF00, 0x00001500⟩
  | .di => ⟨0x0000FF00, 0x00001600⟩
  | .reti => ⟨0x0000FF00, 0x00001700⟩
  | .wait => ⟨0x0000FF00, 0x00001800⟩
  | .lb _ _ _ => ⟨0x0000FF00, 0x00002000⟩
  | .lbu _ _ _ => ⟨0x0000FF00, 0x00002100⟩
  | .lh _ _ _ => ⟨0x0000FF00, 0x00002200⟩
  | .lhu _ _ _ => ⟨0x0000FF00, 0x00002300⟩
  | .lw _ _ _ => ⟨0x0000FF00, 0x00002400⟩
  | .sb _ _ _ => ⟨0x0000FF00, 0x00002500⟩
  | .sh _ _ _ => ⟨0x0000FF00, 0x00002600⟩
  | .sw _ _ _ => ⟨0x0000FF00, 0x00002700⟩
  | .addi _ _ _ => ⟨0x0000FF00, 0x00002800⟩
  | .andi _ _ _ => ⟨0x0000FF00, 0x00002900⟩
  | .ori _ _ _ => ⟨0x0000FF00, 0x00002A00⟩
  | .xori _ _ _ => ⟨0x0000FF00, 0x00002B00⟩
  | .shli _ _ _ => ⟨0x0000FF00, 0x00002C00⟩
  | .shri _ _ _ => ⟨0x0000FF00, 0x00002D00⟩
  | .sari _ _ _ => ⟨0x0000FF00, 0x00002E00⟩
  | .lil _ _ => ⟨0x0000FF00, 0x00002F00⟩
  | .lih _ _ => ⟨0x0000FF00, 0x00003000⟩
  | .lwc _ _ _ => ⟨0x0000FC00, 0x00004000⟩
  | .swc _ _ _ => ⟨0x0000FC00, 0x00004400⟩
  | .li _ _ => ⟨0x0000F000, 0x00005000⟩
  | .liu _ _ => ⟨0x0000F000, 0x00006000⟩
  | .bra _ => ⟨0x0000F000, 0x00008000⟩
  | .bt _ => ⟨0x0000F000, 0x00009000⟩
  | .bf _ => ⟨0x0000F000, 0x0000A000⟩
  | .jmp _ => ⟨0x0000F000, 0x0000B000⟩
  | .call _ => ⟨0x0000F000, 0x0000C000⟩
  | .unknown _ => ⟨0x00000000, 0x00000000⟩

/-- TableRow: the encoder puts an instruction into its own row of the opcode table. -/
def TableRow.Statement (i : Instr) : Prop := i.wf = true → encode i &&& (opRow i).mask = (opRow i).value

/-! ### The opcode bits of each format (30_encoding.md R84 to R89) -/

/-- A register field holds no bit above its four. -/
theorem regBits_getElem (r : RegId) (i : Nat) (hi : i < 32) (h : 4 ≤ i) : (regBits r)[i] = false := by
  have h16 : 2 ^ 4 ≤ 2 ^ i := Nat.pow_le_pow_right (by omega) h
  have hr : r.val < 2 ^ i := by omega
  have hm : r.val % 2 ^ 32 = r.val := Nat.mod_eq_of_lt (by omega)
  rw [regBits, BitVec.getElem_eq_testBit_toNat, BitVec.toNat_ofNat, hm, Nat.testBit_lt_two_pow hr]

/-- A compact register field holds no bit above its two. -/
theorem cregBits_getElem (r : CRegId) (i : Nat) (hi : i < 32) (h : 2 ≤ i) : (cregBits r)[i] = false := by
  have h4 : 2 ^ 2 ≤ 2 ^ i := Nat.pow_le_pow_right (by omega) h
  have hr : r.val < 2 ^ i := by omega
  have hm : r.val % 2 ^ 32 = r.val := Nat.mod_eq_of_lt (by omega)
  rw [cregBits, BitVec.getElem_eq_testBit_toNat, BitVec.toNat_ofNat, hm, Nat.testBit_lt_two_pow hr]

theorem encodeRR_opcode (op : BitVec 8) (ra rb : RegId) :
    encodeRR op ra rb &&& 0x0000FF00 = op.setWidth 32 <<< 8 := by
  apply BitVec.eq_of_getLsbD_eq
  intro i hi
  interval_cases i <;> simp [encodeRR, regBits_getElem]

theorem encodeRR16_opcode (op : BitVec 8) (ra rb : RegId) (imm : BitVec 16) :
    encodeRR16 op ra rb imm &&& 0x0000FF00 = op.setWidth 32 <<< 8 := by
  apply BitVec.eq_of_getLsbD_eq
  intro i hi
  interval_cases i <;> simp [encodeRR16, regBits_getElem]

theorem encodeRI_opcode (op : BitVec 4) (ra : RegId) (imm : BitVec 8) :
    encodeRI op ra imm &&& 0x0000F000 = op.setWidth 32 <<< 12 := by
  apply BitVec.eq_of_getLsbD_eq
  intro i hi
  interval_cases i <;> simp [encodeRI, regBits_getElem]

theorem encodeC_opcode (op : BitVec 6) (ca cb : CRegId) (imm : BitVec 6) :
    encodeC op ca cb imm &&& 0x0000FC00 = op.setWidth 32 <<< 10 := by
  apply BitVec.eq_of_getLsbD_eq
  intro i hi
  interval_cases i <;> simp [encodeC, cregBits_getElem]

theorem encodeB12_opcode (op : BitVec 4) (imm : BitVec 12) :
    encodeB12 op imm &&& 0x0000F000 = op.setWidth 32 <<< 12 := by
  apply BitVec.eq_of_getLsbD_eq
  intro i hi
  interval_cases i <;> simp [encodeB12]

theorem encodeB28_opcode (op : BitVec 4) (imm : BitVec 28) :
    encodeB28 op imm &&& 0x0000F000 = op.setWidth 32 <<< 12 := by
  apply BitVec.eq_of_getLsbD_eq
  intro i hi
  interval_cases i <;> simp [encodeB28]

/-! ### One lemma per constructor -/

theorem TableRow.mov (rd rs : RegId) : TableRow.Statement (.mov rd rs) := fun _ => encodeRR_opcode ..
theorem TableRow.add (rd rs : RegId) : TableRow.Statement (.add rd rs) := fun _ => encodeRR_opcode ..
theorem TableRow.sub (rd rs : RegId) : TableRow.Statement (.sub rd rs) := fun _ => encodeRR_opcode ..
theorem TableRow.and (rd rs : RegId) : TableRow.Statement (.and rd rs) := fun _ => encodeRR_opcode ..
theorem TableRow.or (rd rs : RegId) : TableRow.Statement (.or rd rs) := fun _ => encodeRR_opcode ..
theorem TableRow.xor (rd rs : RegId) : TableRow.Statement (.xor rd rs) := fun _ => encodeRR_opcode ..
theorem TableRow.shl (rd rs : RegId) : TableRow.Statement (.shl rd rs) := fun _ => encodeRR_opcode ..
theorem TableRow.shr (rd rs : RegId) : TableRow.Statement (.shr rd rs) := fun _ => encodeRR_opcode ..
theorem TableRow.sar (rd rs : RegId) : TableRow.Statement (.sar rd rs) := fun _ => encodeRR_opcode ..
theorem TableRow.teq (ra rb : RegId) : TableRow.Statement (.teq ra rb) := fun _ => encodeRR_opcode ..
theorem TableRow.tne (ra rb : RegId) : TableRow.Statement (.tne ra rb) := fun _ => encodeRR_opcode ..
theorem TableRow.tlt (ra rb : RegId) : TableRow.Statement (.tlt ra rb) := fun _ => encodeRR_opcode ..
theorem TableRow.tltu (ra rb : RegId) : TableRow.Statement (.tltu ra rb) := fun _ => encodeRR_opcode ..
theorem TableRow.tge (ra rb : RegId) : TableRow.Statement (.tge ra rb) := fun _ => encodeRR_opcode ..
theorem TableRow.tgeu (ra rb : RegId) : TableRow.Statement (.tgeu ra rb) := fun _ => encodeRR_opcode ..
theorem TableRow.j (rs : RegId) : TableRow.Statement (.j rs) := fun _ => encodeRR_opcode ..
theorem TableRow.jal (rs : RegId) : TableRow.Statement (.jal rs) := fun _ => encodeRR_opcode ..
theorem TableRow.jt (rs : RegId) : TableRow.Statement (.jt rs) := fun _ => encodeRR_opcode ..
theorem TableRow.jf (rs : RegId) : TableRow.Statement (.jf rs) := fun _ => encodeRR_opcode ..
theorem TableRow.push (rs : RegId) : TableRow.Statement (.push rs) := fun _ => encodeRR_opcode ..
theorem TableRow.ei : TableRow.Statement .ei := fun _ => encodeRR_opcode ..
theorem TableRow.di : TableRow.Statement .di := fun _ => encodeRR_opcode ..
theorem TableRow.reti : TableRow.Statement .reti := fun _ => encodeRR_opcode ..
theorem TableRow.wait : TableRow.Statement .wait := fun _ => encodeRR_opcode ..
theorem TableRow.lb (rd rbase : RegId) (off : BitVec 16) : TableRow.Statement (.lb rd rbase off) := fun _ => encodeRR16_opcode ..
theorem TableRow.lbu (rd rbase : RegId) (off : BitVec 16) : TableRow.Statement (.lbu rd rbase off) := fun _ => encodeRR16_opcode ..
theorem TableRow.lh (rd rbase : RegId) (off : BitVec 16) : TableRow.Statement (.lh rd rbase off) := fun _ => encodeRR16_opcode ..
theorem TableRow.lhu (rd rbase : RegId) (off : BitVec 16) : TableRow.Statement (.lhu rd rbase off) := fun _ => encodeRR16_opcode ..
theorem TableRow.lw (rd rbase : RegId) (off : BitVec 16) : TableRow.Statement (.lw rd rbase off) := fun _ => encodeRR16_opcode ..
theorem TableRow.sb (rs rbase : RegId) (off : BitVec 16) : TableRow.Statement (.sb rs rbase off) := fun _ => encodeRR16_opcode ..
theorem TableRow.sh (rs rbase : RegId) (off : BitVec 16) : TableRow.Statement (.sh rs rbase off) := fun _ => encodeRR16_opcode ..
theorem TableRow.sw (rs rbase : RegId) (off : BitVec 16) : TableRow.Statement (.sw rs rbase off) := fun _ => encodeRR16_opcode ..
theorem TableRow.addi (rd rs : RegId) (imm : BitVec 16) : TableRow.Statement (.addi rd rs imm) := fun _ => encodeRR16_opcode ..
theorem TableRow.andi (rd rs : RegId) (imm : BitVec 16) : TableRow.Statement (.andi rd rs imm) := fun _ => encodeRR16_opcode ..
theorem TableRow.ori (rd rs : RegId) (imm : BitVec 16) : TableRow.Statement (.ori rd rs imm) := fun _ => encodeRR16_opcode ..
theorem TableRow.xori (rd rs : RegId) (imm : BitVec 16) : TableRow.Statement (.xori rd rs imm) := fun _ => encodeRR16_opcode ..
theorem TableRow.shli (rd rs : RegId) (imm : BitVec 16) : TableRow.Statement (.shli rd rs imm) := fun _ => encodeRR16_opcode ..
theorem TableRow.shri (rd rs : RegId) (imm : BitVec 16) : TableRow.Statement (.shri rd rs imm) := fun _ => encodeRR16_opcode ..
theorem TableRow.sari (rd rs : RegId) (imm : BitVec 16) : TableRow.Statement (.sari rd rs imm) := fun _ => encodeRR16_opcode ..
theorem TableRow.lil (rd : RegId) (imm : BitVec 16) : TableRow.Statement (.lil rd imm) := fun _ => encodeRR16_opcode ..
theorem TableRow.lih (rd : RegId) (imm : BitVec 16) : TableRow.Statement (.lih rd imm) := fun _ => encodeRR16_opcode ..
theorem TableRow.lwc (rd rbase : CRegId) (off : BitVec 6) : TableRow.Statement (.lwc rd rbase off) := fun _ => encodeC_opcode ..
theorem TableRow.swc (rs rbase : CRegId) (off : BitVec 6) : TableRow.Statement (.swc rs rbase off) := fun _ => encodeC_opcode ..
theorem TableRow.li (rd : RegId) (imm : BitVec 8) : TableRow.Statement (.li rd imm) := fun _ => encodeRI_opcode ..
theorem TableRow.liu (rd : RegId) (imm : BitVec 8) : TableRow.Statement (.liu rd imm) := fun _ => encodeRI_opcode ..
theorem TableRow.bra (imm : BitVec 12) : TableRow.Statement (.bra imm) := fun _ => encodeB12_opcode ..
theorem TableRow.bt (imm : BitVec 12) : TableRow.Statement (.bt imm) := fun _ => encodeB12_opcode ..
theorem TableRow.bf (imm : BitVec 12) : TableRow.Statement (.bf imm) := fun _ => encodeB12_opcode ..
theorem TableRow.jmp (imm : BitVec 28) : TableRow.Statement (.jmp imm) := fun _ => encodeB28_opcode ..
theorem TableRow.call (imm : BitVec 28) : TableRow.Statement (.call imm) := fun _ => encodeB28_opcode ..
theorem TableRow.unknown (w : Word) : TableRow.Statement (.unknown w) := fun _ => by simp [opRow, encode]

end Sys2Proof.Laws
end

