-- ==== Sys2Proof/Laws/Encoding.lean ====
section
/-! SUPPORT. The fields the decoder reads back from each format the encoder writes (30_encoding.md R83 to R89). -/

namespace Sys2Proof.Laws

/-- A register field, as the low four bits of a word. -/
theorem regBits_eq (r : RegId) : regBits r = (BitVec.ofFin (w := 4) r).setWidth 32 := by
  apply BitVec.eq_of_toNat_eq
  simp [regBits]

/-- A compact register field, as the low two bits of a word. -/
theorem cregBits_eq (r : CRegId) : cregBits r = (BitVec.ofFin (w := 2) r).setWidth 32 := by
  apply BitVec.eq_of_toNat_eq
  simp [cregBits]

/-- A register index is determined by its four bits. -/
theorem toFin_of_bits {b : BitVec 4} {r : RegId} (h : b = BitVec.ofFin (w := 4) r) : b.toFin = r := by rw [h]

/-- A compact register index is determined by its two bits. -/
theorem toFin_of_cbits {b : BitVec 2} {r : CRegId} (h : b = BitVec.ofFin (w := 2) r) : b.toFin = r := by rw [h]

theorem discT8_encodeRR (op : BitVec 8) (ra rb : RegId) : discT8 (encodeRR op ra rb) = op := by
  apply BitVec.eq_of_getLsbD_eq
  intro i hi
  interval_cases i <;> simp [discT8, encodeRR, regBits_eq]

theorem fieldRa_encodeRR (op : BitVec 8) (ra rb : RegId) : fieldRa (encodeRR op ra rb) = ra := by
  refine toFin_of_bits ?_
  apply BitVec.eq_of_getLsbD_eq
  intro i hi
  interval_cases i <;> simp [encodeRR, regBits_eq]

theorem fieldRb_encodeRR (op : BitVec 8) (ra rb : RegId) : fieldRb (encodeRR op ra rb) = rb := by
  refine toFin_of_bits ?_
  apply BitVec.eq_of_getLsbD_eq
  intro i hi
  interval_cases i <;> simp [encodeRR, regBits_eq]

theorem discT8_encodeRR16 (op : BitVec 8) (ra rb : RegId) (imm : BitVec 16) : discT8 (encodeRR16 op ra rb imm) = op := by
  apply BitVec.eq_of_getLsbD_eq
  intro i hi
  interval_cases i <;> simp [discT8, encodeRR16, regBits_eq]

theorem fieldRa_encodeRR16 (op : BitVec 8) (ra rb : RegId) (imm : BitVec 16) : fieldRa (encodeRR16 op ra rb imm) = ra := by
  refine toFin_of_bits ?_
  apply BitVec.eq_of_getLsbD_eq
  intro i hi
  interval_cases i <;> simp [encodeRR16, regBits_eq]

theorem fieldRb_encodeRR16 (op : BitVec 8) (ra rb : RegId) (imm : BitVec 16) : fieldRb (encodeRR16 op ra rb imm) = rb := by
  refine toFin_of_bits ?_
  apply BitVec.eq_of_getLsbD_eq
  intro i hi
  interval_cases i <;> simp [encodeRR16, regBits_eq]

theorem fieldImm16_encodeRR16 (op : BitVec 8) (ra rb : RegId) (imm : BitVec 16) : fieldImm16 (encodeRR16 op ra rb imm) = imm := by
  apply BitVec.eq_of_getLsbD_eq
  intro i hi
  interval_cases i <;> simp [fieldImm16, encodeRR16, regBits_eq]

theorem discT4_encodeRI (op : BitVec 4) (ra : RegId) (imm : BitVec 8) : discT4 (encodeRI op ra imm) = op := by
  apply BitVec.eq_of_getLsbD_eq
  intro i hi
  interval_cases i <;> simp [discT4, encodeRI, regBits_eq]

theorem fieldRaRI_encodeRI (op : BitVec 4) (ra : RegId) (imm : BitVec 8) : fieldRaRI (encodeRI op ra imm) = ra := by
  refine toFin_of_bits ?_
  apply BitVec.eq_of_getLsbD_eq
  intro i hi
  interval_cases i <;> simp [encodeRI, regBits_eq]

theorem fieldImm8_encodeRI (op : BitVec 4) (ra : RegId) (imm : BitVec 8) : fieldImm8 (encodeRI op ra imm) = imm := by
  apply BitVec.eq_of_getLsbD_eq
  intro i hi
  interval_cases i <;> simp [fieldImm8, encodeRI, regBits_eq]

theorem discT6_encodeC (op : BitVec 6) (ca cb : CRegId) (imm : BitVec 6) : discT6 (encodeC op ca cb imm) = op := by
  apply BitVec.eq_of_getLsbD_eq
  intro i hi
  interval_cases i <;> simp [discT6, encodeC, cregBits_eq]

theorem fieldCa_encodeC (op : BitVec 6) (ca cb : CRegId) (imm : BitVec 6) : fieldCa (encodeC op ca cb imm) = ca := by
  refine toFin_of_cbits ?_
  apply BitVec.eq_of_getLsbD_eq
  intro i hi
  interval_cases i <;> simp [encodeC, cregBits_eq]

theorem fieldCb_encodeC (op : BitVec 6) (ca cb : CRegId) (imm : BitVec 6) : fieldCb (encodeC op ca cb imm) = cb := by
  refine toFin_of_cbits ?_
  apply BitVec.eq_of_getLsbD_eq
  intro i hi
  interval_cases i <;> simp [encodeC, cregBits_eq]

theorem fieldImm6_encodeC (op : BitVec 6) (ca cb : CRegId) (imm : BitVec 6) : fieldImm6 (encodeC op ca cb imm) = imm := by
  apply BitVec.eq_of_getLsbD_eq
  intro i hi
  interval_cases i <;> simp [fieldImm6, encodeC, cregBits_eq]

theorem discT4_encodeB12 (op : BitVec 4) (imm : BitVec 12) : discT4 (encodeB12 op imm) = op := by
  apply BitVec.eq_of_getLsbD_eq
  intro i hi
  interval_cases i <;> simp [discT4, encodeB12]

theorem fieldImm12_encodeB12 (op : BitVec 4) (imm : BitVec 12) : fieldImm12 (encodeB12 op imm) = imm := by
  apply BitVec.eq_of_getLsbD_eq
  intro i hi
  interval_cases i <;> simp [fieldImm12, encodeB12]

theorem discT4_encodeB28 (op : BitVec 4) (imm : BitVec 28) : discT4 (encodeB28 op imm) = op := by
  apply BitVec.eq_of_getLsbD_eq
  intro i hi
  interval_cases i <;> simp [discT4, encodeB28]

theorem fieldImm28_encodeB28 (op : BitVec 4) (imm : BitVec 28) : fieldImm28 (encodeB28 op imm) = imm := by
  apply BitVec.eq_of_getLsbD_eq
  intro i hi
  interval_cases i <;> simp [fieldImm28, encodeB28]

/-! ### Which stage of the decoder answers (30_encoding.md R92, R94) -/

/-- The 6-bit discriminator is the top byte's high 6 bits. -/
theorem discT6_toNat (w : Word) : (discT6 w).toNat = (discT8 w).toNat / 4 := by
  simp [discT6, discT8, Nat.shiftRight_eq_div_pow]; omega

/-- The 4-bit discriminator is the top byte's high 4 bits. -/
theorem discT4_toNat (w : Word) : (discT4 w).toNat = (discT8 w).toNat / 16 := by
  simp [discT4, discT8, Nat.shiftRight_eq_div_pow]; omega

theorem decode8_eq_none (w : Word) (h : 0x31 ≤ (discT8 w).toNat) : decode8 w = none := by
  unfold decode8; split <;> first | rfl | omega

theorem decode6_eq_none (w : Word) (h : (discT6 w).toNat ≠ 0b010000 ∧ (discT6 w).toNat ≠ 0b010001) :
    decode6 w = none := by
  unfold decode6; split <;> first | rfl | omega

/-- An 8-bit match decides. -/
theorem decode_of_decode8 {w : Word} {i : Instr} (h : decode8 w = some i) : decode w = i := by simp [decode, h]

/-- A 6-bit opcode decides. -/
theorem decode_of_discT6 (w : Word) (h : (discT6 w).toNat = 0b010000 ∨ (discT6 w).toNat = 0b010001) :
    decode w = match decode6 w with | some i => i | none => .unknown w := by
  have := discT6_toNat w
  have := discT4_toNat w
  have e4 : decode4 w = none := by unfold decode4; split <;> first | rfl | omega
  simp only [decode, decode8_eq_none w (by omega), decode7, e4] <;> rfl

/-- A 4-bit opcode decides. -/
theorem decode_of_discT4 (w : Word) (h : (discT4 w).toNat = 5 ∨ 6 ≤ (discT4 w).toNat) :
    decode w = match decode4 w with | some i => i | none => .unknown w := by
  have := discT6_toNat w
  have := discT4_toNat w
  simp only [decode, decode8_eq_none w (by omega), decode7, decode6_eq_none w (by omega)] <;> rfl

end Sys2Proof.Laws
end

