-- ==== Sys2Proof/Laws/State.lean ====
section
/-! SUPPORT. One lemma per field per update of State, each true by rfl, so that no proof unfolds an update. -/

namespace Sys2Proof.Machine

variable (s : State)

/-! ### setReg -/

@[simp] theorem State.setReg_regs (r : RegId) (v : Word) : (s.setReg r v).regs = s.regs.set r v := rfl
@[simp] theorem State.setReg_pc (r : RegId) (v : Word) : (s.setReg r v).pc = s.pc := rfl
@[simp] theorem State.setReg_t (r : RegId) (v : Word) : (s.setReg r v).t = s.t := rfl
@[simp] theorem State.setReg_ie (r : RegId) (v : Word) : (s.setReg r v).ie = s.ie := rfl
@[simp] theorem State.setReg_saved (r : RegId) (v : Word) : (s.setReg r v).saved = s.saved := rfl
@[simp] theorem State.setReg_run (r : RegId) (v : Word) : (s.setReg r v).run = s.run := rfl
@[simp] theorem State.setReg_halt (r : RegId) (v : Word) : (s.setReg r v).halt = s.halt := rfl
@[simp] theorem State.setReg_retired (r : RegId) (v : Word) : (s.setReg r v).retired = s.retired := rfl
@[simp] theorem State.setReg_ram (r : RegId) (v : Word) : (s.setReg r v).ram = s.ram := rfl
@[simp] theorem State.setReg_cfg (r : RegId) (v : Word) : (s.setReg r v).cfg = s.cfg := rfl
@[simp] theorem State.setReg_readHook (r : RegId) (v : Word) : (s.setReg r v).readHook = s.readHook := rfl
@[simp] theorem State.setReg_writeHook (r : RegId) (v : Word) : (s.setReg r v).writeHook = s.writeHook := rfl
@[simp] theorem State.setReg_irq (r : RegId) (v : Word) : (s.setReg r v).irq = s.irq := rfl
@[simp] theorem State.setReg_hookAnswers (r : RegId) (v : Word) : (s.setReg r v).hookAnswers = s.hookAnswers := rfl
@[simp] theorem State.setReg_hookDraws (r : RegId) (v : Word) : (s.setReg r v).hookDraws = s.hookDraws := rfl
@[simp] theorem State.setReg_mmioLog (r : RegId) (v : Word) : (s.setReg r v).mmioLog = s.mmioLog := rfl
@[simp] theorem State.setReg_loadWarning (r : RegId) (v : Word) : (s.setReg r v).loadWarning = s.loadWarning := rfl
@[simp] theorem State.setReg_stopped (r : RegId) (v : Word) : (s.setReg r v).stopped = s.stopped := rfl
@[simp] theorem State.setReg_script (r : RegId) (v : Word) : (s.setReg r v).script = s.script := rfl

/-! ### setT -/

@[simp] theorem State.setT_regs (b : Bool) : (s.setT b).regs = s.regs := rfl
@[simp] theorem State.setT_pc (b : Bool) : (s.setT b).pc = s.pc := rfl
@[simp] theorem State.setT_t (b : Bool) : (s.setT b).t = b := rfl
@[simp] theorem State.setT_ie (b : Bool) : (s.setT b).ie = s.ie := rfl
@[simp] theorem State.setT_saved (b : Bool) : (s.setT b).saved = s.saved := rfl
@[simp] theorem State.setT_run (b : Bool) : (s.setT b).run = s.run := rfl
@[simp] theorem State.setT_halt (b : Bool) : (s.setT b).halt = s.halt := rfl
@[simp] theorem State.setT_retired (b : Bool) : (s.setT b).retired = s.retired := rfl
@[simp] theorem State.setT_ram (b : Bool) : (s.setT b).ram = s.ram := rfl
@[simp] theorem State.setT_cfg (b : Bool) : (s.setT b).cfg = s.cfg := rfl
@[simp] theorem State.setT_readHook (b : Bool) : (s.setT b).readHook = s.readHook := rfl
@[simp] theorem State.setT_writeHook (b : Bool) : (s.setT b).writeHook = s.writeHook := rfl
@[simp] theorem State.setT_irq (b : Bool) : (s.setT b).irq = s.irq := rfl
@[simp] theorem State.setT_hookAnswers (b : Bool) : (s.setT b).hookAnswers = s.hookAnswers := rfl
@[simp] theorem State.setT_hookDraws (b : Bool) : (s.setT b).hookDraws = s.hookDraws := rfl
@[simp] theorem State.setT_mmioLog (b : Bool) : (s.setT b).mmioLog = s.mmioLog := rfl
@[simp] theorem State.setT_loadWarning (b : Bool) : (s.setT b).loadWarning = s.loadWarning := rfl
@[simp] theorem State.setT_stopped (b : Bool) : (s.setT b).stopped = s.stopped := rfl
@[simp] theorem State.setT_script (b : Bool) : (s.setT b).script = s.script := rfl
@[simp] theorem State.setT_reg (b : Bool) (r' : RegId) : (s.setT b).reg r' = s.reg r' := rfl

/-! ### setIe -/

@[simp] theorem State.setIe_regs (b : Bool) : (s.setIe b).regs = s.regs := rfl
@[simp] theorem State.setIe_pc (b : Bool) : (s.setIe b).pc = s.pc := rfl
@[simp] theorem State.setIe_t (b : Bool) : (s.setIe b).t = s.t := rfl
@[simp] theorem State.setIe_ie (b : Bool) : (s.setIe b).ie = b := rfl
@[simp] theorem State.setIe_saved (b : Bool) : (s.setIe b).saved = s.saved := rfl
@[simp] theorem State.setIe_run (b : Bool) : (s.setIe b).run = s.run := rfl
@[simp] theorem State.setIe_halt (b : Bool) : (s.setIe b).halt = s.halt := rfl
@[simp] theorem State.setIe_retired (b : Bool) : (s.setIe b).retired = s.retired := rfl
@[simp] theorem State.setIe_ram (b : Bool) : (s.setIe b).ram = s.ram := rfl
@[simp] theorem State.setIe_cfg (b : Bool) : (s.setIe b).cfg = s.cfg := rfl
@[simp] theorem State.setIe_readHook (b : Bool) : (s.setIe b).readHook = s.readHook := rfl
@[simp] theorem State.setIe_writeHook (b : Bool) : (s.setIe b).writeHook = s.writeHook := rfl
@[simp] theorem State.setIe_irq (b : Bool) : (s.setIe b).irq = s.irq := rfl
@[simp] theorem State.setIe_hookAnswers (b : Bool) : (s.setIe b).hookAnswers = s.hookAnswers := rfl
@[simp] theorem State.setIe_hookDraws (b : Bool) : (s.setIe b).hookDraws = s.hookDraws := rfl
@[simp] theorem State.setIe_mmioLog (b : Bool) : (s.setIe b).mmioLog = s.mmioLog := rfl
@[simp] theorem State.setIe_loadWarning (b : Bool) : (s.setIe b).loadWarning = s.loadWarning := rfl
@[simp] theorem State.setIe_stopped (b : Bool) : (s.setIe b).stopped = s.stopped := rfl
@[simp] theorem State.setIe_script (b : Bool) : (s.setIe b).script = s.script := rfl
@[simp] theorem State.setIe_reg (b : Bool) (r' : RegId) : (s.setIe b).reg r' = s.reg r' := rfl

/-! ### setRam -/

@[simp] theorem State.setRam_regs (m : Memory) : (s.setRam m).regs = s.regs := rfl
@[simp] theorem State.setRam_pc (m : Memory) : (s.setRam m).pc = s.pc := rfl
@[simp] theorem State.setRam_t (m : Memory) : (s.setRam m).t = s.t := rfl
@[simp] theorem State.setRam_ie (m : Memory) : (s.setRam m).ie = s.ie := rfl
@[simp] theorem State.setRam_saved (m : Memory) : (s.setRam m).saved = s.saved := rfl
@[simp] theorem State.setRam_run (m : Memory) : (s.setRam m).run = s.run := rfl
@[simp] theorem State.setRam_halt (m : Memory) : (s.setRam m).halt = s.halt := rfl
@[simp] theorem State.setRam_retired (m : Memory) : (s.setRam m).retired = s.retired := rfl
@[simp] theorem State.setRam_ram (m : Memory) : (s.setRam m).ram = m := rfl
@[simp] theorem State.setRam_cfg (m : Memory) : (s.setRam m).cfg = s.cfg := rfl
@[simp] theorem State.setRam_readHook (m : Memory) : (s.setRam m).readHook = s.readHook := rfl
@[simp] theorem State.setRam_writeHook (m : Memory) : (s.setRam m).writeHook = s.writeHook := rfl
@[simp] theorem State.setRam_irq (m : Memory) : (s.setRam m).irq = s.irq := rfl
@[simp] theorem State.setRam_hookAnswers (m : Memory) : (s.setRam m).hookAnswers = s.hookAnswers := rfl
@[simp] theorem State.setRam_hookDraws (m : Memory) : (s.setRam m).hookDraws = s.hookDraws := rfl
@[simp] theorem State.setRam_mmioLog (m : Memory) : (s.setRam m).mmioLog = s.mmioLog := rfl
@[simp] theorem State.setRam_loadWarning (m : Memory) : (s.setRam m).loadWarning = s.loadWarning := rfl
@[simp] theorem State.setRam_stopped (m : Memory) : (s.setRam m).stopped = s.stopped := rfl
@[simp] theorem State.setRam_script (m : Memory) : (s.setRam m).script = s.script := rfl
@[simp] theorem State.setRam_reg (m : Memory) (r' : RegId) : (s.setRam m).reg r' = s.reg r' := rfl

/-! ### setRun -/

@[simp] theorem State.setRun_regs (r : RunState) : (s.setRun r).regs = s.regs := rfl
@[simp] theorem State.setRun_pc (r : RunState) : (s.setRun r).pc = s.pc := rfl
@[simp] theorem State.setRun_t (r : RunState) : (s.setRun r).t = s.t := rfl
@[simp] theorem State.setRun_ie (r : RunState) : (s.setRun r).ie = s.ie := rfl
@[simp] theorem State.setRun_saved (r : RunState) : (s.setRun r).saved = s.saved := rfl
@[simp] theorem State.setRun_run (r : RunState) : (s.setRun r).run = r := rfl
@[simp] theorem State.setRun_halt (r : RunState) : (s.setRun r).halt = s.halt := rfl
@[simp] theorem State.setRun_retired (r : RunState) : (s.setRun r).retired = s.retired := rfl
@[simp] theorem State.setRun_ram (r : RunState) : (s.setRun r).ram = s.ram := rfl
@[simp] theorem State.setRun_cfg (r : RunState) : (s.setRun r).cfg = s.cfg := rfl
@[simp] theorem State.setRun_readHook (r : RunState) : (s.setRun r).readHook = s.readHook := rfl
@[simp] theorem State.setRun_writeHook (r : RunState) : (s.setRun r).writeHook = s.writeHook := rfl
@[simp] theorem State.setRun_irq (r : RunState) : (s.setRun r).irq = s.irq := rfl
@[simp] theorem State.setRun_hookAnswers (r : RunState) : (s.setRun r).hookAnswers = s.hookAnswers := rfl
@[simp] theorem State.setRun_hookDraws (r : RunState) : (s.setRun r).hookDraws = s.hookDraws := rfl
@[simp] theorem State.setRun_mmioLog (r : RunState) : (s.setRun r).mmioLog = s.mmioLog := rfl
@[simp] theorem State.setRun_loadWarning (r : RunState) : (s.setRun r).loadWarning = s.loadWarning := rfl
@[simp] theorem State.setRun_stopped (r : RunState) : (s.setRun r).stopped = s.stopped := rfl
@[simp] theorem State.setRun_script (r : RunState) : (s.setRun r).script = s.script := rfl
@[simp] theorem State.setRun_reg (r : RunState) (r' : RegId) : (s.setRun r).reg r' = s.reg r' := rfl

/-! ### logCall -/

@[simp] theorem State.logCall_regs (c : MmioCall) : (s.logCall c).regs = s.regs := rfl
@[simp] theorem State.logCall_pc (c : MmioCall) : (s.logCall c).pc = s.pc := rfl
@[simp] theorem State.logCall_t (c : MmioCall) : (s.logCall c).t = s.t := rfl
@[simp] theorem State.logCall_ie (c : MmioCall) : (s.logCall c).ie = s.ie := rfl
@[simp] theorem State.logCall_saved (c : MmioCall) : (s.logCall c).saved = s.saved := rfl
@[simp] theorem State.logCall_run (c : MmioCall) : (s.logCall c).run = s.run := rfl
@[simp] theorem State.logCall_halt (c : MmioCall) : (s.logCall c).halt = s.halt := rfl
@[simp] theorem State.logCall_retired (c : MmioCall) : (s.logCall c).retired = s.retired := rfl
@[simp] theorem State.logCall_ram (c : MmioCall) : (s.logCall c).ram = s.ram := rfl
@[simp] theorem State.logCall_cfg (c : MmioCall) : (s.logCall c).cfg = s.cfg := rfl
@[simp] theorem State.logCall_readHook (c : MmioCall) : (s.logCall c).readHook = s.readHook := rfl
@[simp] theorem State.logCall_writeHook (c : MmioCall) : (s.logCall c).writeHook = s.writeHook := rfl
@[simp] theorem State.logCall_irq (c : MmioCall) : (s.logCall c).irq = s.irq := rfl
@[simp] theorem State.logCall_hookAnswers (c : MmioCall) : (s.logCall c).hookAnswers = s.hookAnswers := rfl
@[simp] theorem State.logCall_hookDraws (c : MmioCall) : (s.logCall c).hookDraws = s.hookDraws := rfl
@[simp] theorem State.logCall_mmioLog (c : MmioCall) : (s.logCall c).mmioLog = c :: s.mmioLog := rfl
@[simp] theorem State.logCall_loadWarning (c : MmioCall) : (s.logCall c).loadWarning = s.loadWarning := rfl
@[simp] theorem State.logCall_stopped (c : MmioCall) : (s.logCall c).stopped = s.stopped := rfl
@[simp] theorem State.logCall_script (c : MmioCall) : (s.logCall c).script = s.script := rfl
@[simp] theorem State.logCall_reg (c : MmioCall) (r' : RegId) : (s.logCall c).reg r' = s.reg r' := rfl

/-! ### commit -/

@[simp] theorem State.commit_regs (next : Word) : (s.commit next).regs = s.regs := rfl
@[simp] theorem State.commit_pc (next : Word) : (s.commit next).pc = next := rfl
@[simp] theorem State.commit_t (next : Word) : (s.commit next).t = s.t := rfl
@[simp] theorem State.commit_ie (next : Word) : (s.commit next).ie = s.ie := rfl
@[simp] theorem State.commit_saved (next : Word) : (s.commit next).saved = s.saved := rfl
@[simp] theorem State.commit_run (next : Word) : (s.commit next).run = s.run := rfl
@[simp] theorem State.commit_halt (next : Word) : (s.commit next).halt = s.halt := rfl
@[simp] theorem State.commit_retired (next : Word) : (s.commit next).retired = s.retired + 1 := rfl
@[simp] theorem State.commit_ram (next : Word) : (s.commit next).ram = s.ram := rfl
@[simp] theorem State.commit_cfg (next : Word) : (s.commit next).cfg = s.cfg := rfl
@[simp] theorem State.commit_readHook (next : Word) : (s.commit next).readHook = s.readHook := rfl
@[simp] theorem State.commit_writeHook (next : Word) : (s.commit next).writeHook = s.writeHook := rfl
@[simp] theorem State.commit_irq (next : Word) : (s.commit next).irq = s.irq := rfl
@[simp] theorem State.commit_hookAnswers (next : Word) : (s.commit next).hookAnswers = s.hookAnswers := rfl
@[simp] theorem State.commit_hookDraws (next : Word) : (s.commit next).hookDraws = s.hookDraws := rfl
@[simp] theorem State.commit_mmioLog (next : Word) : (s.commit next).mmioLog = s.mmioLog := rfl
@[simp] theorem State.commit_loadWarning (next : Word) : (s.commit next).loadWarning = s.loadWarning := rfl
@[simp] theorem State.commit_stopped (next : Word) : (s.commit next).stopped = s.stopped := rfl
@[simp] theorem State.commit_script (next : Word) : (s.commit next).script = s.script := rfl
@[simp] theorem State.commit_reg (next : Word) (r' : RegId) : (s.commit next).reg r' = s.reg r' := rfl

/-! ### advance -/

@[simp] theorem State.advance_regs (len : Word) : (s.advance len).regs = s.regs := rfl
@[simp] theorem State.advance_pc (len : Word) : (s.advance len).pc = s.pc + len := rfl
@[simp] theorem State.advance_t (len : Word) : (s.advance len).t = s.t := rfl
@[simp] theorem State.advance_ie (len : Word) : (s.advance len).ie = s.ie := rfl
@[simp] theorem State.advance_saved (len : Word) : (s.advance len).saved = s.saved := rfl
@[simp] theorem State.advance_run (len : Word) : (s.advance len).run = s.run := rfl
@[simp] theorem State.advance_halt (len : Word) : (s.advance len).halt = s.halt := rfl
@[simp] theorem State.advance_retired (len : Word) : (s.advance len).retired = s.retired + 1 := rfl
@[simp] theorem State.advance_ram (len : Word) : (s.advance len).ram = s.ram := rfl
@[simp] theorem State.advance_cfg (len : Word) : (s.advance len).cfg = s.cfg := rfl
@[simp] theorem State.advance_readHook (len : Word) : (s.advance len).readHook = s.readHook := rfl
@[simp] theorem State.advance_writeHook (len : Word) : (s.advance len).writeHook = s.writeHook := rfl
@[simp] theorem State.advance_irq (len : Word) : (s.advance len).irq = s.irq := rfl
@[simp] theorem State.advance_hookAnswers (len : Word) : (s.advance len).hookAnswers = s.hookAnswers := rfl
@[simp] theorem State.advance_hookDraws (len : Word) : (s.advance len).hookDraws = s.hookDraws := rfl
@[simp] theorem State.advance_mmioLog (len : Word) : (s.advance len).mmioLog = s.mmioLog := rfl
@[simp] theorem State.advance_loadWarning (len : Word) : (s.advance len).loadWarning = s.loadWarning := rfl
@[simp] theorem State.advance_stopped (len : Word) : (s.advance len).stopped = s.stopped := rfl
@[simp] theorem State.advance_script (len : Word) : (s.advance len).script = s.script := rfl
@[simp] theorem State.advance_reg (len : Word) (r' : RegId) : (s.advance len).reg r' = s.reg r' := rfl

/-! ### enterVector -/

@[simp] theorem State.enterVector_regs (v : Nat) : (s.enterVector v).regs = s.regs := rfl
@[simp] theorem State.enterVector_pc (v : Nat) : (s.enterVector v).pc = vectorAddr s.cfg v := rfl
@[simp] theorem State.enterVector_t (v : Nat) : (s.enterVector v).t = s.t := rfl
@[simp] theorem State.enterVector_ie (v : Nat) : (s.enterVector v).ie = false := rfl
@[simp] theorem State.enterVector_saved (v : Nat) : (s.enterVector v).saved = s.pc := rfl
@[simp] theorem State.enterVector_run (v : Nat) : (s.enterVector v).run = s.run := rfl
@[simp] theorem State.enterVector_halt (v : Nat) : (s.enterVector v).halt = s.halt := rfl
@[simp] theorem State.enterVector_retired (v : Nat) : (s.enterVector v).retired = s.retired := rfl
@[simp] theorem State.enterVector_ram (v : Nat) : (s.enterVector v).ram = s.ram := rfl
@[simp] theorem State.enterVector_cfg (v : Nat) : (s.enterVector v).cfg = s.cfg := rfl
@[simp] theorem State.enterVector_readHook (v : Nat) : (s.enterVector v).readHook = s.readHook := rfl
@[simp] theorem State.enterVector_writeHook (v : Nat) : (s.enterVector v).writeHook = s.writeHook := rfl
@[simp] theorem State.enterVector_irq (v : Nat) : (s.enterVector v).irq = s.irq := rfl
@[simp] theorem State.enterVector_hookAnswers (v : Nat) : (s.enterVector v).hookAnswers = s.hookAnswers := rfl
@[simp] theorem State.enterVector_hookDraws (v : Nat) : (s.enterVector v).hookDraws = s.hookDraws := rfl
@[simp] theorem State.enterVector_mmioLog (v : Nat) : (s.enterVector v).mmioLog = s.mmioLog := rfl
@[simp] theorem State.enterVector_loadWarning (v : Nat) : (s.enterVector v).loadWarning = s.loadWarning := rfl
@[simp] theorem State.enterVector_stopped (v : Nat) : (s.enterVector v).stopped = s.stopped := rfl
@[simp] theorem State.enterVector_script (v : Nat) : (s.enterVector v).script = s.script := rfl
@[simp] theorem State.enterVector_reg (v : Nat) (r' : RegId) : (s.enterVector v).reg r' = s.reg r' := rfl

/-! ### haltWith -/

@[simp] theorem State.haltWith_regs (h : HaltReason) (st : AccessStatus) : (s.haltWith h st).regs = s.regs := rfl
@[simp] theorem State.haltWith_pc (h : HaltReason) (st : AccessStatus) : (s.haltWith h st).pc = s.pc := rfl
@[simp] theorem State.haltWith_t (h : HaltReason) (st : AccessStatus) : (s.haltWith h st).t = s.t := rfl
@[simp] theorem State.haltWith_ie (h : HaltReason) (st : AccessStatus) : (s.haltWith h st).ie = s.ie := rfl
@[simp] theorem State.haltWith_saved (h : HaltReason) (st : AccessStatus) : (s.haltWith h st).saved = s.saved := rfl
@[simp] theorem State.haltWith_run (h : HaltReason) (st : AccessStatus) : (s.haltWith h st).run = .halted := rfl
@[simp] theorem State.haltWith_halt (h : HaltReason) (st : AccessStatus) : (s.haltWith h st).halt = some { reason := h, status := st, pc := s.pc } := rfl
@[simp] theorem State.haltWith_retired (h : HaltReason) (st : AccessStatus) : (s.haltWith h st).retired = s.retired := rfl
@[simp] theorem State.haltWith_ram (h : HaltReason) (st : AccessStatus) : (s.haltWith h st).ram = s.ram := rfl
@[simp] theorem State.haltWith_cfg (h : HaltReason) (st : AccessStatus) : (s.haltWith h st).cfg = s.cfg := rfl
@[simp] theorem State.haltWith_readHook (h : HaltReason) (st : AccessStatus) : (s.haltWith h st).readHook = s.readHook := rfl
@[simp] theorem State.haltWith_writeHook (h : HaltReason) (st : AccessStatus) : (s.haltWith h st).writeHook = s.writeHook := rfl
@[simp] theorem State.haltWith_irq (h : HaltReason) (st : AccessStatus) : (s.haltWith h st).irq = s.irq := rfl
@[simp] theorem State.haltWith_hookAnswers (h : HaltReason) (st : AccessStatus) : (s.haltWith h st).hookAnswers = s.hookAnswers := rfl
@[simp] theorem State.haltWith_hookDraws (h : HaltReason) (st : AccessStatus) : (s.haltWith h st).hookDraws = s.hookDraws := rfl
@[simp] theorem State.haltWith_mmioLog (h : HaltReason) (st : AccessStatus) : (s.haltWith h st).mmioLog = s.mmioLog := rfl
@[simp] theorem State.haltWith_loadWarning (h : HaltReason) (st : AccessStatus) : (s.haltWith h st).loadWarning = s.loadWarning := rfl
@[simp] theorem State.haltWith_stopped (h : HaltReason) (st : AccessStatus) : (s.haltWith h st).stopped = s.stopped := rfl
@[simp] theorem State.haltWith_script (h : HaltReason) (st : AccessStatus) : (s.haltWith h st).script = s.script := rfl
@[simp] theorem State.haltWith_reg (h : HaltReason) (st : AccessStatus) (r' : RegId) : (s.haltWith h st).reg r' = s.reg r' := rfl

/-! ### returnFromInterrupt -/

@[simp] theorem State.returnFromInterrupt_regs : (s.returnFromInterrupt).regs = s.regs := rfl
@[simp] theorem State.returnFromInterrupt_pc : (s.returnFromInterrupt).pc = s.saved := rfl
@[simp] theorem State.returnFromInterrupt_t : (s.returnFromInterrupt).t = s.t := rfl
@[simp] theorem State.returnFromInterrupt_ie : (s.returnFromInterrupt).ie = true := rfl
@[simp] theorem State.returnFromInterrupt_saved : (s.returnFromInterrupt).saved = s.saved := rfl
@[simp] theorem State.returnFromInterrupt_run : (s.returnFromInterrupt).run = s.run := rfl
@[simp] theorem State.returnFromInterrupt_halt : (s.returnFromInterrupt).halt = s.halt := rfl
@[simp] theorem State.returnFromInterrupt_retired : (s.returnFromInterrupt).retired = s.retired + 1 := rfl
@[simp] theorem State.returnFromInterrupt_ram : (s.returnFromInterrupt).ram = s.ram := rfl
@[simp] theorem State.returnFromInterrupt_cfg : (s.returnFromInterrupt).cfg = s.cfg := rfl
@[simp] theorem State.returnFromInterrupt_readHook : (s.returnFromInterrupt).readHook = s.readHook := rfl
@[simp] theorem State.returnFromInterrupt_writeHook : (s.returnFromInterrupt).writeHook = s.writeHook := rfl
@[simp] theorem State.returnFromInterrupt_irq : (s.returnFromInterrupt).irq = s.irq := rfl
@[simp] theorem State.returnFromInterrupt_hookAnswers : (s.returnFromInterrupt).hookAnswers = s.hookAnswers := rfl
@[simp] theorem State.returnFromInterrupt_hookDraws : (s.returnFromInterrupt).hookDraws = s.hookDraws := rfl
@[simp] theorem State.returnFromInterrupt_mmioLog : (s.returnFromInterrupt).mmioLog = s.mmioLog := rfl
@[simp] theorem State.returnFromInterrupt_loadWarning : (s.returnFromInterrupt).loadWarning = s.loadWarning := rfl
@[simp] theorem State.returnFromInterrupt_stopped : (s.returnFromInterrupt).stopped = s.stopped := rfl
@[simp] theorem State.returnFromInterrupt_script : (s.returnFromInterrupt).script = s.script := rfl
@[simp] theorem State.returnFromInterrupt_reg (r' : RegId) : (s.returnFromInterrupt).reg r' = s.reg r' := rfl

/-! ### setScript -/

@[simp] theorem State.setScript_regs (rest : List HostAction) : (s.setScript rest).regs = s.regs := rfl
@[simp] theorem State.setScript_pc (rest : List HostAction) : (s.setScript rest).pc = s.pc := rfl
@[simp] theorem State.setScript_t (rest : List HostAction) : (s.setScript rest).t = s.t := rfl
@[simp] theorem State.setScript_ie (rest : List HostAction) : (s.setScript rest).ie = s.ie := rfl
@[simp] theorem State.setScript_saved (rest : List HostAction) : (s.setScript rest).saved = s.saved := rfl
@[simp] theorem State.setScript_run (rest : List HostAction) : (s.setScript rest).run = s.run := rfl
@[simp] theorem State.setScript_halt (rest : List HostAction) : (s.setScript rest).halt = s.halt := rfl
@[simp] theorem State.setScript_retired (rest : List HostAction) : (s.setScript rest).retired = s.retired := rfl
@[simp] theorem State.setScript_ram (rest : List HostAction) : (s.setScript rest).ram = s.ram := rfl
@[simp] theorem State.setScript_cfg (rest : List HostAction) : (s.setScript rest).cfg = s.cfg := rfl
@[simp] theorem State.setScript_readHook (rest : List HostAction) : (s.setScript rest).readHook = s.readHook := rfl
@[simp] theorem State.setScript_writeHook (rest : List HostAction) : (s.setScript rest).writeHook = s.writeHook := rfl
@[simp] theorem State.setScript_irq (rest : List HostAction) : (s.setScript rest).irq = s.irq := rfl
@[simp] theorem State.setScript_hookAnswers (rest : List HostAction) : (s.setScript rest).hookAnswers = s.hookAnswers :=
  rfl
@[simp] theorem State.setScript_hookDraws (rest : List HostAction) : (s.setScript rest).hookDraws = s.hookDraws := rfl
@[simp] theorem State.setScript_mmioLog (rest : List HostAction) : (s.setScript rest).mmioLog = s.mmioLog := rfl
@[simp] theorem State.setScript_loadWarning (rest : List HostAction) : (s.setScript rest).loadWarning = s.loadWarning :=
  rfl
@[simp] theorem State.setScript_stopped (rest : List HostAction) : (s.setScript rest).stopped = s.stopped := rfl
@[simp] theorem State.setScript_script (rest : List HostAction) : (s.setScript rest).script = rest := rfl
@[simp] theorem State.setScript_reg (rest : List HostAction) (r' : RegId) : (s.setScript rest).reg r' = s.reg r' := rfl

/-! ### setStopped -/

@[simp] theorem State.setStopped_regs (b : Bool) : (s.setStopped b).regs = s.regs := rfl
@[simp] theorem State.setStopped_pc (b : Bool) : (s.setStopped b).pc = s.pc := rfl
@[simp] theorem State.setStopped_t (b : Bool) : (s.setStopped b).t = s.t := rfl
@[simp] theorem State.setStopped_ie (b : Bool) : (s.setStopped b).ie = s.ie := rfl
@[simp] theorem State.setStopped_saved (b : Bool) : (s.setStopped b).saved = s.saved := rfl
@[simp] theorem State.setStopped_run (b : Bool) : (s.setStopped b).run = s.run := rfl
@[simp] theorem State.setStopped_halt (b : Bool) : (s.setStopped b).halt = s.halt := rfl
@[simp] theorem State.setStopped_retired (b : Bool) : (s.setStopped b).retired = s.retired := rfl
@[simp] theorem State.setStopped_ram (b : Bool) : (s.setStopped b).ram = s.ram := rfl
@[simp] theorem State.setStopped_cfg (b : Bool) : (s.setStopped b).cfg = s.cfg := rfl
@[simp] theorem State.setStopped_readHook (b : Bool) : (s.setStopped b).readHook = s.readHook := rfl
@[simp] theorem State.setStopped_writeHook (b : Bool) : (s.setStopped b).writeHook = s.writeHook := rfl
@[simp] theorem State.setStopped_irq (b : Bool) : (s.setStopped b).irq = s.irq := rfl
@[simp] theorem State.setStopped_hookAnswers (b : Bool) : (s.setStopped b).hookAnswers = s.hookAnswers := rfl
@[simp] theorem State.setStopped_hookDraws (b : Bool) : (s.setStopped b).hookDraws = s.hookDraws := rfl
@[simp] theorem State.setStopped_mmioLog (b : Bool) : (s.setStopped b).mmioLog = s.mmioLog := rfl
@[simp] theorem State.setStopped_loadWarning (b : Bool) : (s.setStopped b).loadWarning = s.loadWarning := rfl
@[simp] theorem State.setStopped_stopped (b : Bool) : (s.setStopped b).stopped = b := rfl
@[simp] theorem State.setStopped_script (b : Bool) : (s.setStopped b).script = s.script := rfl
@[simp] theorem State.setStopped_reg (b : Bool) (r' : RegId) : (s.setStopped b).reg r' = s.reg r' := rfl

/-! ### setHooks -/

@[simp] theorem State.setHooks_regs (r w : Bool) : (s.setHooks r w).regs = s.regs := rfl
@[simp] theorem State.setHooks_pc (r w : Bool) : (s.setHooks r w).pc = s.pc := rfl
@[simp] theorem State.setHooks_t (r w : Bool) : (s.setHooks r w).t = s.t := rfl
@[simp] theorem State.setHooks_ie (r w : Bool) : (s.setHooks r w).ie = s.ie := rfl
@[simp] theorem State.setHooks_saved (r w : Bool) : (s.setHooks r w).saved = s.saved := rfl
@[simp] theorem State.setHooks_run (r w : Bool) : (s.setHooks r w).run = s.run := rfl
@[simp] theorem State.setHooks_halt (r w : Bool) : (s.setHooks r w).halt = s.halt := rfl
@[simp] theorem State.setHooks_retired (r w : Bool) : (s.setHooks r w).retired = s.retired := rfl
@[simp] theorem State.setHooks_ram (r w : Bool) : (s.setHooks r w).ram = s.ram := rfl
@[simp] theorem State.setHooks_cfg (r w : Bool) : (s.setHooks r w).cfg = s.cfg := rfl
@[simp] theorem State.setHooks_readHook (r w : Bool) : (s.setHooks r w).readHook = r := rfl
@[simp] theorem State.setHooks_writeHook (r w : Bool) : (s.setHooks r w).writeHook = w := rfl
@[simp] theorem State.setHooks_irq (r w : Bool) : (s.setHooks r w).irq = s.irq := rfl
@[simp] theorem State.setHooks_hookAnswers (r w : Bool) : (s.setHooks r w).hookAnswers = s.hookAnswers := rfl
@[simp] theorem State.setHooks_hookDraws (r w : Bool) : (s.setHooks r w).hookDraws = s.hookDraws := rfl
@[simp] theorem State.setHooks_mmioLog (r w : Bool) : (s.setHooks r w).mmioLog = s.mmioLog := rfl
@[simp] theorem State.setHooks_loadWarning (r w : Bool) : (s.setHooks r w).loadWarning = s.loadWarning := rfl
@[simp] theorem State.setHooks_stopped (r w : Bool) : (s.setHooks r w).stopped = s.stopped := rfl
@[simp] theorem State.setHooks_script (r w : Bool) : (s.setHooks r w).script = s.script := rfl
@[simp] theorem State.setHooks_reg (r w : Bool) (r' : RegId) : (s.setHooks r w).reg r' = s.reg r' := rfl

/-! ### driveLine -/

@[simp] theorem State.driveLine_regs (v : Nat) (b : Bool) : (s.driveLine v b).regs = s.regs := rfl
@[simp] theorem State.driveLine_pc (v : Nat) (b : Bool) : (s.driveLine v b).pc = s.pc := rfl
@[simp] theorem State.driveLine_t (v : Nat) (b : Bool) : (s.driveLine v b).t = s.t := rfl
@[simp] theorem State.driveLine_ie (v : Nat) (b : Bool) : (s.driveLine v b).ie = s.ie := rfl
@[simp] theorem State.driveLine_saved (v : Nat) (b : Bool) : (s.driveLine v b).saved = s.saved := rfl
@[simp] theorem State.driveLine_run (v : Nat) (b : Bool) : (s.driveLine v b).run = s.run := rfl
@[simp] theorem State.driveLine_halt (v : Nat) (b : Bool) : (s.driveLine v b).halt = s.halt := rfl
@[simp] theorem State.driveLine_retired (v : Nat) (b : Bool) : (s.driveLine v b).retired = s.retired := rfl
@[simp] theorem State.driveLine_ram (v : Nat) (b : Bool) : (s.driveLine v b).ram = s.ram := rfl
@[simp] theorem State.driveLine_cfg (v : Nat) (b : Bool) : (s.driveLine v b).cfg = s.cfg := rfl
@[simp] theorem State.driveLine_readHook (v : Nat) (b : Bool) : (s.driveLine v b).readHook = s.readHook := rfl
@[simp] theorem State.driveLine_writeHook (v : Nat) (b : Bool) : (s.driveLine v b).writeHook = s.writeHook := rfl
@[simp] theorem State.driveLine_hookAnswers (v : Nat) (b : Bool) : (s.driveLine v b).hookAnswers = s.hookAnswers := rfl
@[simp] theorem State.driveLine_hookDraws (v : Nat) (b : Bool) : (s.driveLine v b).hookDraws = s.hookDraws := rfl
@[simp] theorem State.driveLine_mmioLog (v : Nat) (b : Bool) : (s.driveLine v b).mmioLog = s.mmioLog := rfl
@[simp] theorem State.driveLine_loadWarning (v : Nat) (b : Bool) : (s.driveLine v b).loadWarning = s.loadWarning := rfl
@[simp] theorem State.driveLine_stopped (v : Nat) (b : Bool) : (s.driveLine v b).stopped = s.stopped := rfl
@[simp] theorem State.driveLine_script (v : Nat) (b : Bool) : (s.driveLine v b).script = s.script := rfl
@[simp] theorem State.driveLine_reg (v : Nat) (b : Bool) (r' : RegId) : (s.driveLine v b).reg r' = s.reg r' := rfl
theorem State.mem_driveLine_irq (v u : Nat) (b : Bool) :
    u ∈ (s.driveLine v b).irq ↔ if u = v then b = true else u ∈ s.irq := by
  cases b <;> by_cases h : u = v <;> simp [State.driveLine, h]

/-! ### resetWith -/

@[simp] theorem State.resetWith_regs (image : List Byte) : (s.resetWith image).regs = Vector.replicate 16 0 := rfl
@[simp] theorem State.resetWith_pc (image : List Byte) : (s.resetWith image).pc = 0 := rfl
@[simp] theorem State.resetWith_t (image : List Byte) : (s.resetWith image).t = false := rfl
@[simp] theorem State.resetWith_ie (image : List Byte) : (s.resetWith image).ie = false := rfl
@[simp] theorem State.resetWith_saved (image : List Byte) : (s.resetWith image).saved = 0 := rfl
@[simp] theorem State.resetWith_run (image : List Byte) : (s.resetWith image).run = .running := rfl
@[simp] theorem State.resetWith_halt (image : List Byte) : (s.resetWith image).halt = none := rfl
@[simp] theorem State.resetWith_retired (image : List Byte) : (s.resetWith image).retired = 0 := rfl
@[simp] theorem State.resetWith_ram (image : List Byte) :
    (s.resetWith image).ram = Memory.ofBytes 0 (image.take s.cfg.ramSize) := rfl
@[simp] theorem State.resetWith_cfg (image : List Byte) : (s.resetWith image).cfg = s.cfg := rfl
@[simp] theorem State.resetWith_readHook (image : List Byte) : (s.resetWith image).readHook = s.readHook := rfl
@[simp] theorem State.resetWith_writeHook (image : List Byte) : (s.resetWith image).writeHook = s.writeHook := rfl
@[simp] theorem State.resetWith_irq (image : List Byte) : (s.resetWith image).irq = s.irq := rfl
@[simp] theorem State.resetWith_hookAnswers (image : List Byte) : (s.resetWith image).hookAnswers = s.hookAnswers := rfl
@[simp] theorem State.resetWith_hookDraws (image : List Byte) : (s.resetWith image).hookDraws = s.hookDraws := rfl
@[simp] theorem State.resetWith_mmioLog (image : List Byte) : (s.resetWith image).mmioLog = s.mmioLog := rfl
@[simp] theorem State.resetWith_loadWarning (image : List Byte) :
    (s.resetWith image).loadWarning = decide (s.cfg.ramSize < image.length) := rfl
@[simp] theorem State.resetWith_stopped (image : List Byte) : (s.resetWith image).stopped = s.stopped := rfl
@[simp] theorem State.resetWith_script (image : List Byte) : (s.resetWith image).script = s.script := rfl
@[simp] theorem State.resetWith_reg (image : List Byte) (r' : RegId) : (s.resetWith image).reg r' = 0 := by
  simp [State.resetWith, State.reg]

/-! ### General registers: reading back what was written (10_state.md R20) -/

@[simp] theorem State.setReg_reg_self (r : RegId) (v : Word) : (s.setReg r v).reg r = v := by
  simp [State.setReg, State.reg]

theorem State.setReg_reg_of_ne (r r' : RegId) (v : Word) (h : r' ≠ r) : (s.setReg r v).reg r' = s.reg r' := by
  have h' : (r : Nat) ≠ (r' : Nat) := fun e => h (Fin.ext e.symm)
  simp [State.setReg, State.reg, h']

theorem State.setReg_reg (r r' : RegId) (v : Word) :
    (s.setReg r v).reg r' = if r' = r then v else s.reg r' := by
  split
  · next h => subst h; exact State.setReg_reg_self s r' v
  · next h => exact State.setReg_reg_of_ne s r r' v h

/-- Two register files that read the same are the same. -/
theorem State.regs_ext (s t : State) (h : ∀ r, t.reg r = s.reg r) : t.regs = s.regs := by
  refine Vector.ext fun i hi => ?_
  exact h ⟨i, hi⟩

end Sys2Proof.Machine
end

