-- ==== Sys2Proof/Laws/Memory.lean ====
section
/-! SUPPORT. RAM as a canonical list: reading back writes, and every operation keeps the canonical form. -/

namespace Sys2Proof.Machine

/-! ### Reading after writing -/

theorem Memory.read_of_unlisted (m : Memory) (b : Nat) (h : ∀ c ∈ m, c.1 ≠ b) : m.read b = 0 := by
  induction m with
  | nil => rfl
  | cons c m ih => grind [Memory.read]

theorem Memory.read_drop (m : Memory) (a b : Nat) : (m.drop a).read b = if b = a then 0 else m.read b := by
  induction m with
  | nil => simp [Memory.drop, Memory.read]
  | cons c m ih => simp only [Memory.drop] at ih ⊢; grind [Memory.read]

theorem Memory.read_place (m : Memory) (a b : Nat) (v : Byte) (h : ∀ c ∈ m, c.1 ≠ a) :
    (m.place a v).read b = if b = a then v else m.read b := by
  induction m with
  | nil => grind [Memory.place, Memory.read]
  | cons c m ih => grind [Memory.place, Memory.read]

theorem Memory.mem_drop {m : Memory} {a : Nat} {c : Host.Cell} : c ∈ m.drop a ↔ c ∈ m ∧ c.1 ≠ a := by
  simp [Memory.drop]

theorem Memory.mem_place {m : Memory} {a : Nat} {v : Byte} {c : Host.Cell} :
    c ∈ m.place a v ↔ c = (a, v) ∨ c ∈ m := by
  induction m with
  | nil => simp [Memory.place]
  | cons d m ih => grind [Memory.place]

/-- One write, read anywhere: the laws of a byte array. -/
theorem Memory.read_write (m : Memory) (a b : Nat) (v : Byte) :
    (m.write a v).read b = if b = a then v else m.read b := by
  unfold Memory.write
  split
  · next h => rw [Memory.read_drop, h]
  · rw [Memory.read_place _ _ _ _ fun c hc => (Memory.mem_drop.mp hc).2, Memory.read_drop]
    split <;> rfl

/-- Writing bytes at rising addresses, read anywhere. -/
theorem Memory.read_writeBytes (m : Memory) (a b : Nat) (bs : List Byte) :
    (m.writeBytes a bs).read b = if h : a ≤ b ∧ b < a + bs.length then bs[b - a] else m.read b := by
  induction bs generalizing m a with
  | nil => rw [dif_neg (by simp only [List.length_nil]; omega)]; rfl
  | cons v bs ih =>
    rw [Memory.writeBytes, ih, Memory.read_write]
    by_cases hb : b = a
    · subst hb
      rw [dif_neg (by omega), dif_pos (by simp)]
      simp
    · by_cases hin : a + 1 ≤ b ∧ b < a + 1 + bs.length
      · rw [dif_pos hin, dif_pos (by simp only [List.length_cons]; omega)]
        simp only [List.getElem_cons]
        rw [dif_neg (by omega)]
        congr 1
      · rw [dif_neg hin, if_neg hb, dif_neg (by simp only [List.length_cons]; omega)]

/-! ### The canonical form -/

theorem Memory.risesAbove_iff (lo : Option Nat) (m : Memory) :
    Memory.risesAbove lo m = true ↔
      (∀ l ∈ lo, ∀ c ∈ m, l < c.1) ∧ m.Pairwise (fun c d => c.1 < d.1) ∧ ∀ c ∈ m, c.2 ≠ 0 := by
  induction m generalizing lo with
  | nil => simp [Memory.risesAbove]
  | cons c m ih =>
    obtain ⟨a, v⟩ := c
    cases lo <;> simp [Memory.risesAbove, ih] <;> grind

/-- The canonical form, as a fact about the list. -/
theorem Memory.wf_iff (m : Memory) :
    m.wf = true ↔ m.Pairwise (fun c d => c.1 < d.1) ∧ ∀ c ∈ m, c.2 ≠ 0 := by
  simp [Memory.wf, Memory.risesAbove_iff]

theorem Memory.drop_wf (m : Memory) (a : Nat) (h : m.wf = true) : (m.drop a).wf = true := by
  rw [Memory.wf_iff] at h ⊢
  exact ⟨h.1.sublist List.filter_sublist, fun c hc => h.2 c (Memory.mem_drop.mp hc).1⟩

theorem Memory.place_wf (m : Memory) (a : Nat) (v : Byte) (hv : v ≠ 0) (ha : ∀ c ∈ m, c.1 ≠ a) (h : m.wf = true) :
    (m.place a v).wf = true := by
  rw [Memory.wf_iff] at h ⊢
  obtain ⟨hs, hz⟩ := h
  refine ⟨?_, fun c hc => ?_⟩
  · induction m with
    | nil => simp [Memory.place]
    | cons d m ih => grind [Memory.place, Memory.mem_place, List.pairwise_cons]
  · rcases Memory.mem_place.mp hc with rfl | hc
    · exact hv
    · exact hz c hc

/-- A byte write keeps the canonical form. -/
theorem Memory.write_wf (m : Memory) (a : Nat) (v : Byte) (h : m.wf = true) : (m.write a v).wf = true := by
  unfold Memory.write
  split
  · exact Memory.drop_wf m a h
  · next hv => exact Memory.place_wf _ a v hv (fun c hc => (Memory.mem_drop.mp hc).2) (Memory.drop_wf m a h)

/-- Writing several bytes keeps the canonical form. -/
theorem Memory.writeBytes_wf (m : Memory) (a : Nat) (bs : List Byte) (h : m.wf = true) :
    (m.writeBytes a bs).wf = true := by
  induction bs generalizing m a with
  | nil => exact h
  | cons b bs ih => exact ih _ _ (Memory.write_wf m a b h)

theorem Memory.mem_ofBytes {a : Nat} {bs : List Byte} {c : Host.Cell} (h : c ∈ Memory.ofBytes a bs) :
    a ≤ c.1 ∧ c.1 < a + bs.length ∧ c.2 ≠ 0 := by
  induction bs generalizing a with
  | nil => simp [Memory.ofBytes] at h
  | cons b bs ih => grind [Memory.ofBytes]

/-- A loaded image is in canonical form. -/
theorem Memory.ofBytes_wf (a : Nat) (bs : List Byte) : (Memory.ofBytes a bs).wf = true := by
  rw [Memory.wf_iff]
  refine ⟨?_, fun c hc => (Memory.mem_ofBytes hc).2.2⟩
  induction bs generalizing a with
  | nil => simp [Memory.ofBytes]
  | cons b bs ih =>
    have := @Memory.mem_ofBytes
    grind [Memory.ofBytes, List.pairwise_cons]

/-- What a loaded image reads as. -/
theorem Memory.read_ofBytes (a b : Nat) (bs : List Byte) :
    (Memory.ofBytes a bs).read b = if a ≤ b then bs[b - a]?.getD 0 else 0 := by
  induction bs generalizing a with
  | nil => simp [Memory.ofBytes, Memory.read]
  | cons v bs ih =>
    by_cases hb : a = b
    · subst hb
      by_cases hv : v = 0
      · rw [Memory.ofBytes, if_pos hv, ih]; simp [hv]
      · rw [Memory.ofBytes, if_neg hv, Memory.read]; simp
    · have hr : (Memory.ofBytes a (v :: bs)).read b = (Memory.ofBytes (a + 1) bs).read b := by
        by_cases hv : v = 0
        · rw [Memory.ofBytes, if_pos hv]
        · rw [Memory.ofBytes, if_neg hv, Memory.read, if_neg hb]
      rw [hr, ih]
      by_cases hab : a ≤ b
      · have h1 : b - a = (b - (a + 1)) + 1 := by omega
        rw [if_pos (by omega), if_pos hab, h1, List.getElem?_cons_succ]
      · rw [if_neg (by omega), if_neg hab]

/-! ### Addresses within a bound -/

theorem Memory.within_iff (m : Memory) (n : Nat) : m.within n = true ↔ ∀ c ∈ m, c.1 < n := by
  simp [Memory.within]

theorem Memory.write_within (m : Memory) (a n : Nat) (v : Byte) (ha : a < n) (h : m.within n = true) :
    (m.write a v).within n = true := by
  rw [Memory.within_iff] at h ⊢
  intro c hc
  unfold Memory.write at hc
  split at hc
  · exact h c (Memory.mem_drop.mp hc).1
  · rcases Memory.mem_place.mp hc with rfl | hc
    · exact ha
    · exact h c (Memory.mem_drop.mp hc).1

theorem Memory.writeBytes_within (m : Memory) (a n : Nat) (bs : List Byte) (ha : a + bs.length ≤ n)
    (h : m.within n = true) : (m.writeBytes a bs).within n = true := by
  induction bs generalizing m a with
  | nil => exact h
  | cons b bs ih =>
    simp only [List.length_cons] at ha
    exact ih _ _ (by omega) (Memory.write_within m a n b (by omega) h)

theorem Memory.ofBytes_within (a n : Nat) (bs : List Byte) (h : a + bs.length ≤ n) :
    (Memory.ofBytes a bs).within n = true := by
  rw [Memory.within_iff]
  intro c hc
  have := Memory.mem_ofBytes hc
  omega

end Sys2Proof.Machine
end

