-- ==== Sys2Proof/Laws/Ops.lean ====
section
/-! SUPPORT. One lemma per shared operation that says once everything it can do: the MMU, hook calls, interrupt entry,
fault routing, the register and t-bit writers, interrupt sampling. -/

namespace Sys2Proof.Machine

/-! ### Frames -/

theorem OnlyHooks.refl (s : State) : OnlyHooks s s :=
  ⟨fun _ => rfl, rfl, rfl, rfl, fun _ => rfl, ⟨rfl, rfl, rfl, rfl⟩, ⟨rfl, rfl, rfl, rfl, rfl, rfl, rfl⟩⟩

theorem OnlyHooks.trans {s t u : State} (h : OnlyHooks s t) (k : OnlyHooks t u) : OnlyHooks s u where
  regs r := (k.regs r).trans (h.regs r)
  pc := k.pc.trans h.pc
  tbit := k.tbit.trans h.tbit
  retired := k.retired.trans h.retired
  ram a := (k.ram a).trans (h.ram a)
  control := ⟨k.control.ie.trans h.control.ie, k.control.saved.trans h.control.saved,
    k.control.run.trans h.control.run, k.control.halt.trans h.control.halt⟩
  inputs := ⟨k.inputs.cfg.trans h.inputs.cfg, k.inputs.readHook.trans h.inputs.readHook,
    k.inputs.writeHook.trans h.inputs.writeHook, k.inputs.irq.trans h.inputs.irq,
    k.inputs.script.trans h.inputs.script, k.inputs.loadWarning.trans h.inputs.loadWarning,
    k.inputs.stopped.trans h.inputs.stopped⟩

/-! ### Alignment and classes -/

/-- The bit test of alignment is divisibility by the width (20_memory.md R56). -/
theorem Gran.aligned_iff (g : Gran) (a : Word) : g.aligned a = true ↔ a.toNat % g.bytes = 0 := by
  cases g <;> simp [Gran.aligned, Gran.bytes, ← BitVec.toNat_inj, Nat.mod_one]

theorem classify_ram {c : Params} {a : Word} : classify c a = .ram ↔ a.toNat < c.ramSize := by
  unfold classify; split <;> [simp_all; split <;> simp_all]

theorem classify_mmio {c : Params} {a : Word} :
    classify c a = .mmio ↔ c.ramSize ≤ a.toNat ∧ c.mmioBase.toNat ≤ a.toNat := by
  unfold classify; split <;> [simp_all; split <;> simp_all]

theorem classify_unmapped {c : Params} {a : Word} :
    classify c a = .unmapped ↔ c.ramSize ≤ a.toNat ∧ a.toNat < c.mmioBase.toNat := by
  unfold classify; split <;> [simp_all; split <;> simp_all]

/-! ### Hook calls (20_memory.md R61, R62) -/

theorem State.drawAnswer_onlyHooks (s : State) : OnlyHooks s s.drawAnswer.2 := by
  unfold State.drawAnswer
  split <;> exact ⟨fun _ => rfl, rfl, rfl, rfl, fun _ => rfl, ⟨rfl, rfl, rfl, rfl⟩, ⟨rfl, rfl, rfl, rfl, rfl, rfl, rfl⟩⟩

theorem State.logCall_onlyHooks (s : State) (c : MmioCall) : OnlyHooks s (s.logCall c) :=
  ⟨fun _ => rfl, rfl, rfl, rfl, fun _ => rfl, ⟨rfl, rfl, rfl, rfl⟩, ⟨rfl, rfl, rfl, rfl, rfl, rfl, rfl⟩⟩

@[simp] theorem State.drawAnswer_mmioLog (s : State) : s.drawAnswer.2.mmioLog = s.mmioLog := by
  unfold State.drawAnswer
  split <;> rfl

/-- A hook call that returns Ok logs exactly itself and changes only hook state. -/
theorem State.callHook_ok {s s' : State} {c : MmioCall} {v : Word} (h : s.callHook c = .ok v s') :
    OnlyHooks s s' ∧ s'.mmioLog = c :: s.mmioLog ∧ s' = (s.logCall c).drawAnswer.2 := by
  have h1 := (State.logCall_onlyHooks s c).trans (State.drawAnswer_onlyHooks (s.logCall c))
  have h2 := State.drawAnswer_mmioLog (s.logCall c)
  unfold State.callHook at h
  rcases hp : (s.logCall c).drawAnswer with ⟨⟨⟨st, u⟩⟩ | _, s''⟩ <;> rw [hp] at h h1 h2
  · cases st <;> simp at h
    obtain ⟨-, rfl⟩ := h
    exact ⟨h1, h2, rfl⟩
  · simp at h

/-- A hook call that fails logs exactly itself, changes only hook state, and its status is not Ok. -/
theorem State.callHook_failed {s s' : State} {c : MmioCall} {st : AccessStatus} (h : s.callHook c = .failed st s') :
    st ≠ .ok ∧ OnlyHooks s s' ∧ s'.mmioLog = c :: s.mmioLog ∧ s' = (s.logCall c).drawAnswer.2 := by
  have h1 := (State.logCall_onlyHooks s c).trans (State.drawAnswer_onlyHooks (s.logCall c))
  have h2 := State.drawAnswer_mmioLog (s.logCall c)
  unfold State.callHook at h
  rcases hp : (s.logCall c).drawAnswer with ⟨⟨⟨st', u⟩⟩ | _, s''⟩ <;> rw [hp] at h h1 h2
  · cases st' <;> simp at h
    all_goals
      obtain ⟨rfl, rfl⟩ := h
      exact ⟨by decide, h1, h2, rfl⟩
  · simp at h

/-- What a hook call is when the host has queued a reply. -/
theorem State.callHook_returns {s : State} {r : HookReply} {rest : List HookAnswer} (c : MmioCall)
    (h : s.hookAnswers = .returns r :: rest) :
    s.callHook c = if r.status = .ok then .ok r.value { s with hookAnswers := rest, mmioLog := c :: s.mmioLog }
      else .failed r.status { s with hookAnswers := rest, mmioLog := c :: s.mmioLog } := by
  rcases r with ⟨st, v⟩
  cases st <;> simp [State.callHook, State.drawAnswer, State.logCall, h]

/-- A hook that never returns blocks its call. -/
theorem State.callHook_blocks {s : State} {rest : List HookAnswer} (c : MmioCall)
    (h : s.hookAnswers = .blocks :: rest) : s.callHook c = .blocked := by
  simp [State.callHook, State.drawAnswer, State.logCall, h]

/-! ### The MMU (20_memory.md R53, R54) -/

/-- Everything a successful read can be: RAM read in place, or one hook call. -/
theorem State.memRead_ok {s s' : State} {a : Word} {g : Gran} {v : Word} (h : s.memRead a g = .ok v s') :
    g.aligned a = true ∧
      ((classify s.cfg a = .ram ∧ s' = s ∧ v = s.ram.readLE a.toNat g) ∨
       (classify s.cfg a = .mmio ∧ s.readHook = true ∧
        ∃ u, s.callHook (.read (a - s.cfg.mmioBase) g) = .ok u s' ∧ v = g.trunc u)) := by
  unfold State.memRead at h
  split at h
  · simp at h
  · next hc =>
    split at h
    · next ha =>
      simp only [Access.ok.injEq] at h
      exact ⟨ha, .inl ⟨hc, h.2.symm, h.1.symm⟩⟩
    · simp at h
  · next hc =>
    split at h
    · split at h
      · split at h <;> simp_all
      · simp at h
    · simp at h

/-- Everything a failed read can be: unmapped, misaligned, no hook, or one failing hook call. -/
theorem State.memRead_failed {s s' : State} {a : Word} {g : Gran} {st : AccessStatus}
    (h : s.memRead a g = .failed st s') :
    (classify s.cfg a = .unmapped ∧ st = .errorUnmapped ∧ s' = s) ∨
    (classify s.cfg a ≠ .unmapped ∧ g.aligned a = false ∧ st = .errorMisaligned ∧ s' = s) ∨
    (classify s.cfg a = .mmio ∧ g.aligned a = true ∧ s.readHook = false ∧ st = .errorMmioUnmapped ∧ s' = s) ∨
    (classify s.cfg a = .mmio ∧ g.aligned a = true ∧ s.readHook = true ∧
      s.callHook (.read (a - s.cfg.mmioBase) g) = .failed st s') := by
  unfold State.memRead at h
  split at h
  · simp_all
  · next hc => split at h <;> simp_all
  · next hc =>
    split at h
    · split at h
      · split at h <;> simp_all
      · simp_all
    · simp_all

/-- A read changes nothing but hook state (20_memory.md R59, R63). -/
theorem State.memRead_ok_onlyHooks {s s' : State} {a : Word} {g : Gran} {v : Word} (h : s.memRead a g = .ok v s') :
    OnlyHooks s s' := by
  rcases (State.memRead_ok h).2 with ⟨-, rfl, -⟩ | ⟨-, -, u, hu, -⟩
  · exact OnlyHooks.refl _
  · exact (State.callHook_ok hu).1

/-- A failed read changes nothing but hook state, and its status is not Ok (20_memory.md R59). -/
theorem State.memRead_failed_onlyHooks {s s' : State} {a : Word} {g : Gran} {st : AccessStatus}
    (h : s.memRead a g = .failed st s') : OnlyHooks s s' ∧ st ≠ .ok := by
  rcases State.memRead_failed h with ⟨-, rfl, rfl⟩ | ⟨-, -, rfl, rfl⟩ | ⟨-, -, -, rfl, rfl⟩ | ⟨-, -, -, hh⟩
  · exact ⟨OnlyHooks.refl _, by decide⟩
  · exact ⟨OnlyHooks.refl _, by decide⟩
  · exact ⟨OnlyHooks.refl _, by decide⟩
  · exact ⟨(State.callHook_failed hh).2.1, (State.callHook_failed hh).1⟩

/-- Everything a successful write can be: RAM written in place, or one hook call. -/
theorem State.memWrite_ok {s s' : State} {a : Word} {g : Gran} {v : Word} {u : Unit}
    (h : s.memWrite a g v = .ok u s') :
    g.aligned a = true ∧
      ((classify s.cfg a = .ram ∧ s' = s.setRam (s.ram.writeBytes a.toNat (g.split v))) ∨
       (classify s.cfg a = .mmio ∧ s.writeHook = true ∧
        ∃ w, s.callHook (.write (a - s.cfg.mmioBase) g (g.trunc v)) = .ok w s')) := by
  unfold State.memWrite at h
  split at h
  · simp at h
  · next hc => split at h <;> simp_all
  · next hc =>
    split at h
    · split at h
      · split at h <;> simp_all
      · simp at h
    · simp at h

/-- Everything a failed write can be. -/
theorem State.memWrite_failed {s s' : State} {a : Word} {g : Gran} {v : Word} {st : AccessStatus}
    (h : s.memWrite a g v = .failed st s') :
    (classify s.cfg a = .unmapped ∧ st = .errorUnmapped ∧ s' = s) ∨
    (classify s.cfg a ≠ .unmapped ∧ g.aligned a = false ∧ st = .errorMisaligned ∧ s' = s) ∨
    (classify s.cfg a = .mmio ∧ g.aligned a = true ∧ s.writeHook = false ∧ st = .errorMmioUnmapped ∧ s' = s) ∨
    (classify s.cfg a = .mmio ∧ g.aligned a = true ∧ s.writeHook = true ∧
      s.callHook (.write (a - s.cfg.mmioBase) g (g.trunc v)) = .failed st s') := by
  unfold State.memWrite at h
  split at h
  · simp_all
  · next hc => split at h <;> simp_all
  · next hc =>
    split at h
    · split at h
      · split at h <;> simp_all
      · simp_all
    · simp_all

/-- A failed write changes no RAM byte and nothing else but hook state (20_memory.md R59). -/
theorem State.memWrite_failed_onlyHooks {s s' : State} {a : Word} {g : Gran} {v : Word} {st : AccessStatus}
    (h : s.memWrite a g v = .failed st s') : OnlyHooks s s' ∧ st ≠ .ok := by
  rcases State.memWrite_failed h with ⟨-, rfl, rfl⟩ | ⟨-, -, rfl, rfl⟩ | ⟨-, -, -, rfl, rfl⟩ | ⟨-, -, -, hh⟩
  · exact ⟨OnlyHooks.refl _, by decide⟩
  · exact ⟨OnlyHooks.refl _, by decide⟩
  · exact ⟨OnlyHooks.refl _, by decide⟩
  · exact ⟨(State.callHook_failed hh).2.1, (State.callHook_failed hh).1⟩

/-- A successful write changes nothing but RAM or hook state. -/
theorem State.memWrite_ok_onlyMemory {s s' : State} {a : Word} {g : Gran} {v : Word} {u : Unit}
    (h : s.memWrite a g v = .ok u s') : OnlyMemory s s' := by
  rcases (State.memWrite_ok h).2 with ⟨-, rfl⟩ | ⟨-, -, w, hw⟩
  · exact ⟨fun _ => rfl, rfl, rfl, rfl, ⟨rfl, rfl, rfl, rfl⟩, ⟨rfl, rfl, rfl, rfl, rfl, rfl, rfl⟩⟩
  · have o := (State.callHook_ok hw).1
    exact ⟨o.regs, o.pc, o.tbit, o.retired, o.control, o.inputs⟩

/-- A hook call leaves RAM as data, not only byte by byte. -/
@[simp] theorem State.drawAnswer_ram (s : State) : s.drawAnswer.2.ram = s.ram := by
  unfold State.drawAnswer
  split <;> rfl

/-! ### The bytes of a value (20_memory.md R53, R54, R58) -/

theorem Gran.trunc_toNat (g : Gran) (v : Word) : (g.trunc v).toNat = v.toNat % 2 ^ (8 * g.bytes) := by
  cases g <;> simp [Gran.trunc, zextByte, zextHalf, zext, Gran.bytes] <;> omega

@[simp] theorem Gran.split_length (g : Gran) (v : Word) : (g.split v).length = g.bytes := by cases g <;> rfl

theorem Gran.split_getElem? (g : Gran) (v : Word) (i : Nat) (h : i < g.bytes) :
    (g.split v)[i]? = some (v.extractLsb' (8 * i) 8) := by
  cases g
  · simp [Gran.bytes] at h; subst h; rfl
  · simp [Gran.bytes] at h; interval_cases i <;> rfl
  · simp [Gran.bytes] at h; interval_cases i <;> rfl

/-- A RAM write of a value at a granularity, read anywhere. -/
theorem Memory.read_writeBytes_split (m : Memory) (a b : Nat) (g : Gran) (v : Word) :
    (m.writeBytes a (g.split v)).read b =
      if a ≤ b ∧ b < a + g.bytes then v.extractLsb' (8 * (b - a)) 8 else m.read b := by
  rw [Memory.read_writeBytes]
  split
  · next h =>
    rw [Gran.split_length] at h
    rw [if_pos h]
    exact (List.getElem?_eq_some_iff.mp (Gran.split_getElem? g v (b - a) (by omega))).2
  · next h => rw [Gran.split_length] at h; rw [if_neg h]

/-- A RAM read over the bytes of a value gives the value cut to the width. -/
theorem Memory.readLE_of_bytes (m : Memory) (a : Nat) (g : Gran) (v : Word)
    (h : ∀ i, i < g.bytes → m.read (a + i) = v.extractLsb' (8 * i) 8) : m.readLE a g = g.trunc v := by
  cases g <;> simp [Gran.bytes] at h <;> simp only [Memory.readLE, Gran.trunc]
  · rw [show m.read a = _ from by simpa using h]; rfl
  · have h0 := h 0 (by omega); have h1 := h 1 (by omega)
    simp at h0 h1; rw [h0, h1]
    apply BitVec.eq_of_getLsbD_eq; intro i hi; interval_cases i <;> simp [zext, zextHalf]
  · have h0 := h 0 (by omega); have h1 := h 1 (by omega); have h2 := h 2 (by omega); have h3 := h 3 (by omega)
    simp at h0 h1 h2 h3; rw [h0, h1, h2, h3]
    apply BitVec.eq_of_getLsbD_eq; intro i hi; interval_cases i <;> simp [zext]

/-- An aligned RAM read is done in place. -/
theorem State.memRead_ram {s : State} {a : Word} {g : Gran} (h : a.toNat < s.cfg.ramSize)
    (ha : a.toNat % g.bytes = 0) : s.memRead a g = .ok (s.ram.readLE a.toNat g) s := by
  have hc := classify_ram.mpr h
  have hal := (Gran.aligned_iff g a).mpr ha
  simp [State.memRead, hc, hal]

/-- An aligned RAM write is done in place. -/
theorem State.memWrite_ram {s : State} {a : Word} {g : Gran} (v : Word) (h : a.toNat < s.cfg.ramSize)
    (ha : a.toNat % g.bytes = 0) :
    s.memWrite a g v = .ok () (s.setRam (s.ram.writeBytes a.toNat (g.split v))) := by
  have hc := classify_ram.mpr h
  have hal := (Gran.aligned_iff g a).mpr ha
  simp [State.memWrite, hc, hal]

/-- An aligned MMIO read is one hook call, or fails where no hook is configured. -/
theorem State.memRead_mmio {s : State} {a : Word} {g : Gran} (h : classify s.cfg a = .mmio)
    (ha : a.toNat % g.bytes = 0) :
    s.memRead a g = if s.readHook = true then
        match s.callHook (.read (a - s.cfg.mmioBase) g) with
        | .ok v s' => .ok (g.trunc v) s'
        | .failed st s' => .failed st s'
        | .blocked => .blocked
      else .failed .errorMmioUnmapped s := by
  have hal := (Gran.aligned_iff g a).mpr ha
  unfold State.memRead
  rw [h]
  exact if_pos hal

/-- An aligned MMIO write is one hook call, or fails where no hook is configured. -/
theorem State.memWrite_mmio {s : State} {a : Word} {g : Gran} (v : Word) (h : classify s.cfg a = .mmio)
    (ha : a.toNat % g.bytes = 0) :
    s.memWrite a g v = if s.writeHook = true then
        match s.callHook (.write (a - s.cfg.mmioBase) g (g.trunc v)) with
        | .ok _ s' => .ok () s'
        | .failed st s' => .failed st s'
        | .blocked => .blocked
      else .failed .errorMmioUnmapped s := by
  have hal := (Gran.aligned_iff g a).mpr ha
  unfold State.memWrite
  rw [h]
  exact if_pos hal

/-! ### Interrupt entry, fault routing, halt (60_exceptions.md R272, R276, R279) -/

/-- `fire` answers true exactly with interrupts enabled, and then enters the vector. -/
theorem State.fire_eq_some {s s' : State} {v : Nat} : s.fire v = some s' ↔ s.ie = true ∧ s' = s.enterVector v := by
  unfold State.fire
  split
  · next h => rw [Option.some.injEq]; exact ⟨fun e => ⟨h, e.symm⟩, fun e => e.2.symm⟩
  · next h => exact ⟨fun e => absurd e (by simp), fun e => absurd e.1 h⟩

theorem State.enterVector_vectored (s : State) (v : Nat) : Vectored s (s.enterVector v) v :=
  ⟨rfl, rfl, rfl, rfl, rfl, fun _ => rfl, rfl, fun _ => rfl, ⟨rfl, rfl, rfl, rfl, rfl, rfl, rfl⟩, ⟨rfl, rfl, rfl⟩⟩

theorem State.haltWith_haltedWith (s : State) (reason : HaltReason) (st : AccessStatus) :
    HaltedWith s (s.haltWith reason st) reason st :=
  ⟨rfl, rfl, rfl, rfl, rfl, rfl, fun _ => rfl, rfl, fun _ => rfl, ⟨rfl, rfl, rfl, rfl, rfl, rfl, rfl⟩, ⟨rfl, rfl, rfl⟩⟩

/-- Fault routing is vector 0 with interrupts enabled, else a halt. -/
theorem State.routeFault_eq (s : State) (k : FaultKind) (st : AccessStatus) :
    s.routeFault k st = if s.ie = true then s.enterVector 0 else s.haltWith (faultReason k) st := by
  unfold State.routeFault State.fire
  cases s.ie <;> rfl

/-! ### Writing back (45_alu.md R220, 43_tests.md R185, 40_dispatch.md R126) -/

theorem State.wroteReg_advance (s : State) (rd : RegId) (v len : Word) :
    WroteReg s ((s.setReg rd v).advance len) rd v (s.pc + len) where
  value := State.setReg_reg_self s rd v
  otherRegs r h := State.setReg_reg_of_ne s rd r v h
  tbit := rfl
  ram _ := rfl
  rest := ⟨⟨rfl, rfl, rfl, rfl⟩, ⟨rfl, rfl, rfl, rfl, rfl, rfl, rfl⟩, ⟨rfl, rfl, rfl⟩⟩
  commit := ⟨rfl, rfl⟩

theorem State.wroteReg_commit (s : State) (rd : RegId) (v next : Word) :
    WroteReg s ((s.setReg rd v).commit next) rd v next where
  value := State.setReg_reg_self s rd v
  otherRegs r h := State.setReg_reg_of_ne s rd r v h
  tbit := rfl
  ram _ := rfl
  rest := ⟨⟨rfl, rfl, rfl, rfl⟩, ⟨rfl, rfl, rfl, rfl, rfl, rfl, rfl⟩, ⟨rfl, rfl, rfl⟩⟩
  commit := ⟨rfl, rfl⟩

theorem State.wroteT_advance (s : State) (b : Bool) : WroteT s ((s.setT b).advance 2) b (s.pc + 2) :=
  ⟨rfl, fun _ => rfl, fun _ => rfl, ⟨⟨rfl, rfl, rfl, rfl⟩, ⟨rfl, rfl, rfl, rfl, rfl, rfl, rfl⟩, ⟨rfl, rfl, rfl⟩⟩, ⟨rfl, rfl⟩⟩

theorem State.wentTo_commit (s : State) (next : Word) : WentTo s (s.commit next) next :=
  ⟨fun _ => rfl, rfl, fun _ => rfl, ⟨⟨rfl, rfl, rfl, rfl⟩, ⟨rfl, rfl, rfl, rfl, rfl, rfl, rfl⟩, ⟨rfl, rfl, rfl⟩⟩, ⟨rfl, rfl⟩⟩

/-- What a load can do (40_dispatch.md R124). -/
theorem State.loadInto_next {s t : State} {rd : RegId} {ea : Word} {g : Gran} {ext : Word → Word} {len : Word}
    (h : s.loadInto rd ea g ext len = .next t) :
    (∃ v s', s.memRead ea g = .ok v s' ∧ t = (s'.setReg rd (ext v)).advance len) ∨
    (∃ st s', s.memRead ea g = .failed st s' ∧ t = s'.routeFault .load st) := by
  unfold State.loadInto at h
  split at h <;> simp_all

/-- What a store can do (40_dispatch.md R124). -/
theorem State.storeFrom_next {s t : State} {ea : Word} {g : Gran} {v len : Word}
    (h : s.storeFrom ea g v len = .next t) :
    (∃ u s', s.memWrite ea g v = .ok u s' ∧ t = s'.advance len) ∨
    (∃ st s', s.memWrite ea g v = .failed st s' ∧ t = s'.routeFault .store st) := by
  unfold State.storeFrom at h
  split at h <;> simp_all

/-! ### Interrupt sampling (60_exceptions.md R281, R284) -/

/-- `request` is the lowest raised line with 1 <= v < NUM_VECTORS. -/
theorem State.request_eq_some {s : State} {v : Nat} :
    s.request = some v ↔
      (1 ≤ v ∧ v < s.cfg.numVectors ∧ v ∈ s.irq) ∧ ∀ u, 1 ≤ u → u < v → u ∉ s.irq := by
  unfold State.request
  rw [List.find?_range'_eq_some]
  simp only [List.contains_iff_mem, Bool.not_eq_true', List.mem_range'_1]
  constructor
  · rintro ⟨h1, h2, h3⟩
    refine ⟨⟨h2.1, by omega, h1⟩, fun u hu hv hm => ?_⟩
    have := h3 u hu hv
    simp_all
  · rintro ⟨⟨h1, h2, h3⟩, h4⟩
    refine ⟨h3, ⟨h1, by omega⟩, fun u hu hv => ?_⟩
    have := h4 u hu hv
    simp_all

theorem State.request_eq_none {s : State} :
    s.request = none ↔ ∀ v, 1 ≤ v → v < s.cfg.numVectors → v ∉ s.irq := by
  unfold State.request
  simp only [List.find?_eq_none, List.mem_range'_1, List.contains_iff_mem]
  constructor
  · intro h v h1 h2; exact h v ⟨h1, by omega⟩
  · intro h v hv; exact h v hv.1 (by omega)

end Sys2Proof.Machine
end

