-- ==== Sys2Proof/Laws/Exec.lean ====
section
/-! SUPPORT. What executing an instruction can do, said once for all of them: it faults, commits or halts. Later proofs
take these three cases and never unfold a meaning. And what a fetch, a core step and a step of the machine can be. -/

namespace Sys2Proof.Machine

/-- A routed fault is an entry of vector 0 or a halt (60_exceptions.md R276). -/
theorem State.routeFault_cases (s : State) (k : FaultKind) (st : AccessStatus) :
    (s.ie = true ∧ s.routeFault k st = s.enterVector 0) ∨
    (s.ie = false ∧ s.routeFault k st = s.haltWith (faultReason k) st) := by
  rw [State.routeFault_eq]; cases h : s.ie <;> simp

/-- A routed fault, in the terms of claims. -/
theorem State.routeFault_routed (s : State) (k : FaultKind) (st : AccessStatus) :
    FaultRouted (faultReason k) st s (s.routeFault k st) := by
  rw [State.routeFault_eq, FaultRouted]
  split
  · exact ⟨State.enterVector_vectored s 0, rfl⟩
  · exact State.haltWith_haltedWith s _ _

/-- RAM after a successful read is the same data. -/
theorem State.memRead_ok_ram {s s' : State} {a : Word} {g : Gran} {v : Word} (h : s.memRead a g = .ok v s') :
    s'.ram = s.ram := by
  rcases (State.memRead_ok h).2 with ⟨-, rfl, -⟩ | ⟨-, -, u, hu, -⟩
  · rfl
  · rw [(State.callHook_ok hu).2.2, State.drawAnswer_ram]; rfl

/-- RAM after a failed read is the same data. -/
theorem State.memRead_failed_ram {s s' : State} {a : Word} {g : Gran} {st : AccessStatus}
    (h : s.memRead a g = .failed st s') : s'.ram = s.ram := by
  rcases State.memRead_failed h with ⟨-, -, rfl⟩ | ⟨-, -, -, rfl⟩ | ⟨-, -, -, -, rfl⟩ | ⟨-, -, -, hh⟩ <;> try rfl
  rw [(State.callHook_failed hh).2.2.2, State.drawAnswer_ram]; rfl

/-- RAM after a failed write is the same data. -/
theorem State.memWrite_failed_ram {s s' : State} {a : Word} {g : Gran} {v : Word} {st : AccessStatus}
    (h : s.memWrite a g v = .failed st s') : s'.ram = s.ram := by
  rcases State.memWrite_failed h with ⟨-, -, rfl⟩ | ⟨-, -, -, rfl⟩ | ⟨-, -, -, -, rfl⟩ | ⟨-, -, -, hh⟩ <;> try rfl
  rw [(State.callHook_failed hh).2.2.2, State.drawAnswer_ram]; rfl

/-- Everything an execution that gives a next state can be. -/
inductive ExecCases (i : Instr) (s t : State) : Prop
  /-- A fault was routed, after at most one hook call: the illegal-instruction fault, or that of the data access. -/
  | fault (s' : State) (k : FaultKind) (st : AccessStatus) (hooks : OnlyHooks s s') (ram : s'.ram = s.ram)
      (routed : t = s'.routeFault k st)
      (cause : ((∃ w, i = .unknown w) ∧ k = .illegal ∧ st = .ok) ∨
        ∃ d ea g, dataAccess i s = some (d, ea, g) ∧ faultReason k = d.reason ∧ st ≠ .ok)
  /-- The instruction committed. -/
  | commit (retired : t.retired = s.retired + 1)
      (run : t.run = s.run ∨
        (i = .wait ∧ s.ie = true ∧ s.cfg.waitMode = .suspend ∧ t.run = .waiting ∧ t.ie = true ∧ t.pc = s.pc + 2))
      (halt : t.halt = s.halt) (saved : t.saved = s.saved) (inputs : SameInputs s t)
      (regs : ∀ r, destReg i ≠ some r → t.reg r = s.reg r) (tbit : isTest i = false → t.t = s.t)
      (noStore : isStore i = false → t.ram = s.ram)
      (ram : t.ram = s.ram ∨ ∃ k ea g v, dataAccess i s = some (k, ea, g) ∧ ea.toNat < s.cfg.ramSize ∧
        ea.toNat % g.bytes = 0 ∧ t.ram = s.ram.writeBytes ea.toNat (g.split v))
      (even : jumpsToAnyWord i = false → s.pc.toNat % 2 = 0 → t.pc.toNat % 2 = 0)
  /-- `wait` halted the core. -/
  | halt (r : HaltReason) (isWait : i = .wait)
      (why : (s.ie = true ∧ s.cfg.waitMode = .fatal ∧ r = .waitUnimplemented) ∨ (s.ie = false ∧ r = .waitWhileDisabled))
      (halted : t = s.haltWith r .ok)

/-- Even addresses are closed under addition. -/
theorem even_add {a b : Word} (ha : a.toNat % 2 = 0) (hb : b.toNat % 2 = 0) : (a + b).toNat % 2 = 0 := by
  simp; omega

/-- A displacement is even (44_control.md R200). -/
theorem even_displacement {n : Nat} (imm : BitVec n) : (sext imm <<< 1).toNat % 2 = 0 := by simp [Nat.shiftLeft_eq]

/-- The byte offset of the compact forms, as a number (30_encoding.md R90). -/
theorem compactOffset_eq (off : BitVec 6) : compactOffset off = BitVec.ofNat 32 (4 * off.toNat) := by
  apply BitVec.eq_of_toNat_eq; simp [compactOffset, zext, Nat.shiftLeft_eq]; omega

theorem execCases_load {i : Instr} {s t : State} {rd : RegId} {ea : Word} {g : Gran} {ext : Word → Word} {len : Word}
    (he : exec i s = s.loadInto rd ea g ext len) (h : exec i s = .next t) (hd : destReg i = some rd)
    (hl : len.toNat % 2 = 0) (ha : dataAccess i s = some (.load, ea, g)) : ExecCases i s t := by
  rw [he] at h
  rcases State.loadInto_next h with ⟨v, s', h1, rfl⟩ | ⟨st, s', h1, rfl⟩
  · have ho := State.memRead_ok_onlyHooks h1
    have hr := State.memRead_ok_ram h1
    obtain ⟨h1, h2, h3, h4, h5, h6, h7⟩ := ho.inputs
    exact .commit (by simp [State.advance, State.commit, ho.retired]) (.inl ho.control.run) ho.control.halt
      ho.control.saved ⟨h1, h2, h3, h4, h5, h6, h7⟩
      (fun r hr => (State.setReg_reg_of_ne _ _ _ _ (fun e => by rw [hd, e] at hr; exact hr rfl)).trans (ho.regs r))
      (fun _ => ho.tbit) (fun _ => hr) (.inl hr) (fun _ hp => even_add (by simpa [ho.pc] using hp) hl)
  · have hf := State.memRead_failed_onlyHooks h1
    exact .fault s' .load st hf.1 (State.memRead_failed_ram h1) rfl (.inr ⟨_, _, _, ha, rfl, hf.2⟩)

theorem execCases_store {i : Instr} {s t : State} {ea : Word} {g : Gran} {v len : Word}
    (he : exec i s = s.storeFrom ea g v len) (h : exec i s = .next t) (hd : dataAccess i s = some (.store, ea, g))
    (hl : len.toNat % 2 = 0) (hs : isStore i = true) : ExecCases i s t := by
  rw [he] at h
  rcases State.storeFrom_next h with ⟨v, s', h1, rfl⟩ | ⟨st, s', h1, rfl⟩
  · rcases State.memWrite_ok h1 with ⟨ha, ⟨hc, rfl⟩ | ⟨hc, hk, u, hu⟩⟩
    · exact .commit rfl (.inl rfl) rfl rfl ⟨rfl, rfl, rfl, rfl, rfl, rfl, rfl⟩ (fun _ _ => rfl) (fun _ => rfl)
        (by simp [hs]) (.inr ⟨_, _, _, _, hd, classify_ram.mp hc, (Gran.aligned_iff _ _).mp ha, rfl⟩)
        (fun _ hp => even_add hp hl)
    · obtain ⟨ho, -, e⟩ := State.callHook_ok hu
      have hr : s'.ram = s.ram := by rw [e, State.drawAnswer_ram]; rfl
      obtain ⟨h1, h2, h3, h4, h5, h6, h7⟩ := ho.inputs
      exact .commit (by simp [State.advance, State.commit, ho.retired]) (.inl ho.control.run) ho.control.halt
        ho.control.saved ⟨h1, h2, h3, h4, h5, h6, h7⟩ (fun r _ => ho.regs r) (fun _ => ho.tbit) (fun _ => hr) (.inl hr)
        (fun _ hp => even_add (by simpa [ho.pc] using hp) hl)
  · have hf := State.memWrite_failed_onlyHooks h1
    exact .fault s' .store st hf.1 (State.memWrite_failed_ram h1) rfl (.inr ⟨_, _, _, hd, rfl, hf.2⟩)

theorem execCases_writeBack {i : Instr} {s t : State} {rd : RegId} {v len : Word} (he : exec i s = s.writeBack rd v len)
    (h : exec i s = .next t) (hd : destReg i = some rd) (hl : len.toNat % 2 = 0) : ExecCases i s t := by
  rw [he] at h; simp [State.writeBack] at h; subst h
  exact .commit rfl (.inl rfl) rfl rfl ⟨rfl, rfl, rfl, rfl, rfl, rfl, rfl⟩
    (fun r hr => State.setReg_reg_of_ne _ _ _ _ (fun e => by rw [hd, e] at hr; exact hr rfl)) (fun _ => rfl)
    (fun _ => rfl) (.inl rfl) (fun _ hp => even_add hp hl)

theorem execCases_writeTest {i : Instr} {s t : State} {b : Bool} (he : exec i s = s.writeTest b)
    (h : exec i s = .next t) (hd : isTest i = true) : ExecCases i s t := by
  rw [he] at h; simp [State.writeTest] at h; subst h
  exact .commit rfl (.inl rfl) rfl rfl ⟨rfl, rfl, rfl, rfl, rfl, rfl, rfl⟩ (fun _ _ => rfl) (fun h => by simp [hd] at h)
    (fun _ => rfl) (.inl rfl) (fun _ hp => even_add hp rfl)

theorem execCases_goTo {i : Instr} {s t : State} {n : Word} (he : exec i s = .next (s.commit n))
    (h : exec i s = .next t) (hl : jumpsToAnyWord i = false → s.pc.toNat % 2 = 0 → n.toNat % 2 = 0) :
    ExecCases i s t := by
  rw [he] at h; simp at h; subst h
  exact .commit rfl (.inl rfl) rfl rfl ⟨rfl, rfl, rfl, rfl, rfl, rfl, rfl⟩ (fun _ _ => rfl) (fun _ => rfl) (fun _ => rfl)
    (.inl rfl) hl

theorem execCases_link {i : Instr} {s t : State} {n x : Word} (he : exec i s = .next ((s.setReg raReg x).commit n))
    (h : exec i s = .next t) (hd : destReg i = some raReg)
    (hl : jumpsToAnyWord i = false → s.pc.toNat % 2 = 0 → n.toNat % 2 = 0) : ExecCases i s t := by
  rw [he] at h; simp at h; subst h
  exact .commit rfl (.inl rfl) rfl rfl ⟨rfl, rfl, rfl, rfl, rfl, rfl, rfl⟩
    (fun r hr => State.setReg_reg_of_ne _ _ _ _ (fun e => by rw [hd, e] at hr; exact hr rfl)) (fun _ => rfl)
    (fun _ => rfl) (.inl rfl) hl

/-- A conditional branch commits one of its two targets (44_control.md R203 to R207). -/
theorem State.branchIf_eq (s : State) (b : Bool) (x : Word) :
    s.branchIf b x = .next (s.commit (if b then x else s.pc + 2)) := by cases b <;> rfl

theorem execCases_push {s t : State} {rs : RegId} (h : exec (.push rs) s = .next t) : ExecCases (.push rs) s t := by
  simp only [exec, execPush] at h
  have hd : ∀ (s' : State) (x : Word) (r : RegId), destReg (.push rs) ≠ some r →
      (s'.setReg spReg x).reg r = s'.reg r :=
    fun s' x r hr => State.setReg_reg_of_ne _ _ _ _ (fun e => by rw [e] at hr; exact hr rfl)
  rcases hm : s.memWrite (pushAddr s) .word (s.reg rs) with ⟨u, s'⟩ | ⟨st, s'⟩ | _ <;> rw [hm] at h <;> simp at h
  · subst h
    rcases State.memWrite_ok hm with ⟨ha, ⟨hc, rfl⟩ | ⟨hc, hk, u, hu⟩⟩
    · exact .commit rfl (.inl rfl) rfl rfl ⟨rfl, rfl, rfl, rfl, rfl, rfl, rfl⟩ (fun r hr => hd _ _ r hr) (fun _ => rfl)
        (by simp [isStore])
        (.inr ⟨_, pushAddr s, .word, _, rfl, classify_ram.mp hc, (Gran.aligned_iff _ _).mp ha, rfl⟩)
        (fun _ hp => even_add hp rfl)
    · obtain ⟨ho, -, e⟩ := State.callHook_ok hu
      have hr : s'.ram = s.ram := by rw [e, State.drawAnswer_ram]; rfl
      obtain ⟨h1, h2, h3, h4, h5, h6, h7⟩ := ho.inputs
      exact .commit (by simp [State.advance, State.commit, ho.retired]) (.inl ho.control.run) ho.control.halt
        ho.control.saved ⟨h1, h2, h3, h4, h5, h6, h7⟩ (fun r hr' => (hd _ _ r hr').trans (ho.regs r)) (fun _ => ho.tbit)
        (fun _ => hr) (.inl hr) (fun _ hp => even_add (by simpa [ho.pc] using hp) rfl)
  · subst h
    have hf := State.memWrite_failed_onlyHooks hm
    exact .fault s' .store st hf.1 (State.memWrite_failed_ram hm) rfl (.inr ⟨_, pushAddr s, .word, rfl, rfl, hf.2⟩)

/-- Every execution is one of the three cases. -/
theorem exec_cases {i : Instr} {s t : State} (h : exec i s = .next t) : ExecCases i s t := by
  cases i
  case push rs => exact execCases_push h
  case ei | di =>
    simp [exec, execEi, execDi] at h; subst h
    exact .commit rfl (.inl rfl) rfl rfl ⟨rfl, rfl, rfl, rfl, rfl, rfl, rfl⟩ (fun _ _ => rfl) (fun _ => rfl) (fun _ => rfl)
      (.inl rfl) (fun _ hp => even_add hp rfl)
  case reti =>
    simp [exec, execReti] at h; subst h
    exact .commit rfl (.inl rfl) rfl rfl ⟨rfl, rfl, rfl, rfl, rfl, rfl, rfl⟩ (fun _ _ => rfl) (fun _ => rfl) (fun _ => rfl)
      (.inl rfl) (by simp [jumpsToAnyWord])
  case wait =>
    simp only [exec, execWait] at h
    split at h
    · next hie =>
      split at h <;> simp at h <;> subst h
      · next hm => exact .halt _ rfl (.inl ⟨hie, hm, rfl⟩) rfl
      · next hm =>
        exact .commit rfl (.inr ⟨rfl, hie, hm, rfl, hie, rfl⟩) rfl rfl ⟨rfl, rfl, rfl, rfl, rfl, rfl, rfl⟩ (fun _ _ => rfl)
          (fun _ => rfl) (fun _ => rfl) (.inl rfl) (fun _ hp => even_add hp rfl)
    · next hie => simp at h; subst h; exact .halt _ rfl (.inr ⟨by simpa using hie, rfl⟩) rfl
  case unknown w =>
    simp [exec, execUnknown] at h; subst h
    exact .fault s .illegal .ok (OnlyHooks.refl s) rfl rfl (.inl ⟨⟨w, rfl⟩, rfl, rfl⟩)
  case j => exact execCases_goTo rfl h (by simp [jumpsToAnyWord])
  case jal => exact execCases_link rfl h rfl (by simp [jumpsToAnyWord])
  case jt | jf => exact execCases_goTo (State.branchIf_eq _ _ _) h (by simp [jumpsToAnyWord])
  case bra imm | jmp imm => exact execCases_goTo rfl h (fun _ hp => even_add hp (even_displacement imm))
  case call imm => exact execCases_link rfl h rfl (fun _ hp => even_add hp (even_displacement imm))
  case bt imm | bf imm =>
    exact execCases_goTo (State.branchIf_eq _ _ _) h
      (fun _ hp => by split <;> exact even_add hp (by first | rfl | exact even_displacement imm))
  case swc rs b off =>
    exact execCases_store rfl h (by rw [dataAccess, ← compactOffset_eq]; rfl) rfl rfl
  case lwc rd b off =>
    exact execCases_load rfl h rfl rfl (by rw [dataAccess, ← compactOffset_eq]; rfl)
  all_goals first
    | exact execCases_load rfl h rfl rfl rfl
    | exact execCases_writeBack rfl h rfl rfl
    | exact execCases_writeTest rfl h rfl
    | exact execCases_store rfl h rfl rfl rfl

/-- How an instruction with a data read ends when the read does not answer Ok (40_dispatch.md R124). -/
theorem exec_of_failed_load {i : Instr} {s : State} {ea : Word} {g : Gran}
    (h : dataAccess i s = some (.load, ea, g)) :
    (∀ st s', s.memRead ea g = .failed st s' → exec i s = .next (s'.routeFault .load st)) ∧
    (s.memRead ea g = .blocked → exec i s = .fault .hookBlocked) := by
  cases i <;> simp [dataAccess] at h <;> obtain ⟨rfl, rfl⟩ := h <;> try rw [← compactOffset_eq]
  all_goals
    refine ⟨fun st s' h => ?_, fun h => ?_⟩ <;>
      simp_all [exec, execLb, execLbu, execLh, execLhu, execLw, execLwc, State.loadInto, effAddr, effAddrC, byteOffset,
        sext, compactReg]

/-- An instruction with a data write has a source; how it ends when the write does not answer Ok (40_dispatch.md R124). -/
theorem exec_of_failed_store {i : Instr} {s : State} {ea : Word} {g : Gran}
    (h : dataAccess i s = some (.store, ea, g)) :
    ∃ rs, storeSource i = some rs ∧
      (∀ st s', s.memWrite ea g (s.reg rs) = .failed st s' → exec i s = .next (s'.routeFault .store st)) ∧
      (s.memWrite ea g (s.reg rs) = .blocked → exec i s = .fault .hookBlocked) := by
  cases i <;> simp [dataAccess] at h <;> obtain ⟨rfl, rfl⟩ := h <;> try rw [← compactOffset_eq]
  all_goals
    refine ⟨_, rfl, fun st s' h => ?_, fun h => ?_⟩ <;>
      simp_all [exec, execSb, execSh, execSw, execSwc, execPush, State.storeFrom, effAddr, effAddrC, byteOffset, sext,
        compactReg, pushAddr, spReg]

/-- Everything a fetch can be: it changes nothing but hook state (30_encoding.md R80). -/
theorem State.fetch_cases (s : State) :
    (∃ w s', s.fetch = .ok w s' ∧ OnlyHooks s s' ∧ s'.ram = s.ram) ∨
    (∃ st s', s.fetch = .failed st s' ∧ st ≠ .ok ∧ OnlyHooks s s' ∧ s'.ram = s.ram) ∨ s.fetch = .blocked := by
  unfold State.fetch
  rcases h1 : s.memRead s.pc .half with ⟨v, s1⟩ | ⟨st, s1⟩ | _
  · have o1 := State.memRead_ok_onlyHooks h1
    have r1 := State.memRead_ok_ram h1
    simp only
    rcases h2 : s1.memRead (s.pc + 2) .half with ⟨v2, s2⟩ | ⟨st, s2⟩ | _
    · exact .inl ⟨_, _, rfl, o1.trans (State.memRead_ok_onlyHooks h2), (State.memRead_ok_ram h2).trans r1⟩
    · have o2 := State.memRead_failed_onlyHooks h2
      exact .inr (.inl ⟨_, _, rfl, o2.2, o1.trans o2.1, (State.memRead_failed_ram h2).trans r1⟩)
    · exact .inr (.inr rfl)
  · have o1 := State.memRead_failed_onlyHooks h1
    exact .inr (.inl ⟨_, _, rfl, o1.2, o1.1, State.memRead_failed_ram h1⟩)
  · exact .inr (.inr rfl)

/-- Phase 1 of a step finds no request exactly when interrupts are disabled or no line is raised. -/
theorem State.sampleRequest_eq_none {s : State} :
    s.sampleRequest = none ↔ (s.ie = true → ∀ v, 1 ≤ v → v < s.cfg.numVectors → v ∉ s.irq) := by
  unfold State.sampleRequest
  cases s.ie <;> simp [State.request_eq_none]

/-- A request sampled is the lowest raised line of a core with interrupts enabled. -/
theorem State.sampleRequest_eq_some {s : State} {v : Nat} :
    s.sampleRequest = some v ↔
      s.ie = true ∧ (1 ≤ v ∧ v < s.cfg.numVectors ∧ v ∈ s.irq) ∧ ∀ u, 1 ≤ u → u < v → u ∉ s.irq := by
  unfold State.sampleRequest
  cases s.ie <;> simp [State.request_eq_some]

/-- With interrupts enabled an external request enters its vector (60_exceptions.md R283). -/
theorem State.takeInterrupt_eq {s : State} (h : s.ie = true) (v : Nat) : s.takeInterrupt v = s.enterVector v := by
  simp [State.takeInterrupt, State.fire, h]

/-- A running core that takes no interrupt runs an instruction (40_dispatch.md R127). -/
theorem coreStep_running {s : State} (hr : s.run = .running) (hq : s.sampleRequest = none) :
    coreStep s = s.runInstruction := by simp [coreStep, hr, hq]

/-- A run that is not stopped steps its core when the host has nothing to do. -/
theorem step_core {s : State} (hs : s.script = []) (hp : s.stopped = false) : step s = coreStep s := by
  simp [step, hs, State.letCore, hp]

/-- The host's next action is done first. -/
theorem step_host {s : State} {a : HostAction} {rest : List HostAction} (hs : s.script = a :: rest) :
    step s = (s.setScript rest).hostAct a := by simp [step, hs]

/-- Everything a step of the machine can be: a core step of a run that is not stopped, or a host action with a next
state. -/
theorem step_cases {s t : State} (h : step s = .next t) :
    (s.stopped = false ∧ s.script = [] ∧ coreStep s = .next t) ∨
    (∃ rest, s.script = .letCoreStep :: rest ∧ s.stopped = false ∧ coreStep (s.setScript rest) = .next t) ∨
    (∃ v b rest, s.script = .setLine v b :: rest ∧ t = (s.setScript rest).driveLine v b) ∨
    (∃ r w rest, s.script = .configureHooks r w :: rest ∧ t = (s.setScript rest).setHooks r w) ∨
    (∃ image rest, s.script = .reset image :: rest ∧ t = (s.setScript rest).resetWith image) ∨
    (∃ rest, s.script = .stop :: rest ∧ t = (s.setScript rest).setStopped true) ∨
    (∃ rest, s.script = .resume :: rest ∧ t = (s.setScript rest).setStopped false) ∨
    (∃ rest, s.script = .keepalive true :: rest ∧ t = s.setScript rest) := by
  rcases hs : s.script with _ | ⟨a, rest⟩
  · simp only [step, hs, State.letCore] at h
    split at h <;> simp_all
  · rw [step_host hs] at h
    cases a <;> simp only [State.hostAct, State.letCore] at h
    case letCoreStep => split at h <;> simp_all [State.setScript]
    case setLine v b => injection h with h; exact .inr (.inr (.inl ⟨v, b, rest, rfl, h.symm⟩))
    case configureHooks r w => injection h with h; exact .inr (.inr (.inr (.inl ⟨r, w, rest, rfl, h.symm⟩)))
    all_goals first
      | (injection h with h; simp [h])
      | (split at h <;> simp_all)

end Sys2Proof.Machine
end

