-- ==== Sys2Proof/Tests/Slice0.lean ====
section
/-! SUPPORT. The model's own tests. Every expected value is the spec's: the words, start states and results of
95_test_vectors.md (its vector ids stand in the comments) and the encoding tables of 30_encoding.md. The last part shows,
for every statement with hypotheses, a concrete state that meets them. -/

namespace Sys2Proof.Tests

open Sys2Proof.Machine

/-! ### Helpers -/

/-- The start state of 95_test_vectors.md: the reset state with the word `w` at `pc = 0x40`. -/
def start (w : Nat) : State := ({ State.reset with pc := 0x40 } : State).withFetchWord 32 w

/-- Bytes placed in RAM. -/
def withBytes (s : State) (a : Nat) (bs : List Byte) : State := s.setRam (s.ram.writeBytes a bs)

/-- Both MMIO hooks configured, with their next answers. -/
def withHooks (s : State) (answers : List HookAnswer) : State :=
  { s with readHook := true, writeHook := true, hookAnswers := answers }

/-- The result is a next state with a property. -/
def gives (o : Result) (p : State → Bool) : Bool :=
  match o with
  | .next t => p t
  | _ => false

/-- The result is this fault. -/
def stops (o : Result) (f : Fault) : Bool :=
  match o with
  | .fault g => g == f
  | _ => false

/-- One step halts with this record, without committing. -/
def halts (s : State) (r : HaltReason) (st : AccessStatus) (p : Word) : Bool :=
  gives (step s) fun t =>
    t.run == .halted && t.halt == some { reason := r, status := st, pc := p } && t.pc == p && t.ie == s.ie
      && t.retired == s.retired && t.regs == s.regs && t.ram == s.ram

/-- One step enters vector 0, without committing. -/
def vectors (s : State) : Bool :=
  gives (step s) fun t =>
    t.run == .running && !t.ie && t.saved == s.pc && t.pc == 0x100 && t.retired == s.retired && t.regs == s.regs
      && t.ram == s.ram

/-- `n` bytes of RAM. -/
def bytesAt (t : State) (a n : Nat) : List Byte := (List.range n).map fun i => t.ram.read (a + i)

/-! ### WellFormed: an ill-formed term for each check -/

theorem test_wf_refuses_unknown_with_assigned_top_byte : (Instr.unknown 0x00000100).wf = false := by decide
theorem test_wf_accepts_unknown_with_unassigned_top_byte : (Instr.unknown 0x00007F00).wf = true := by decide
theorem test_wf_accepts_default_parameters : Params.default.wf = true := by decide
theorem test_wf_refuses_ram_size_not_multiple_of_4 :
    ({ Params.default with ramSize := 6 } : Params).wf = false := by decide
theorem test_wf_refuses_ram_size_below_4 : ({ Params.default with ramSize := 0 } : Params).wf = false := by decide
theorem test_wf_refuses_ram_above_mmio :
    ({ Params.default with mmioBase := 0x00FFFFFC } : Params).wf = false := by decide
theorem test_wf_refuses_mmio_base_not_multiple_of_4 :
    ({ Params.default with mmioBase := 0xF0000002 } : Params).wf = false := by decide
theorem test_wf_refuses_odd_vector_base :
    ({ Params.default with vectorBase := 0x101 } : Params).wf = false := by decide
theorem test_wf_refuses_odd_vector_stride :
    ({ Params.default with vectorStride := 3 } : Params).wf = false := by decide
theorem test_wf_refuses_fewer_than_2_vectors :
    ({ Params.default with numVectors := 1 } : Params).wf = false := by decide

/-! ### Decoding: words written out from the encoding tables (30_encoding.md R84 to R97; 95_test_vectors.md) -/

theorem test_decode_moves_and_immediates :
    decode 0x00000123 = .mov 2 3 ∧
    decode 0x00005180 = .li 1 0x80 ∧
    decode 0xABCD5005 = .li 0 5 ∧
    decode 0x000061FF = .liu 1 0xFF ∧
    decode 0x12342F10 = .lil 1 0x1234 ∧
    decode 0xDEAD3010 = .lih 1 0xDEAD := by decide
theorem test_decode_register_alu :
    decode 0x00000212 = .add 1 2 ∧
    decode 0x00000312 = .sub 1 2 ∧
    decode 0x00000412 = .and 1 2 ∧
    decode 0x00000512 = .or 1 2 ∧
    decode 0x00000612 = .xor 1 2 ∧
    decode 0x00000712 = .shl 1 2 ∧
    decode 0x00000812 = .shr 1 2 ∧
    decode 0x00000912 = .sar 1 2 := by decide
theorem test_decode_immediate_alu :
    decode 0xFFFF2812 = .addi 1 2 0xFFFF ∧
    decode 0x00FF2912 = .andi 1 2 0xFF ∧
    decode 0x80002A12 = .ori 1 2 0x8000 ∧
    decode 0xFFFF2B12 = .xori 1 2 0xFFFF ∧
    decode 0x00042C12 = .shli 1 2 4 ∧
    decode 0x001F2D12 = .shri 1 2 31 ∧
    decode 0xFFFF2E12 = .sari 1 2 0xFFFF := by decide
theorem test_decode_tests :
    decode 0x00000A12 = .teq 1 2 ∧
    decode 0x00000B12 = .tne 1 2 ∧
    decode 0x00000C12 = .tlt 1 2 ∧
    decode 0x00000D12 = .tltu 1 2 ∧
    decode 0x00000E12 = .tge 1 2 ∧
    decode 0x00000F12 = .tgeu 1 2 := by decide
theorem test_decode_control :
    decode 0x00001030 = .j 3 ∧
    decode 0x0000101F = .j 1 ∧
    decode 0x000011F0 = .jal 15 ∧
    decode 0x00001230 = .jt 3 ∧
    decode 0x00001330 = .jf 3 ∧
    decode 0x00008FFE = .bra 0xFFE ∧
    decode 0x00009003 = .bt 3 ∧
    decode 0x0000AFFC = .bf 0xFFC ∧
    decode 0x0000B080 = .jmp 0x80 ∧
    decode 0xFFFFBFFF = .jmp 0xFFFFFFF ∧
    decode 0x0001C000 = .call 0x1000 := by decide
theorem test_decode_loads_and_stores :
    decode 0x00002012 = .lb 1 2 0 ∧
    decode 0x00002112 = .lbu 1 2 0 ∧
    decode 0x00022234 = .lh 3 4 2 ∧
    decode 0x00022334 = .lhu 3 4 2 ∧
    decode 0xFFFC2456 = .lw 5 6 0xFFFC ∧
    decode 0x00012512 = .sb 1 2 1 ∧
    decode 0x00022612 = .sh 1 2 2 ∧
    decode 0x00002712 = .sw 1 2 0 ∧
    decode 0x000014E0 = .push 14 ∧
    decode 0x000043FF = .lwc 3 3 63 ∧
    decode 0x00004182 = .lwc 1 2 2 ∧
    decode 0x00004582 = .swc 1 2 2 := by decide
theorem test_decode_interrupt_instructions :
    decode 0x00001500 = .ei ∧
    decode 0x00001600 = .di ∧
    decode 0x00001700 = .reti ∧
    decode 0x00001800 = .wait := by decide
/-- Every top byte at the edge of a range of 30_encoding.md R98 (E1 to E6). -/
theorem test_decode_unknown :
    [0x0000, 0x1900, 0x1F00, 0x3100, 0x3F00, 0x4800, 0x4F00, 0x7000, 0x7F00, 0xD000, 0xFF00].all
      (fun n => decode (BitVec.ofNat 32 n) == .unknown (BitVec.ofNat 32 n)) = true := by decide
theorem test_decodeBytes_rejects_a_short_stream_by_name : decodeBytes [0x05, 0x50, 0x00] = .error (.truncated 3) := by rfl
theorem test_decodeBytes_takes_two_bytes_of_a_short_instruction :
    decodeBytes [0x05, 0x50, 0x00, 0x80] = .ok (.li 0 5, [0x00, 0x80]) := by rfl
theorem test_decodeTableWord :
    decodeTableWord 16 0x5005 = some (.li 0 5) ∧ decodeTableWord 32 0xFFFC2456 = some (.lw 5 6 0xFFFC) ∧
    decodeTableWord 16 0xFF00 = some (.unknown 0xFF00) := by decide
theorem test_encode_writes_unused_bits_0 :
    encode (.j 1) = 0x1010 ∧ encode .wait = 0x1800 ∧ encode (.lil 1 0x1234) = 0x12342F10 ∧
    encode (.call 0x1000) = 0x0001C000 ∧ encode (.lwc 3 3 63) = 0x43FF := by decide

/-! ### One step of each instruction (95_test_vectors.md 2.1 to 2.6) -/

/-- L1, L12. -/
theorem test_lb :
    gives (step (withBytes ((start 0x00002012).setReg 2 0x200) 0x200 [0x80]))
      (fun t => t.reg 1 == 0xFFFFFF80 && t.pc == 0x44 && t.retired == 1) = true ∧
    gives (step (withBytes ((start 0x00002012).setReg 2 0xFFFFFF) 0xFFFFFF [0xAB]))
      (fun t => t.reg 1 == 0xFFFFFFAB) = true := by decide
/-- L11. -/
theorem test_lb_wraps_into_mmio :
    halts ((start 0xFFFF2012).setReg 2 0x0) .loadFault .errorMmioUnmapped 0x40 = true := by decide
/-- L2. -/
theorem test_lbu :
    gives (step (withBytes ((start 0x00002112).setReg 2 0x200) 0x200 [0x80]))
      (fun t => t.reg 1 == 0x80 && t.pc == 0x44) = true := by decide
/-- L3. -/
theorem test_lh :
    gives (step (withBytes ((start 0x00022234).setReg 4 0x200) 0x202 [0x00, 0x80]))
      (fun t => t.reg 3 == 0xFFFF8000 && t.pc == 0x44) = true := by decide
/-- L4. -/
theorem test_lhu :
    gives (step (withBytes ((start 0x00022334).setReg 4 0x200) 0x202 [0x00, 0x80]))
      (fun t => t.reg 3 == 0x8000) = true := by decide
/-- L5, L9. -/
theorem test_lw :
    gives (step (withBytes ((start 0xFFFC2456).setReg 6 0x204) 0x200 [0x78, 0x56, 0x34, 0x12]))
      (fun t => t.reg 5 == 0x12345678 && t.reg 6 == 0x204) = true ∧
    gives (step (withBytes ((start 0x00002422).setReg 2 0x200) 0x200 [0x11, 0x22, 0x33, 0x44]))
      (fun t => t.reg 2 == 0x44332211) = true := by decide
/-- L6, L7, L8, L10. -/
theorem test_lw_faults :
    halts (((start 0x00022456).setReg 6 0x200).setReg 5 0x7) .loadFault .errorMisaligned 0x40 = true ∧
    vectors ((((start 0x00022456).setReg 6 0x200).setReg 5 0x7).setIe true) = true ∧
    halts ((start 0x00012456).setReg 6 0x1000000) .loadFault .errorUnmapped 0x40 = true ∧
    halts ((start 0x00002456).setReg 6 0xF0000000) .loadFault .errorMmioUnmapped 0x40 = true := by decide
/-- L13. -/
theorem test_sb :
    gives (step (((start 0x00012512).setReg 1 0x12345678).setReg 2 0x200))
      (fun t => bytesAt t 0x200 4 == [0, 0x78, 0, 0] && t.pc == 0x44) = true := by decide
/-- L14, L16. -/
theorem test_sh :
    gives (step (((start 0x00022612).setReg 1 0x12345678).setReg 2 0x200))
      (fun t => bytesAt t 0x200 4 == [0, 0, 0x78, 0x56]) = true ∧
    halts (((start 0x00012612).setReg 1 0x12345678).setReg 2 0x200) .storeFault .errorMisaligned 0x40 = true := by decide
/-- L15, L17. -/
theorem test_sw :
    gives (step (((start 0x00002712).setReg 1 0x12345678).setReg 2 0x200))
      (fun t => bytesAt t 0x200 4 == [0x78, 0x56, 0x34, 0x12]) = true ∧
    vectors (((start 0x00002712).setReg 2 0x1000000).setIe true) = true := by decide
/-- L18, L19. -/
theorem test_push :
    gives (step (((start 0x00001410).setReg 1 0xCAFEF00D).setReg 14 0x1000))
      (fun t => bytesAt t 0xFFC 4 == [0x0D, 0xF0, 0xFE, 0xCA] && t.reg 14 == 0xFFC && t.pc == 0x42) = true ∧
    gives (step ((start 0x000014E0).setReg 14 0x1000))
      (fun t => bytesAt t 0xFFC 4 == [0, 0x10, 0, 0] && t.reg 14 == 0xFFC) = true := by decide
/-- L20, L21. -/
theorem test_push_faults :
    halts ((start 0x00001410).setReg 14 0x1002) .storeFault .errorMisaligned 0x40 = true ∧
    halts (start 0x00001410) .storeFault .errorMmioUnmapped 0x40 = true := by decide
/-- L22, L23. -/
theorem test_lwc :
    gives (step (withBytes ((start 0x00004182).setReg 2 0x100) 0x108 [0x01]))
      (fun t => t.reg 1 == 1 && t.pc == 0x42) = true ∧
    gives (step (withBytes ((start 0x000043FF).setReg 3 0x100) 0x1FC [0xEF, 0xBE, 0xAD, 0xDE]))
      (fun t => t.reg 3 == 0xDEADBEEF) = true := by decide
/-- L25. -/
theorem test_lwc_misaligned :
    halts (((start 0x00004182).setReg 2 0x102).setReg 1 0x9) .loadFault .errorMisaligned 0x40 = true := by decide
/-- L24. -/
theorem test_swc :
    gives (step (((start 0x00004582).setReg 1 0xA5A5A5A5).setReg 2 0x100))
      (fun t => bytesAt t 0x108 4 == [0xA5, 0xA5, 0xA5, 0xA5] && t.pc == 0x42) = true := by decide
/-- V1. -/
theorem test_mov :
    gives (step ((start 0x00000123).setReg 3 0xDEADBEEF))
      (fun t => t.reg 2 == 0xDEADBEEF && t.reg 3 == 0xDEADBEEF && t.pc == 0x42) = true := by decide
/-- V3, V5. -/
theorem test_li :
    gives (step (start 0x00005005)) (fun t => t.reg 0 == 5) = true ∧
    gives (step (start 0x00005180)) (fun t => t.reg 1 == 0xFFFFFF80) = true := by decide
/-- V6. -/
theorem test_liu :
    gives (step ((start 0x000061FF).setReg 1 0xFFFFFFFF))
      (fun t => t.reg 1 == 0xFF && t.pc == 0x42) = true := by decide
/-- V7, V8. -/
theorem test_lil :
    gives (step ((start 0x12342F10).setReg 1 0xFFFFFFFF)) (fun t => t.reg 1 == 0x1234 && t.pc == 0x44) = true ∧
    gives (step (start 0xFFFF2F10)) (fun t => t.reg 1 == 0xFFFF) = true := by decide
/-- V9, V10. -/
theorem test_lih :
    gives (step ((start 0xDEAD3010).setReg 1 0x1234)) (fun t => t.reg 1 == 0xDEAD1234) = true ∧
    gives (step ((start 0x00003010).setReg 1 0xFFFFFFFF)) (fun t => t.reg 1 == 0xFFFF) = true := by decide
/-- The rows of 95_test_vectors.md 2.3 with different operands, from the other value of t. -/
theorem test_teq :
    gives (step ((((start 0x00000A12).setReg 1 0xFFFFFFFF).setReg 2 0x1).setT true))
      (fun t => t.t == false && t.pc == 0x42) = true ∧
    gives (step ((((start 0x00000A12).setReg 1 0x1).setReg 2 0xFFFFFFFF).setT true))
      (fun t => t.t == false && t.pc == 0x42) = true ∧
    gives (step ((((start 0x00000A12).setReg 1 0x80000000).setReg 2 0x7FFFFFFF).setT true))
      (fun t => t.t == false && t.pc == 0x42) = true := by decide
/-- The rows of 95_test_vectors.md 2.3 with different operands, from the other value of t. -/
theorem test_tne :
    gives (step ((((start 0x00000B12).setReg 1 0xFFFFFFFF).setReg 2 0x1).setT false))
      (fun t => t.t == true && t.pc == 0x42) = true ∧
    gives (step ((((start 0x00000B12).setReg 1 0x1).setReg 2 0xFFFFFFFF).setT false))
      (fun t => t.t == true && t.pc == 0x42) = true ∧
    gives (step ((((start 0x00000B12).setReg 1 0x80000000).setReg 2 0x7FFFFFFF).setT false))
      (fun t => t.t == true && t.pc == 0x42) = true := by decide
/-- The rows of 95_test_vectors.md 2.3 with different operands, from the other value of t. -/
theorem test_tlt :
    gives (step ((((start 0x00000C12).setReg 1 0xFFFFFFFF).setReg 2 0x1).setT false))
      (fun t => t.t == true && t.pc == 0x42) = true ∧
    gives (step ((((start 0x00000C12).setReg 1 0x1).setReg 2 0xFFFFFFFF).setT true))
      (fun t => t.t == false && t.pc == 0x42) = true ∧
    gives (step ((((start 0x00000C12).setReg 1 0x80000000).setReg 2 0x7FFFFFFF).setT false))
      (fun t => t.t == true && t.pc == 0x42) = true := by decide
/-- The rows of 95_test_vectors.md 2.3 with different operands, from the other value of t. -/
theorem test_tltu :
    gives (step ((((start 0x00000D12).setReg 1 0xFFFFFFFF).setReg 2 0x1).setT true))
      (fun t => t.t == false && t.pc == 0x42) = true ∧
    gives (step ((((start 0x00000D12).setReg 1 0x1).setReg 2 0xFFFFFFFF).setT false))
      (fun t => t.t == true && t.pc == 0x42) = true ∧
    gives (step ((((start 0x00000D12).setReg 1 0x80000000).setReg 2 0x7FFFFFFF).setT true))
      (fun t => t.t == false && t.pc == 0x42) = true := by decide
/-- The rows of 95_test_vectors.md 2.3 with different operands, from the other value of t. -/
theorem test_tge :
    gives (step ((((start 0x00000E12).setReg 1 0xFFFFFFFF).setReg 2 0x1).setT true))
      (fun t => t.t == false && t.pc == 0x42) = true ∧
    gives (step ((((start 0x00000E12).setReg 1 0x1).setReg 2 0xFFFFFFFF).setT false))
      (fun t => t.t == true && t.pc == 0x42) = true ∧
    gives (step ((((start 0x00000E12).setReg 1 0x80000000).setReg 2 0x7FFFFFFF).setT true))
      (fun t => t.t == false && t.pc == 0x42) = true := by decide
/-- The rows of 95_test_vectors.md 2.3 with different operands, from the other value of t. -/
theorem test_tgeu :
    gives (step ((((start 0x00000F12).setReg 1 0xFFFFFFFF).setReg 2 0x1).setT false))
      (fun t => t.t == true && t.pc == 0x42) = true ∧
    gives (step ((((start 0x00000F12).setReg 1 0x1).setReg 2 0xFFFFFFFF).setT true))
      (fun t => t.t == false && t.pc == 0x42) = true ∧
    gives (step ((((start 0x00000F12).setReg 1 0x80000000).setReg 2 0x7FFFFFFF).setT false))
      (fun t => t.t == true && t.pc == 0x42) = true := by decide
/-- The first row of 95_test_vectors.md 2.3. -/
theorem test_tests_of_equal_operands :
    gives (step ((((start 0x00000A12).setReg 1 0x1).setReg 2 0x1).setT false)) (fun t => t.t == true) = true ∧
    gives (step ((((start 0x00000B12).setReg 1 0x1).setReg 2 0x1).setT true)) (fun t => t.t == false) = true ∧
    gives (step ((((start 0x00000C12).setReg 1 0x1).setReg 2 0x1).setT true)) (fun t => t.t == false) = true ∧
    gives (step ((((start 0x00000D12).setReg 1 0x1).setReg 2 0x1).setT true)) (fun t => t.t == false) = true ∧
    gives (step ((((start 0x00000E12).setReg 1 0x1).setReg 2 0x1).setT false)) (fun t => t.t == true) = true ∧
    gives (step ((((start 0x00000F12).setReg 1 0x1).setReg 2 0x1).setT false))
      (fun t => t.t == true) = true := by decide
/-- B1, B2. -/
theorem test_j :
    gives (step ((start 0x00001030).setReg 3 0x200)) (fun t => t.pc == 0x200 && t.retired == 1) = true ∧
    gives (step ((start 0x00001030).setReg 3 0x201)) (fun t => t.pc == 0x201 && t.retired == 1) = true := by decide
/-- B5, B6. -/
theorem test_jal :
    gives (step ((start 0x00001130).setReg 3 0x200)) (fun t => t.pc == 0x200 && t.reg 15 == 0x42) = true ∧
    gives (step ((start 0x000011F0).setReg 15 0x300)) (fun t => t.pc == 0x300 && t.reg 15 == 0x42) = true := by decide
/-- B7. -/
theorem test_jt :
    gives (step (((start 0x00001230).setReg 3 0x200).setT true)) (fun t => t.pc == 0x200) = true ∧
    gives (step ((start 0x00001230).setReg 3 0x200)) (fun t => t.pc == 0x42) = true := by decide
/-- B8. -/
theorem test_jf :
    gives (step ((start 0x00001330).setReg 3 0x200)) (fun t => t.pc == 0x200) = true ∧
    gives (step (((start 0x00001330).setReg 3 0x200).setT true)) (fun t => t.pc == 0x42) = true := by decide
/-- B9, B10, B11. -/
theorem test_bra :
    gives (step (start 0x00008FFE)) (fun t => t.pc == 0x3C) = true ∧
    gives (step (start 0x00008000)) (fun t => t.pc == 0x40 && t.retired == 1) = true ∧
    gives (step (start 0x000087FF)) (fun t => t.pc == 0x103E) = true := by decide
/-- B13. -/
theorem test_bra_wraps :
    gives (step (({ State.reset with pc := 0 } : State).withFetchWord 16 0x8FFE))
      (fun t => t.pc == 0xFFFFFFFC) = true := by decide
/-- B14. -/
theorem test_bt :
    gives (step ((start 0x00009003).setT true)) (fun t => t.pc == 0x46) = true ∧
    gives (step (start 0x00009003)) (fun t => t.pc == 0x42) = true := by decide
/-- B15. -/
theorem test_bf :
    gives (step (start 0x0000AFFC)) (fun t => t.pc == 0x38) = true ∧
    gives (step ((start 0x0000AFFC).setT true)) (fun t => t.pc == 0x42) = true := by decide
/-- B16, B17. -/
theorem test_jmp :
    gives (step (start 0x0000B080)) (fun t => t.pc == 0x140) = true ∧
    gives (step (start 0xFFFFBFFF)) (fun t => t.pc == 0x3E) = true := by decide
/-- B18. -/
theorem test_call :
    gives (step (start 0x0001C000)) (fun t => t.pc == 0x2040 && t.reg 15 == 0x44) = true := by decide
/-- A1, A2. -/
theorem test_add :
    gives (step (((start 0x00000212).setReg 1 0xFFFFFFFF).setReg 2 0x1))
      (fun t => t.reg 1 == 0x00000000 && t.pc == 0x42) = true ∧
    gives (step (((start 0x00000212).setReg 1 0x7FFFFFFF).setReg 2 0x1))
      (fun t => t.reg 1 == 0x80000000) = true := by decide
/-- A4, A5. -/
theorem test_sub :
    gives (step ((start 0x00000312).setReg 2 0x1)) (fun t => t.reg 1 == 0xFFFFFFFF && t.pc == 0x42) = true ∧
    gives (step ((start 0x00000311).setReg 1 0x4D2)) (fun t => t.reg 1 == 0x00000000) = true := by decide
/-- A6. -/
theorem test_and :
    gives (step (((start 0x00000412).setReg 1 0xF0F0F0F0).setReg 2 0xFF00FF00))
      (fun t => t.reg 1 == 0xF000F000 && t.pc == 0x42) = true := by decide
/-- A7. -/
theorem test_or :
    gives (step (((start 0x00000512).setReg 1 0xF0F0F0F0).setReg 2 0xFF00FF00))
      (fun t => t.reg 1 == 0xFFF0FFF0 && t.pc == 0x42) = true := by decide
/-- A8, A9. -/
theorem test_xor :
    gives (step (((start 0x00000612).setReg 1 0xF0F0F0F0).setReg 2 0xFF00FF00))
      (fun t => t.reg 1 == 0x0FF00FF0 && t.pc == 0x42) = true ∧
    gives (step ((start 0x00000611).setReg 1 0x63)) (fun t => t.reg 1 == 0x00000000) = true := by decide
/-- A10, A11, A12, A13. -/
theorem test_shl :
    gives (step (((start 0x00000712).setReg 1 0x1).setReg 2 0x21))
      (fun t => t.reg 1 == 0x00000002 && t.pc == 0x42) = true ∧
    gives (step (((start 0x00000712).setReg 1 0x1).setReg 2 0x20)) (fun t => t.reg 1 == 0x00000001) = true ∧
    gives (step (((start 0x00000712).setReg 1 0x3).setReg 2 0x1F)) (fun t => t.reg 1 == 0x80000000) = true ∧
    gives (step ((start 0x00000711).setReg 1 0x4)) (fun t => t.reg 1 == 0x00000040) = true := by decide
/-- A14, A15. -/
theorem test_shr :
    gives (step (((start 0x00000812).setReg 1 0x80000000).setReg 2 0x1F))
      (fun t => t.reg 1 == 0x00000001 && t.pc == 0x42) = true ∧
    gives (step (((start 0x00000812).setReg 1 0x80000000).setReg 2 0x0))
      (fun t => t.reg 1 == 0x80000000) = true := by decide
/-- A16, A17, A18. -/
theorem test_sar :
    gives (step (((start 0x00000912).setReg 1 0x80000000).setReg 2 0x1F))
      (fun t => t.reg 1 == 0xFFFFFFFF && t.pc == 0x42) = true ∧
    gives (step (((start 0x00000912).setReg 1 0x7FFFFFFF).setReg 2 0x1F)) (fun t => t.reg 1 == 0x00000000) = true ∧
    gives (step (((start 0x00000912).setReg 1 0x80000000).setReg 2 0x4))
      (fun t => t.reg 1 == 0xF8000000) = true := by decide
/-- A19, A20, A21. -/
theorem test_addi :
    gives (step (start 0xFFFF2812)) (fun t => t.reg 1 == 0xFFFFFFFF && t.pc == 0x44) = true ∧
    gives (step ((start 0x7FFF2812).setReg 2 0x7FFFFFFF)) (fun t => t.reg 1 == 0x80007FFE) = true ∧
    gives (step (start 0x80002812)) (fun t => t.reg 1 == 0xFFFF8000) = true := by decide
/-- A22. -/
theorem test_andi :
    gives (step ((start 0x00FF2912).setReg 2 0x12345678))
      (fun t => t.reg 1 == 0x00000078 && t.pc == 0x44) = true := by decide
/-- A23. -/
theorem test_ori :
    gives (step (start 0x80002A12)) (fun t => t.reg 1 == 0x00008000 && t.pc == 0x44) = true := by decide
/-- A24. -/
theorem test_xori :
    gives (step ((start 0xFFFF2B12).setReg 2 0xFFFFFFFF))
      (fun t => t.reg 1 == 0xFFFF0000 && t.pc == 0x44) = true := by decide
/-- A25, A26, A27. -/
theorem test_shli :
    gives (step ((start 0x00042C12).setReg 2 0xF000000)) (fun t => t.reg 1 == 0xF0000000 && t.pc == 0x44) = true ∧
    gives (step ((start 0x00202C12).setReg 2 0x5)) (fun t => t.reg 1 == 0x00000005) = true ∧
    gives (step ((start 0x00212C12).setReg 2 0x5)) (fun t => t.reg 1 == 0x0000000A) = true := by decide
/-- A28, A29. -/
theorem test_shri :
    gives (step ((start 0x00042D12).setReg 2 0xF000000)) (fun t => t.reg 1 == 0x00F00000 && t.pc == 0x44) = true ∧
    gives (step ((start 0x001F2D12).setReg 2 0xFFFFFFFF)) (fun t => t.reg 1 == 0x00000001) = true := by decide
/-- A30, A31, A32. -/
theorem test_sari :
    gives (step ((start 0x00042E12).setReg 2 0xF0000000)) (fun t => t.reg 1 == 0xFF000000 && t.pc == 0x44) = true ∧
    gives (step ((start 0x001F2E12).setReg 2 0x80000000)) (fun t => t.reg 1 == 0xFFFFFFFF) = true ∧
    gives (step ((start 0xFFFF2E12).setReg 2 0x80000000)) (fun t => t.reg 1 == 0xFFFFFFFF) = true := by decide
/-- I1. -/
theorem test_ei :
    gives (step (start 0x00001500)) (fun t => t.ie == true && t.pc == 0x42 && t.retired == 1) = true := by decide
/-- I2. -/
theorem test_di :
    gives (step ((start 0x00001600).setIe true)) (fun t => t.ie == false && t.pc == 0x42) = true := by decide
/-- I3. -/
theorem test_reti :
    gives (step { (start 0x00001700) with saved := 0x80 })
      (fun t => t.ie == true && t.pc == 0x80 && t.saved == 0x80 && t.retired == 1) = true := by decide
/-- I5, I6. -/
theorem test_wait_halts :
    halts (start 0x00001800) .waitWhileDisabled .ok 0x40 = true ∧
    halts { ((start 0x00001800).setIe true) with cfg := { Params.default with waitMode := .fatal } } .waitUnimplemented .ok 0x40 = true := by decide
/-- I7. -/
theorem test_wait_suspends :
    gives (step ((start 0x00001800).setIe true))
      (fun t => t.run == .waiting && t.pc == 0x42 && t.retired == 1 && t.ie == true) = true := by decide
/-- I10, I11. -/
theorem test_unknown :
    vectors ((({ State.reset with pc := 0x20 } : State).withFetchWord 32 0xFF00).setIe true) = true ∧
    halts ({ State.reset with pc := 0x20 } : State) .illegalInstruction .ok 0x20 = true := by decide

/-! ### Waiting, fetch, MMIO, sampling, host actions (95_test_vectors.md 2.6 and 2.8) -/

/-- The state after I7. -/
def waiting : State := { State.reset with pc := 0x42, ie := true, run := .waiting, retired := 1 }

/-- I8. -/
theorem test_waiting_core_has_no_step :
    stops (step waiting) .coreWaiting = true := by decide
/-- I9. -/
theorem test_waiting_core_wakes :
    gives (step { waiting with irq := [3, 2] })
      (fun t => t.run == .running && !t.ie && t.saved == 0x42 && t.pc == 0x120 && t.retired == 1) = true := by decide
/-- F1, F2. -/
theorem test_fetch_at_odd_pc :
    vectors ({ State.reset with pc := 0x41, ie := true } : State) = true ∧
    halts ({ State.reset with pc := 0x41 } : State) .fetchFault .errorMisaligned 0x41 = true := by decide
/-- A small RAM that ends at 0x44, with `li r0, 5` in its last half (F3, F4). -/
def smallRam (mmioBase : Word) : State :=
  withBytes { State.reset with pc := 0x42, cfg := { Params.default with ramSize := 0x44, mmioBase := mmioBase } } 0x42
    [0x05, 0x50]

/-- F3, F4. -/
theorem test_fetch_past_ram :
    halts (smallRam 0xF0000000) .fetchFault .errorUnmapped 0x42 = true ∧
    gives (step (withHooks (smallRam 0x44) [.returns ⟨.ok, 0⟩]))
      (fun t => t.reg 0 == 5 && t.pc == 0x44 && t.mmioLog == [.read 0 .half]) = true := by decide
/-- F5, F6. -/
theorem test_fetch_from_mmio_stops_at_the_low_half :
    gives (step (withHooks { State.reset with pc := 0xF0000000 } [.returns ⟨.errorMmioPeripheralError, 0⟩]))
      (fun t => t.halt == some ⟨.fetchFault, .errorMmioPeripheralError, 0xF0000000⟩ &&
        t.mmioLog == [.read 0 .half]) = true ∧
    halts ({ State.reset with pc := 0xFFFFFFFE } : State) .fetchFault .errorMmioUnmapped 0xFFFFFFFE = true := by decide
/-- M1, M2, M3. -/
theorem test_mmio_loads :
    gives (step (withHooks ((start 0x00002012).setReg 2 0xF0000000) [.returns ⟨.ok, 0x12345678⟩]))
      (fun t => t.reg 1 == 0x78 && t.mmioLog == [.read 0 .byte]) = true ∧
    gives (step (withHooks ((start 0x00002112).setReg 2 0xF0000000) [.returns ⟨.ok, 0x12345678⟩]))
      (fun t => t.reg 1 == 0x78) = true ∧
    gives (step (withHooks ((start 0x00002212).setReg 2 0xF0000000) [.returns ⟨.ok, 0xFFFF8000⟩]))
      (fun t => t.reg 1 == 0xFFFF8000) = true := by decide
/-- M4, M5. -/
theorem test_mmio_load_faults :
    halts (withHooks ((start 0x00022412).setReg 2 0xF0000000) []) .loadFault .errorMisaligned 0x40 = true ∧
    halts (withHooks ((start 0x00002412).setReg 2 0xF0000000) [.returns ⟨.errorMmioGranularityIllegal, 0⟩]) .loadFault .errorMmioGranularityIllegal 0x40 = true := by decide
/-- M6, M7. -/
theorem test_mmio_stores :
    gives (step (withHooks (((start 0x00002512).setReg 1 0x1FF).setReg 2 0xF0000010) [.returns ⟨.ok, 0⟩]))
      (fun t => t.mmioLog == [.write 0x10 .byte 0xFF] && t.pc == 0x44) = true ∧
    gives (step (withHooks ((((start 0x00002712).setReg 1 0x1FF).setReg 2 0xF0000010).setIe true)
        [.returns ⟨.errorMmioPeripheralError, 0⟩]))
      (fun t => t.mmioLog == [.write 0x10 .word 0x1FF] && t.pc == 0x100 && t.saved == 0x40) = true := by decide
/-- M8, M9, M10. -/
theorem test_class_boundaries :
    gives (step (((start 0xFFFF2012).setReg 2 0x1000000).setReg 1 0x7)) (fun t => t.reg 1 == 0) = true ∧
    halts ((start 0x00002012).setReg 2 0x1000000) .loadFault .errorUnmapped 0x40 = true ∧
    halts (withHooks ((start 0x00002012).setReg 2 0xEFFFFFFF) []) .loadFault .errorUnmapped 0x40 = true := by decide
/-- 70_reset_and_hazards.md R310. -/
theorem test_hook_that_never_returns_sticks :
    stops (step (withHooks ((start 0x00002412).setReg 2 0xF0000000) [.blocks])) .hookBlocked = true := by decide
/-- Q1, Q3. -/
theorem test_request_is_taken_before_fetch :
    gives (step { ((start 0x00005005).setIe true) with irq := [1] })
      (fun t => t.pc == 0x110 && t.saved == 0x40 && !t.ie && t.reg 0 == 0 && t.retired == 0) = true ∧
    gives (step { ((start 0x00005005).setIe true) with irq := [15, 4] }) (fun t => t.pc == 0x140) = true := by decide
/-- Q2. -/
theorem test_masked_request_is_ignored :
    gives (step { (start 0x00005005) with irq := [1] })
      (fun t => t.reg 0 == 5 && t.pc == 0x42 && t.irq == [1]) = true := by decide
/-- 60_exceptions.md R281. -/
theorem test_vector_0_and_absent_vectors_cannot_be_requested :
    gives (step { ((start 0x00005005).setIe true) with irq := [0, 16] })
      (fun t => t.reg 0 == 5 && t.pc == 0x42) = true := by decide
/-- W1. -/
theorem test_boot_scenario :
    gives (step { State.reset with script := [.reset [0x05, 0x50, 0x00, 0x80]] })
      (fun t => gives (step t) (fun u => u.reg 0 == 5 && u.pc == 2 && u.retired == 1)) = true := by decide
/-- 70_reset_and_hazards.md R300. -/
theorem test_reset_leaves_halted :
    gives (step { State.reset with run := .halted, pc := 6, script := [.reset [0xAA]] })
      (fun t => t.run == .running && t.pc == 0 && t.halt == none && t.ram == [(0, 0xAA)]) = true := by decide
/-- 70_reset_and_hazards.md R303. -/
theorem test_reset_truncates_and_warns :
    gives (step { smallRam 0x44 with script := [.reset (List.replicate 0x45 0xAA)] })
      (fun t => t.loadWarning && t.ram.read 0x43 == 0xAA && t.ram.read 0x44 == 0) = true := by decide
/-- 60_exceptions.md R281, 70_reset_and_hazards.md R304. -/
theorem test_host_actions :
    gives (step { State.reset with script := [.setLine 3 true, .stop] })
      (fun t => t.irq == [3] && t.script == [.stop] && t.retired == 0) = true ∧
    gives (step { State.reset with script := [.configureHooks true false] })
      (fun t => t.readHook && !t.writeHook) = true := by decide
/-- 40_dispatch.md R120. -/
theorem test_halted_core_has_no_step :
    stops (step { State.reset with run := .halted }) .coreHalted = true := by decide

/-- 40_dispatch.md R129: `stop` is done before the core steps, a stopped run makes no core step, and a resumed one goes
on with its next step. -/
theorem test_stop_and_resume :
    gives (step ((start 0x5005).setScript [.stop, .letCoreStep])) (fun t => t.stopped && t.retired == 0) = true ∧
    step ((start 0x5005).setStopped true) = .fault .runStopped ∧
    gives (step (((start 0x5005).setStopped false).setScript [.letCoreStep])) (fun t => t.reg 0 == 5) = true :=
  ⟨by decide, rfl, by decide⟩

/-- 70_reset_and_hazards.md R310: a keepalive hook that never returns leaves the machine stuck; one that returns changes
nothing (40_dispatch.md R131). -/
theorem test_keepalive :
    step (State.reset.setScript [.keepalive false]) = .fault .keepaliveBlocked ∧
    step (State.reset.setScript [.keepalive true]) = .next State.reset := ⟨rfl, rfl⟩

theorem test_reset_memory_is_canonical : State.reset.ram.wf = true := by decide
theorem test_resetting_the_reset_state_changes_nothing : State.reset.resetWith [] = State.reset := by decide
theorem test_first_step_after_reset_is_illegal : halts State.reset .illegalInstruction .ok 0 = true := by decide
theorem test_memory_write_keeps_the_canonical_form :
    Memory.writeBytes [] 4 [1, 0, 2] = [(4, 1), (6, 2)] ∧ Memory.write [(4, 1), (6, 2)] 4 0 = [(6, 2)] ∧
    Memory.wf [(6, 2), (4, 1)] = false ∧ Memory.wf [(4, 0)] = false := by decide

/-! ### Witnesses: for every statement with hypotheses, states and operands that meet them

Each theorem is named for the statement of Certificates/Slice0/Obligations.lean whose hypotheses it meets, at boundary
values of each clause. -/

/-- The reset state with one register set. -/
def withReg (r : RegId) (v : Word) : State := State.reset.setReg r v

theorem test_witness_EncodeThenDecodeIsIdentity :
    (Instr.unknown 0x00001FFF).wf = true ∧ (Instr.unknown 0xFFFFD000).wf = true ∧ (Instr.lw 15 0 0x8000).wf = true := by
  decide

theorem test_witness_BytesDecodeAndAreConsumed :
    ((∀ u, Instr.ei ≠ .unknown u) ∧ 4 ≤ Instr.ei.len + [0x12#8, 0x34#8].length) ∧
    ((∀ u, Instr.jmp 0x8000000 ≠ .unknown u) ∧ 4 ≤ (Instr.jmp 0x8000000).len + ([] : List Byte).length) :=
  ⟨⟨nofun, by decide⟩, ⟨nofun, by decide⟩⟩

theorem test_witness_UnusedBitsAreIgnored :
    ((∀ u, decode 0x00005005 ≠ .unknown u) ∧ (decode 0x00005005).len = 2 ∧
      (0xFFFF5005 : Word).extractLsb' 0 16 = (0x00005005 : Word).extractLsb' 0 16) ∧
    ((0x101F : Word).extractLsb' 8 8 ∈ [0x10#8, 0x11#8, 0x12#8, 0x13#8, 0x14#8, 0x2F#8, 0x30#8] ∧
      (0x1010 : Word).extractLsb' 4 28 = (0x101F : Word).extractLsb' 4 28) ∧
    ((0x18FF : Word).extractLsb' 8 8 ∈ [0x15#8, 0x16#8, 0x17#8, 0x18#8] ∧
      (0x1800 : Word).extractLsb' 8 24 = (0x18FF : Word).extractLsb' 8 24) ∧
    ((∀ u, Instr.bf 0xFFF ≠ .unknown u) ∧ (Instr.bf 0xFFF).len = 2) ∧
    Instr.lih 15 0xFFFF ∈ [Instr.j 15, .jal 15, .jt 15, .jf 15, .push 15, .lil 15 0xFFFF, .lih 15 0xFFFF] ∧
    Instr.wait ∈ [Instr.ei, .di, .reti, .wait] := by
  have h : decode 0x00005005 = .li 0 5 := by decide
  exact ⟨⟨by rw [h]; nofun, by decide, by decide⟩, by decide, by decide, ⟨nofun, rfl⟩, by simp, by simp⟩

theorem test_witness_UnknownWordsRaiseIllegalInstruction :
    decode 0x00001900 = .unknown 0x1900 ∧ isUnassignedTop ((0x00001900 : Word).extractLsb' 8 8) = true := by decide

theorem test_witness_DiscriminatorClassesAreDisjoint :
    (decode8 0x3000).isSome = true ∧ (decode6 0x4700).isSome = true ∧ (∀ u, Instr.lih 0 0 ≠ .unknown u) ∧
    decode8 0x3000 = some (.lih 0 0) :=
  ⟨by decide, by decide, nofun, by decide⟩

/-- The lowest and highest operands of each format's words (the hypotheses of `EncodesRR` and its like). -/
theorem test_witness_encodings :
    (0x0000FFFF : Word).extractLsb' 12 4 = 0xF ∧ (0x00000100 : Word).extractLsb' 8 8 = 0x01 ∧
    (0xFFFF0FFF : Word).extractLsb' 8 8 = 0x0F ∧ (0xFFFF30FF : Word).extractLsb' 8 8 = 0x30 ∧
    (0x00004000 : Word).extractLsb' 10 6 = 0b010000 ∧ (0x000047FF : Word).extractLsb' 10 6 = 0b010001 ∧
    (0x00005FFF : Word).extractLsb' 12 4 = 0x5 ∧ (0x0000AFFF : Word).extractLsb' 12 4 = 0xA ∧
    ((0xFFFFCFFF : Word).extractLsb' 12 4 = 0xC ∧
      (0xFFFFFFF : BitVec 28).toNat = ((0xFFFFCFFF : Word).extractLsb' 16 16).toNat * 2 ^ 12 +
        ((0xFFFFCFFF : Word).extractLsb' 0 12).toNat) := by decide

theorem test_witness_TBitIsWrittenByTestsAndReadByConditionals :
    (isTest (.add 1 2) = false ∧ ∃ t, exec (.add 1 2) State.reset = .next t) ∧
    readsT (.teq 1 2) = false ∧ readsT (.mov 1 2) = false :=
  ⟨⟨rfl, _, rfl⟩, rfl, rfl⟩

theorem test_witness_OddPcComesOnlyFromRegisterJumpsAndReti :
    State.reset.cfg.wf = true ∧ State.reset.pc.toNat % 2 = 0 ∧ jumpsToAnyWord (.bra 0x800) = false ∧
    ∃ t, exec (.bra 0x800) State.reset = .next t :=
  ⟨by decide, by decide, rfl, _, rfl⟩

theorem test_witness_NoAlignedAccessStraddlesClasses :
    Params.default.wf = true ∧ (0x00FFFFFC : Word).toNat % Gran.word.bytes = 0 ∧ 3 < Gran.word.bytes ∧
    classify Params.default 0x00FFFFFC = .ram ∧ (0xFFFFFFFC : Word).toNat % Gran.word.bytes = 0 := by decide

theorem test_witness_ClassificationComesBeforeAlignment :
    (State.reset.cfg.ramSize ≤ (0x01000000 : Word).toNat ∧
      (0xEFFFFFFF : Word).toNat < State.reset.cfg.mmioBase.toNat) ∧
    ((0x00FFFFFF : Word).toNat < State.reset.cfg.ramSize ∧ (0x00FFFFFF : Word).toNat % Gran.half.bytes ≠ 0) ∧
    (State.reset.cfg.mmioBase.toNat ≤ (0xF0000002 : Word).toNat ∧ (0xF0000002 : Word).toNat % Gran.word.bytes ≠ 0) := by
  decide

theorem test_witness_NarrowReadsSeeTheBytesOfAWordWrite :
    State.reset.cfg.wf = true ∧ (0x00FFFFFC : Word).toNat < State.reset.cfg.ramSize ∧
    (0x00FFFFFC : Word).toNat % 4 = 0 := by decide

theorem test_witness_RamWriteThenReadReturnsTheValue :
    (0x00FFFFFE : Word).toNat < State.reset.cfg.ramSize ∧ (0x00FFFFFE : Word).toNat % Gran.half.bytes = 0 := by decide

theorem test_witness_FailedAccessesAndReadsChangeNoRam :
    State.reset.memWrite 0x01000000 .byte 1 = .failed .errorUnmapped State.reset ∧
    State.reset.memRead 0x00FFFFFF .half = .failed .errorMisaligned State.reset ∧
    State.reset.memRead 0 .word = .ok 0 State.reset := ⟨rfl, rfl, rfl⟩

theorem test_witness_MmioAccessesMakeExactlyOneHookCall :
    (∃ s', (withHooks State.reset [.returns ⟨.ok, 7⟩]).memRead 0xF0000000 .word = .ok 7 s') ∧
    (∃ s', (withHooks State.reset [.returns ⟨.errorMmioUnmapped, 7⟩]).memRead 0xFFFFFFFC .word =
      .failed .errorMmioUnmapped s') ∧
    (∃ s', (withHooks State.reset [.returns ⟨.ok, 0⟩]).memWrite 0xF0000000 .byte 0x1FF = .ok () s') ∧
    (∃ s', (withHooks State.reset [.returns ⟨.errorMmioPeripheralError, 0⟩]).memWrite 0xFFFFFFFF .byte 1 =
      .failed .errorMmioPeripheralError s') :=
  ⟨⟨_, rfl⟩, ⟨_, rfl⟩, ⟨_, rfl⟩, ⟨_, rfl⟩⟩

/-- The hypotheses of `LoadRule` at the last RAM word and the first unmapped address. -/
theorem test_witness_LoadsFollowTheMmuRead :
    (withReg 2 0x00FFFFFC).memRead ((withReg 2 0x00FFFFFC).reg 2 + (0 : BitVec 16).signExtend 32) .word =
      .ok 0 (withReg 2 0x00FFFFFC) ∧
    (withReg 2 0x01000000).memRead ((withReg 2 0x01000000).reg 2 + (0 : BitVec 16).signExtend 32) .byte =
      .failed .errorUnmapped (withReg 2 0x01000000) ∧
    (withReg 2 0x00FFFF00).memRead ((withReg 2 0x00FFFF00).reg 2 + BitVec.ofNat 32 (4 * (63 : BitVec 6).toNat)) .word =
      .ok 0 (withReg 2 0x00FFFF00) := ⟨rfl, rfl, rfl⟩

/-- The hypotheses of `StoreRule` at the last RAM word and the first unmapped address. -/
theorem test_witness_StoresFollowTheMmuWrite :
    (∃ s', (withReg 2 0x00FFFFFC).memWrite ((withReg 2 0x00FFFFFC).reg 2 + (0 : BitVec 16).signExtend 32) .word
      ((withReg 2 0x00FFFFFC).reg 2) = .ok () s') ∧
    (∃ s', (withReg 2 0x01000000).memWrite ((withReg 2 0x01000000).reg 2 + (0 : BitVec 16).signExtend 32) .byte
      ((withReg 2 0x01000000).reg 2) = .failed .errorUnmapped s') := ⟨⟨_, rfl⟩, ⟨_, rfl⟩⟩

theorem test_witness_PushFollowsTheMmuWrite :
    (∃ s', (withReg 14 0x01000000).memWrite ((withReg 14 0x01000000).reg 14 - 4) .word
      ((withReg 14 0x01000000).reg 14) = .ok () s') ∧
    (∃ s', (withReg 14 2).memWrite ((withReg 14 2).reg 14 - 4) .word ((withReg 14 2).reg 1) =
      .failed .errorMisaligned s') := ⟨⟨_, rfl⟩, ⟨_, rfl⟩⟩

theorem test_witness_LoadsFromRamWriteTheBytesAtTheAddress :
    ((withReg 2 0x01000000).reg 2 + (0xFFFC : BitVec 16).signExtend 32).toNat = 0x00FFFFFC ∧
    0x00FFFFFC < (withReg 2 0x01000000).cfg.ramSize ∧ 0x00FFFFFC % 4 = 0 ∧
    ((withReg 2 0x01000000).reg 2 + (0xFFFF : BitVec 16).signExtend 32).toNat < (withReg 2 0x01000000).cfg.ramSize ∧
    ((withReg 3 0x00FFFF00).reg ((3 : CRegId).castLE (by decide)) + BitVec.ofNat 32 (4 * (63 : BitVec 6).toNat)).toNat =
      0x00FFFFFC := by decide

theorem test_witness_StoresToRamChangeExactlyTheirBytes :
    (effAddr (withReg 2 0x01000000) 2 0xFFFF).toNat < State.reset.cfg.ramSize ∧
    ((effAddr (withReg 2 0x01000000) 2 0xFFFE).toNat < State.reset.cfg.ramSize ∧
      (effAddr (withReg 2 0x01000000) 2 0xFFFE).toNat % 2 = 0) ∧
    ((effAddr (withReg 2 0x01000000) 2 0xFFFC).toNat < State.reset.cfg.ramSize ∧
      (effAddr (withReg 2 0x01000000) 2 0xFFFC).toNat % 4 = 0) ∧
    ((effAddrC (withReg 3 0x00FFFF00) 3 63).toNat < State.reset.cfg.ramSize ∧
      (effAddrC (withReg 3 0x00FFFF00) 3 63).toNat % 4 = 0) := by decide

theorem test_witness_PushToRamStoresBelowTheStackPointer :
    (pushAddr (withReg 14 0x01000000)).toNat < (withReg 14 0x01000000).cfg.ramSize ∧
    (pushAddr (withReg 14 0x01000000)).toNat % 4 = 0 := by decide

theorem test_witness_DataAccessFaultsAreRouted :
    (dataAccess (.lb 1 2 0) (withReg 2 0x01000000) = some (.load, 0x01000000, .byte) ∧
      State.reset.cfg.ramSize ≤ (0x01000000 : Word).toNat ∧
      (0x01000000 : Word).toNat < State.reset.cfg.mmioBase.toNat) ∧
    (dataAccess (.push 1) (withReg 14 3) = some (.store, 0xFFFFFFFF, .word) ∧
      State.reset.cfg.mmioBase.toNat ≤ (0xFFFFFFFF : Word).toNat ∧ (0xFFFFFFFF : Word).toNat % Gran.word.bytes ≠ 0) ∧
    (dataAccess (.lh 1 2 0) (withReg 2 0x00FFFFFF) = some (.load, 0x00FFFFFF, .half) ∧
      (0x00FFFFFF : Word).toNat < State.reset.cfg.ramSize ∧ (0x00FFFFFF : Word).toNat % Gran.half.bytes ≠ 0) ∧
    (dataAccess (.sw 1 2 0) (withReg 2 0xF0000000) = some (.store, 0xF0000000, .word) ∧
      State.reset.cfg.ramSize ≤ (0xF0000000 : Word).toNat ∧
      State.reset.cfg.mmioBase.toNat ≤ (0xF0000000 : Word).toNat ∧ (0xF0000000 : Word).toNat % Gran.word.bytes = 0 ∧
      (if DataKind.store = .load then State.reset.readHook else State.reset.writeHook) = false) := by decide

/-- A load, at the first MMIO address, whose hook answers Ok. -/
theorem test_witness_MmioLoadsExtendTheHooksTruncatedValue :
    dataAccess (.lh 1 2 0) (withHooks (withReg 2 0xF0000000) [.returns ⟨.ok, 0x18000⟩]) =
      some (.load, 0xF0000000, .half) ∧
    destReg (.lh 1 2 0) = some 1 ∧ classify State.reset.cfg 0xF0000000 = .mmio ∧
    (0xF0000000 : Word).toNat % Gran.half.bytes = 0 ∧
    (withHooks (withReg 2 0xF0000000) [.returns ⟨.ok, 0x18000⟩]).readHook = true ∧
    (withHooks (withReg 2 0xF0000000) [.returns ⟨.ok, 0x18000⟩]).hookAnswers = .returns ⟨.ok, 0x18000⟩ :: [] := by decide

/-- A store, at the last MMIO word, whose hook answers Ok. -/
theorem test_witness_MmioStoresPassTheLowBitsToTheHook :
    dataAccess (.push 1) (withHooks State.reset [.returns ⟨.ok, 0⟩]) = some (.store, 0xFFFFFFFC, .word) ∧
    storeSource (.push 1) = some 1 ∧ classify State.reset.cfg 0xFFFFFFFC = .mmio ∧
    (0xFFFFFFFC : Word).toNat % Gran.word.bytes = 0 ∧
    (withHooks State.reset [.returns ⟨.ok, 0⟩]).writeHook = true ∧
    (withHooks State.reset [.returns ⟨.ok, 0⟩]).hookAnswers = .returns ⟨.ok, 0⟩ :: [] := by decide

theorem test_witness_FailingHooksFaultAndBlockingHooksStick :
    dataAccess (.push 1) State.reset = some (.store, 0xFFFFFFFC, .word) ∧
    classify State.reset.cfg 0xFFFFFFFC = .mmio ∧ (0xFFFFFFFC : Word).toNat % Gran.word.bytes = 0 ∧
    (if DataKind.store = .load then (withHooks State.reset []).readHook else (withHooks State.reset []).writeHook) =
      true ∧
    AccessStatus.errorMmioPeripheralError ≠ .ok ∧
    (withHooks State.reset [.returns ⟨.errorMmioPeripheralError, 1⟩]).hookAnswers =
      .returns ⟨.errorMmioPeripheralError, 1⟩ :: [] ∧
    (withHooks State.reset [.blocks]).hookAnswers = .blocks :: [] ∧
    (dataAccess (.lb 1 2 0) (withHooks (withReg 2 0xF0000000) [.blocks]) = some (.load, 0xF0000000, .byte) ∧
      classify State.reset.cfg 0xF0000000 = .mmio ∧ (0xF0000000 : Word).toNat % Gran.byte.bytes = 0 ∧
      (if DataKind.load = .load then (withHooks State.reset []).readHook else (withHooks State.reset []).writeHook) =
        true) := by decide

theorem test_witness_WaitSuspendsOrHalts :
    (waiting.ie = true ∧ waiting.cfg.waitMode = .suspend) ∧
    (({ waiting with cfg := { Params.default with waitMode := .fatal } } : State).ie = true ∧
      ({ waiting with cfg := { Params.default with waitMode := .fatal } } : State).cfg.waitMode = .fatal) ∧
    State.reset.ie = false := by decide

theorem test_witness_FaultsAreRoutedToVectorZeroOrHalt : waiting.ie = true ∧ State.reset.ie = false := by decide

theorem test_witness_RunningStepsCommitOrArePrecise :
    (start 0x5005).script = [] ∧ (start 0x5005).run = .running ∧ ∃ t, step (start 0x5005) = .next t :=
  ⟨rfl, rfl, _, rfl⟩

/-- An illegal instruction with interrupts enabled. -/
theorem test_witness_RetiAfterFaultReturnsToTheFaultingInstruction :
    (State.reset.setIe true).run = .running ∧
    ∃ t, exec (.unknown 0) (State.reset.setIe true) = .next t ∧ t.retired = (State.reset.setIe true).retired ∧
      t.run = .running := ⟨rfl, _, rfl, rfl, rfl⟩

/-- The state of Q3: lines 15 and 4 raised; and the same with the highest line alone. -/
def requested (lines : List Nat) : State := { State.reset with ie := true, irq := lines }

theorem test_witness_LowestRaisedLineIsTakenBeforeFetch :
    (requested [15, 4]).script = [] ∧ (requested [15, 4]).stopped = false ∧ (requested [15, 4]).run = .running ∧
    (requested [15, 4]).ie = true ∧
    (1 ≤ 4 ∧ 4 < State.reset.cfg.numVectors ∧ 4 ∈ (requested [15, 4]).irq ∧
      ∀ u, 1 ≤ u → u < 4 → u ∉ (requested [15, 4]).irq) ∧
    (15 < State.reset.cfg.numVectors ∧ 15 ∈ (requested [15]).irq ∧ ∀ u, 1 ≤ u → u < 15 → u ∉ (requested [15]).irq) :=
  ⟨rfl, rfl, rfl, rfl, ⟨by decide, by decide, by decide, by simp [requested]; omega⟩,
    by decide, by decide, by simp [requested]; omega⟩

theorem test_witness_MaskedLinesHaveNoEffect :
    State.reset.script = [] ∧ State.reset.run = .running ∧ State.reset.ie = false := by decide

theorem test_witness_WaitingCoreWakesOnlyOnARaisedLine :
    waiting.script = [] ∧ waiting.stopped = false ∧ waiting.run = .waiting ∧ waiting.ie = true ∧
    (∀ v, 1 ≤ v → v < waiting.cfg.numVectors → v ∉ waiting.irq) ∧
    (1 ∈ ({ waiting with irq := [1] } : State).irq ∧
      ∀ u, 1 ≤ u → u < 1 → u ∉ ({ waiting with irq := [1] } : State).irq) :=
  ⟨rfl, rfl, rfl, rfl, by simp [waiting, State.reset], by decide, by omega⟩

/-- A halted core, alone and with the host about to reset it. -/
theorem test_witness_OnlyResetLeavesTheHaltedState :
    (({ State.reset with run := .halted } : State).run = .halted ∧
      ({ State.reset with run := .halted } : State).script = [] ∧
      ({ State.reset with run := .halted } : State).stopped = false) ∧
    ∃ t, step { State.reset with run := .halted, script := [.reset []] } = .next t ∧ t.run ≠ .halted :=
  ⟨by decide, _, rfl, by decide⟩

theorem test_witness_RunStateChangesOnlyByWaitAndFatalFaults :
    State.reset.run = .running ∧ (∃ t, exec .wait State.reset = .next t ∧ t.run = .halted) ∧
    (∃ t, exec .wait (State.reset.setIe true) = .next t ∧ t.run = .waiting) ∧
    (∃ t, exec (.unknown 0) State.reset = .next t ∧ t.run = .halted) ∧
    (∃ t, exec (.lb 1 2 0) (withReg 2 0x01000000) = .next t ∧ t.run = .halted) ∧
    ∃ t, exec .ei State.reset = .next t ∧ t.run = .running :=
  ⟨rfl, ⟨_, rfl, rfl⟩, ⟨_, rfl, rfl⟩, ⟨_, rfl, rfl⟩, ⟨_, rfl, rfl⟩, _, rfl, rfl⟩

theorem test_witness_OnlyTheDestinationRegisterChanges :
    (∃ t, exec (.push 1) (withReg 14 0x100) = .next t) ∧ destReg (.push 1) ≠ some 15 := ⟨⟨_, rfl⟩, by decide⟩

theorem test_witness_OnlyStoresChangeRamAndOnlyTheirBytes :
    (∃ t, exec (.mov 1 2) State.reset = .next t) ∧ isStore (.mov 1 2) = false ∧
    (∃ t, exec (.sb 1 2 3) State.reset = .next t) ∧ dataAccess (.sb 1 2 3) State.reset = some (.store, 3, .byte) ∧
    (2 < (3 : Word).toNat ∧ (3 : Word).toNat + Gran.byte.bytes ≤ 4) := ⟨⟨_, rfl⟩, rfl, ⟨_, rfl⟩, rfl, by decide⟩

/-- A running core with no line raised, its `pc` at the first MMIO address and these hook answers. -/
def fetchingMmio (answers : List HookAnswer) : State := { withHooks State.reset answers with pc := 0xF0000000 }

/-- The last `pc` whose four bytes lie in RAM, and a fetch from MMIO. -/
theorem test_witness_StepExecutesTheDecodedInstruction :
    (∃ s', (fetchingMmio [.returns ⟨.ok, 0x5005⟩, .returns ⟨.ok, 0⟩]).fetch = .ok 0x5005 s') ∧
    State.reset.script = [] ∧ State.reset.stopped = false ∧ State.reset.run = .running ∧
    ((requested []).ie = true → ∀ v, 1 ≤ v → v < (requested []).cfg.numVectors → v ∉ (requested []).irq) ∧
    (0x00FFFFFC : Word).toNat % 2 = 0 ∧ (0x00FFFFFC : Word).toNat + 3 < State.reset.cfg.ramSize ∧
    (0x00FFFFFC : Word).toNat + 3 < 2 ^ 32 ∧ decode (wordOfBytes 0x05 0x50 0x00 0x80) = .li 0 5 :=
  ⟨⟨_, rfl⟩, rfl, rfl, rfl, by simp [requested], by decide, by decide, by decide, by decide⟩

theorem test_witness_OddOrUnmappedPcIsAFetchFault :
    State.reset.script = [] ∧ State.reset.stopped = false ∧ State.reset.run = .running ∧ State.reset.ie = false ∧
    (State.reset.cfg.ramSize ≤ (0x01000000 : Word).toNat ∧
      (0x01000000 : Word).toNat < State.reset.cfg.mmioBase.toNat) ∧
    ((0x00FFFFFF : Word).toNat < State.reset.cfg.ramSize ∧ (0x00FFFFFF : Word).toNat % 2 = 1) ∧
    (State.reset.cfg.mmioBase.toNat ≤ (0xFFFFFFFF : Word).toNat ∧ (0xFFFFFFFF : Word).toNat % 2 = 1) := by decide

theorem test_witness_FetchInTheLastHalfOfRamReachesPastRam :
    ((smallRam 0xF0000000).cfg.wf = true ∧ (smallRam 0xF0000000).pc.toNat = (smallRam 0xF0000000).cfg.ramSize - 2 ∧
      (smallRam 0xF0000000).cfg.ramSize < (smallRam 0xF0000000).cfg.mmioBase.toNat) ∧
    ((smallRam 0x44).cfg.wf = true ∧ (smallRam 0x44).cfg.ramSize = (smallRam 0x44).cfg.mmioBase.toNat ∧
      (withHooks (smallRam 0x44) [.returns ⟨.ok, 0⟩]).readHook = true ∧
      (withHooks (smallRam 0x44) [.returns ⟨.ok, 0⟩]).hookAnswers = .returns ⟨.ok, 0⟩ :: []) ∧
    (smallRam 0x44).readHook = false ∧ AccessStatus.errorMmioGranularityIllegal ≠ .ok ∧
    (withHooks (smallRam 0x44) [.returns ⟨.errorMmioGranularityIllegal, 0⟩]).hookAnswers =
      .returns ⟨.errorMmioGranularityIllegal, 0⟩ :: [] := by decide

theorem test_witness_MmioFetchReadsTheLowHalfFirst :
    classify State.reset.cfg 0xF0000000 = .mmio ∧ classify State.reset.cfg (0xF0000000 + 2) = .mmio ∧
    classify State.reset.cfg 0xFFFFFFFC = .mmio ∧ classify State.reset.cfg (0xFFFFFFFC + 2) = .mmio ∧
    (0xF0000000 : Word).toNat % 2 = 0 ∧ (withHooks State.reset []).readHook = true ∧
    AccessStatus.errorMmioUnmapped ≠ .ok ∧
    (withHooks State.reset [.returns ⟨.errorMmioUnmapped, 0⟩]).hookAnswers = .returns ⟨.errorMmioUnmapped, 0⟩ :: [] ∧
    (withHooks State.reset [.returns ⟨.ok, 1⟩, .returns ⟨.ok, 2⟩]).hookAnswers =
      .returns ⟨.ok, 1⟩ :: .returns ⟨.ok, 2⟩ :: [] ∧
    State.reset.readHook = false ∧
    (withHooks State.reset [.returns ⟨.ok, 1⟩, .returns ⟨.errorMmioUnmapped, 2⟩]).hookAnswers =
      .returns ⟨.ok, 1⟩ :: .returns ⟨.errorMmioUnmapped, 2⟩ :: [] ∧
    (withHooks State.reset [.blocks]).hookAnswers = .blocks :: [] ∧
    (withHooks State.reset [.returns ⟨.ok, 1⟩, .blocks]).hookAnswers = .returns ⟨.ok, 1⟩ :: .blocks :: [] := by decide

theorem test_witness_StoreIsSeenByTheNextFetch :
    State.reset.cfg.wf = true ∧ effAddr State.reset 2 4 = State.reset.pc + 4 ∧
    (effAddr State.reset 2 4).toNat < State.reset.cfg.ramSize ∧ (effAddr State.reset 2 4).toNat % 4 = 0 := by decide

theorem test_witness_ResetLeavesTheStatedValues : 0x00FFFFFF < State.reset.cfg.ramSize := by decide

theorem test_witness_HostResetWorksInEveryRunState :
    ({ waiting with script := [.reset [1, 2], .stop] } : State).script = .reset [1, 2] :: [.stop] := by decide

theorem test_witness_OtherHostActionsChangeNoCoreState :
    ({ State.reset with script := [.setLine 1 true] } : State).script = .setLine 1 true :: [] ∧
    HostAction.setLine 1 true ≠ .letCoreStep ∧ (∀ image, HostAction.setLine 1 true ≠ .reset image) ∧
    HostAction.configureHooks true false ≠ .letCoreStep ∧
    (∀ image, HostAction.configureHooks true false ≠ .reset image) ∧
    HostAction.keepalive false ≠ .letCoreStep ∧ (∀ image, HostAction.keepalive false ≠ .reset image) ∧
    HostAction.setLine 1 true ≠ .keepalive false ∧ HostAction.keepalive true ≠ .keepalive false ∧
    HostAction.stop ≠ .keepalive false ∧ HostAction.resume ≠ .stop :=
  ⟨rfl, by decide, nofun, by decide, nofun, by decide, nofun, by decide, by decide, by decide, by decide⟩

theorem test_witness_EveryStepKeepsTheInvariant :
    (State.reset.cfg.wf = true ∧ State.reset.ram.wf = true ∧ State.reset.ram.within State.reset.cfg.ramSize = true ∧
      State.reset.halt = none) ∧ ∃ t, step State.reset = .next t :=
  ⟨by decide, _, rfl⟩

theorem test_witness_StepsNeverChangeParametersOrSettings :
    (∃ t, step State.reset = .next t) ∧ ∃ t, coreStep (start 0x5005) = .next t := ⟨⟨_, rfl⟩, _, rfl⟩

/-- A fetch whose low half, or whose high half, is unmapped, one whose high-half hook fails, and one that blocks. -/
theorem test_witness_FailedFetchesAreRoutedAndBlockedFetchesStick :
    ((fetchingMmio []).script = [] ∧ (fetchingMmio []).stopped = false ∧ (fetchingMmio []).run = .running ∧
      (fetchingMmio []).ie = false) ∧
    (∃ s', ({ State.reset with pc := 0x01000000 } : State).fetch = .failed .errorUnmapped s') ∧
    (∃ s', ({ State.reset with pc := 0x00FFFFFE } : State).fetch = .failed .errorUnmapped s') ∧
    (∃ s', (fetchingMmio [.returns ⟨.ok, 0⟩, .returns ⟨.errorMmioPeripheralError, 0⟩]).fetch =
      .failed .errorMmioPeripheralError s') ∧
    (fetchingMmio [.blocks]).fetch = .blocked :=
  ⟨by decide, ⟨_, rfl⟩, ⟨_, rfl⟩, ⟨_, rfl⟩, rfl⟩

/-- A stopped run with an empty script and with the core to step; a stop and a resume to come; a step that stops. -/
theorem test_witness_StoppedRunMakesNoCoreStepUntilResume :
    (State.reset.setStopped true).stopped = true ∧ (State.reset.setStopped true).script = [] ∧
    ((State.reset.setStopped true).setScript [.letCoreStep]).script = .letCoreStep :: [] ∧
    (State.reset.setScript [.stop, .resume, .letCoreStep]).script = .stop :: .resume :: [.letCoreStep] ∧
    ∃ t, step (State.reset.setScript [.stop]) = .next t ∧ t.stopped ≠ (State.reset.setScript [.stop]).stopped :=
  ⟨rfl, rfl, rfl, rfl, _, rfl, by decide⟩

end Sys2Proof.Tests
end

section
/-! The t-bit (10_state.md R28): which instructions write it, and which depend on it. A change of `t` before an
instruction commutes with every shared operation of the model, so it reaches the next state and touches nothing else. -/

namespace Sys2Proof.Machine

/-! ### Who writes the t-bit -/

@[simp] theorem State.routeFault_t (s : State) (k : FaultKind) (st : AccessStatus) : (s.routeFault k st).t = s.t := by
  rcases State.routeFault_cases s k st with ⟨-, e⟩ | ⟨-, e⟩ <;> rw [e] <;> rfl

@[simp] theorem State.takeInterrupt_t (s : State) (v : Nat) : (s.takeInterrupt v).t = s.t := by
  cases h : s.ie
  · simp [State.takeInterrupt, State.fire, h]
  · rw [State.takeInterrupt_eq h, State.enterVector_t]

@[simp] theorem State.wakeUp_t (s : State) (v : Nat) : (s.wakeUp v).t = s.t :=
  State.takeInterrupt_t (s.setRun .running) v

theorem exec_t_of_isTest_eq_false {i : Instr} {s t : State} (hi : isTest i = false) (h : exec i s = .next t) :
    t.t = s.t := by
  cases exec_cases h with
  | fault s' k st hooks ram routed cause => rw [routed, State.routeFault_t, hooks.tbit]
  | commit retired run halt saved inputs regs tbit => exact tbit hi
  | halt r isWait why halted => rw [halted]; rfl

/-! ### A change of the t-bit and the memory accesses -/

/-- An access with a function applied to the state after it. -/
def Access.mapState {α : Type} (f : State → State) : Access α → Access α
  | .ok v s => .ok v (f s)
  | .failed st s => .failed st (f s)
  | .blocked => .blocked

theorem State.drawAnswer_setT (s : State) (b : Bool) :
    (s.setT b).drawAnswer = (s.drawAnswer.1, s.drawAnswer.2.setT b) := by
  unfold State.drawAnswer
  rw [State.setT_hookAnswers]
  cases s.hookAnswers <;> rfl

theorem State.callHook_setT (s : State) (b : Bool) (c : MmioCall) :
    (s.setT b).callHook c = (s.callHook c).mapState (·.setT b) := by
  have hd : ((s.setT b).logCall c).drawAnswer = _ := State.drawAnswer_setT (s.logCall c) b
  unfold State.callHook
  rw [hd]
  rcases (s.logCall c).drawAnswer with ⟨⟨⟨st, v⟩⟩ | _, s'⟩
  · cases st <;> rfl
  · rfl

theorem State.memRead_setT (s : State) (b : Bool) (a : Word) (g : Gran) :
    (s.setT b).memRead a g = (s.memRead a g).mapState (·.setT b) := by
  unfold State.memRead
  rw [State.setT_cfg, State.setT_readHook, State.callHook_setT]
  cases classify s.cfg a
  case unmapped => rfl
  case ram => cases g.aligned a <;> rfl
  case mmio =>
    cases g.aligned a <;> cases s.readHook <;> try rfl
    cases s.callHook (.read (a - s.cfg.mmioBase) g) <;> rfl

theorem State.memWrite_setT (s : State) (b : Bool) (a : Word) (g : Gran) (v : Word) :
    (s.setT b).memWrite a g v = (s.memWrite a g v).mapState (·.setT b) := by
  unfold State.memWrite
  rw [State.setT_cfg, State.setT_writeHook, State.callHook_setT]
  cases classify s.cfg a
  case unmapped => rfl
  case ram => cases g.aligned a <;> rfl
  case mmio =>
    cases g.aligned a <;> cases s.writeHook <;> try rfl
    cases s.callHook (.write (a - s.cfg.mmioBase) g (g.trunc v)) <;> rfl

/-! ### A change of the t-bit and the shared shapes of instructions -/

theorem State.routeFault_setT (s : State) (b : Bool) (k : FaultKind) (st : AccessStatus) :
    (s.setT b).routeFault k st = (s.routeFault k st).setT b := by
  rw [State.routeFault_eq, State.routeFault_eq, State.setT_ie]
  cases s.ie <;> rfl

theorem State.loadInto_setT (s : State) (b : Bool) (rd : RegId) (ea : Word) (g : Gran) (ext : Word → Word)
    (len : Word) : (s.setT b).loadInto rd ea g ext len = mapNext (·.setT b) (s.loadInto rd ea g ext len) := by
  unfold State.loadInto
  rw [State.memRead_setT]
  cases s.memRead ea g with
  | ok v s' => rfl
  | failed st s' => exact congrArg Host.Outcome.next (s'.routeFault_setT b .load st)
  | blocked => rfl

theorem State.storeFrom_setT (s : State) (b : Bool) (ea : Word) (g : Gran) (v len : Word) :
    (s.setT b).storeFrom ea g v len = mapNext (·.setT b) (s.storeFrom ea g v len) := by
  unfold State.storeFrom
  rw [State.memWrite_setT]
  cases s.memWrite ea g v with
  | ok u s' => rfl
  | failed st s' => exact congrArg Host.Outcome.next (s'.routeFault_setT b .store st)
  | blocked => rfl

theorem execPush_setT (s : State) (b : Bool) (rs : RegId) :
    execPush rs (s.setT b) = mapNext (·.setT b) (execPush rs s) := by
  have hw : (s.setT b).memWrite (pushAddr (s.setT b)) .word ((s.setT b).reg rs) = _ :=
    State.memWrite_setT s b (pushAddr s) .word (s.reg rs)
  unfold execPush
  rw [hw]
  cases s.memWrite (pushAddr s) .word (s.reg rs) with
  | ok u s' => rfl
  | failed st s' => exact congrArg Host.Outcome.next (s'.routeFault_setT b .store st)
  | blocked => rfl

theorem execWait_setT (s : State) (b : Bool) : execWait (s.setT b) = mapNext (·.setT b) (execWait s) := by
  unfold execWait
  rw [State.setT_ie, State.setT_cfg]
  cases s.ie
  · rfl
  · cases s.cfg.waitMode <;> rfl

/-! ### Who depends on the t-bit -/

/-- A test overwrites the t-bit without reading it. -/
theorem exec_setT_of_isTest {i : Instr} (hi : isTest i = true) (s : State) (b : Bool) :
    exec i (s.setT b) = exec i s := by
  cases i with
  | teq | tne | tlt | tltu | tge | tgeu => rfl
  | _ => cases hi

/-- An instruction that neither writes nor reads the t-bit carries a change of it into its next state. -/
theorem exec_setT {i : Instr} (hw : isTest i = false) (hr : readsT i = false) (s : State) (b : Bool) :
    exec i (s.setT b) = mapNext (·.setT b) (exec i s) := by
  cases i with
  | teq | tne | tlt | tltu | tge | tgeu => cases hw
  | jt | jf | bt | bf => cases hr
  | lb | lbu | lh | lhu | lw | lwc => exact s.loadInto_setT b _ _ _ _ _
  | sb | sh | sw | swc => exact s.storeFrom_setT b _ _ _ _
  | push rs => exact execPush_setT s b rs
  | wait => exact execWait_setT s b
  | unknown w => exact congrArg Host.Outcome.next (s.routeFault_setT b .illegal .ok)
  | _ => rfl

theorem mapNext_id (r : Result) : mapNext (fun t => t) r = r := by cases r <;> rfl

/-- Settles O14: the frame of the t-bit from `exec_cases`, its irrelevance from the commutation lemmas above. -/
theorem tBitIsWrittenByTestsAndReadByConditionals : Obligations.TBitIsWrittenByTestsAndReadByConditionals := by
  refine ⟨fun i s t => exec_t_of_isTest_eq_false, fun i s b hr => ?_, fun s v => ⟨s.takeInterrupt_t v, s.wakeUp_t v⟩⟩
  cases hw : isTest i
  · exact exec_setT hw hr s b
  · exact (exec_setT_of_isTest hw s b).trans (mapNext_id _).symm

end Sys2Proof.Machine
end

section
/-! The checks of the MMU (20_memory.md R57): classification, then alignment, and only then the access. -/

namespace Sys2Proof.Machine

/-! ### Accesses that fail a check -/

theorem Gran.aligned_eq_false_iff (g : Gran) (a : Word) : g.aligned a = false ↔ a.toNat % g.bytes ≠ 0 := by
  rw [← Bool.not_eq_true, Gran.aligned_iff]

theorem classify_ne_unmapped {c : Params} {a : Word} :
    classify c a ≠ .unmapped ↔ a.toNat < c.ramSize ∨ c.mmioBase.toNat ≤ a.toNat := by
  rw [Ne, classify_unmapped]
  omega

/-- An unmapped read fails whatever its alignment. -/
theorem State.memRead_unmapped {s : State} {a : Word} (g : Gran) (h : classify s.cfg a = .unmapped) :
    s.memRead a g = .failed .errorUnmapped s := by
  rw [State.memRead, h]

/-- An unmapped write fails whatever its alignment. -/
theorem State.memWrite_unmapped {s : State} {a : Word} (g : Gran) (v : Word) (h : classify s.cfg a = .unmapped) :
    s.memWrite a g v = .failed .errorUnmapped s := by
  rw [State.memWrite, h]

/-- A misaligned read of a mapped address fails before RAM or a hook is reached. -/
theorem State.memRead_misaligned {s : State} {a : Word} {g : Gran} (h : classify s.cfg a ≠ .unmapped)
    (ha : a.toNat % g.bytes ≠ 0) : s.memRead a g = .failed .errorMisaligned s := by
  have hal := (Gran.aligned_eq_false_iff g a).mpr ha
  cases hc : classify s.cfg a with
  | unmapped => exact absurd hc h
  | ram | mmio => simp [State.memRead, hc, hal]

/-- A misaligned write of a mapped address fails before RAM or a hook is reached. -/
theorem State.memWrite_misaligned {s : State} {a : Word} {g : Gran} (v : Word) (h : classify s.cfg a ≠ .unmapped)
    (ha : a.toNat % g.bytes ≠ 0) : s.memWrite a g v = .failed .errorMisaligned s := by
  have hal := (Gran.aligned_eq_false_iff g a).mpr ha
  cases hc : classify s.cfg a with
  | unmapped => exact absurd hc h
  | ram | mmio => simp [State.memWrite, hc, hal]

/-- Settles O21: the address ranges give the class, and the class and the alignment decide the failure. -/
theorem classificationComesBeforeAlignment : Obligations.ClassificationComesBeforeAlignment := by
  intro s a g v
  refine ⟨fun range => ?_, fun ⟨range, misaligned⟩ => ?_⟩
  · have unmapped := classify_unmapped.mpr range
    exact ⟨State.memRead_unmapped g unmapped, State.memWrite_unmapped g v unmapped⟩
  · have mapped := classify_ne_unmapped.mpr range
    exact ⟨State.memRead_misaligned mapped misaligned, State.memWrite_misaligned v mapped misaligned⟩

end Sys2Proof.Machine
end

section
/-! Bits that no field uses (30_encoding.md R91). The decoder's side goes stage by stage: on two words
with one low half a stage gives one answer, unless the answer is an instruction of 4 bytes. The encoder's side goes
format by format. -/

namespace Sys2Proof.Laws

/-! ### Fields of words that agree on a range of bits -/

/-- Words that agree on a range of bits agree on every field inside it. -/
theorem extractLsb'_eq_of_subrange {w w' : Word} {start len : Nat}
    (agree : w'.extractLsb' start len = w.extractLsb' start len) {s n : Nat}
    (hs : start ≤ s := by decide) (hn : s + n ≤ start + len := by decide) :
    w'.extractLsb' s n = w.extractLsb' s n := by
  apply BitVec.eq_of_getLsbD_eq
  intro i hi
  have bit := congrArg (BitVec.getLsbD · (s - start + i)) agree
  have inside : s - start + i < len := by omega
  have place : start + (s - start + i) = s + i := by omega
  simpa [inside, place, hi] using bit

/-! ### Stages of the decoder on words with one low half -/

/-- Of the 8-bit opcodes only those of format RR16, all of 4 bytes, read a field of the high half. -/
theorem decode8_of_lowHalf {w w' : Word} (low : w'.extractLsb' 0 16 = w.extractLsb' 0 16) :
    decode8 w' = decode8 w ∨ ∃ i, decode8 w = some i ∧ i.len = 4 := by
  have top : discT8 w' = discT8 w := extractLsb'_eq_of_subrange low
  have ra : fieldRa w' = fieldRa w := congrArg BitVec.toFin (extractLsb'_eq_of_subrange low)
  have rb : fieldRb w' = fieldRb w := congrArg BitVec.toFin (extractLsb'_eq_of_subrange low)
  unfold decode8
  rw [top, ra, rb]
  split <;> simp only [Option.some.injEq, exists_eq_left', true_or]
  all_goals exact .inr rfl

theorem decode6_of_lowHalf {w w' : Word} (low : w'.extractLsb' 0 16 = w.extractLsb' 0 16) :
    decode6 w' = decode6 w := by
  have top : discT6 w' = discT6 w := extractLsb'_eq_of_subrange low
  have ca : fieldCa w' = fieldCa w := congrArg BitVec.toFin (extractLsb'_eq_of_subrange low)
  have cb : fieldCb w' = fieldCb w := congrArg BitVec.toFin (extractLsb'_eq_of_subrange low)
  have imm : fieldImm6 w' = fieldImm6 w := extractLsb'_eq_of_subrange low
  rw [decode6, top, ca, cb, imm, decode6]

/-- Of the 4-bit opcodes only those of format B28, both of 4 bytes, read a field of the high half. -/
theorem decode4_of_lowHalf {w w' : Word} (low : w'.extractLsb' 0 16 = w.extractLsb' 0 16) :
    decode4 w' = decode4 w ∨ ∃ i, decode4 w = some i ∧ i.len = 4 := by
  have top : discT4 w' = discT4 w := extractLsb'_eq_of_subrange low
  have ra : fieldRaRI w' = fieldRaRI w := congrArg BitVec.toFin (extractLsb'_eq_of_subrange low)
  have imm8 : fieldImm8 w' = fieldImm8 w := extractLsb'_eq_of_subrange low
  have imm12 : fieldImm12 w' = fieldImm12 w := extractLsb'_eq_of_subrange low
  unfold decode4
  rw [top, ra, imm8, imm12]
  split <;> simp only [Option.some.injEq, exists_eq_left', true_or]
  all_goals exact .inr rfl

/-- The low half tells the instruction, unless it has 4 bytes or is `Unknown`, which keeps the whole word. -/
theorem decode_of_lowHalf {w w' : Word} (low : w'.extractLsb' 0 16 = w.extractLsb' 0 16) :
    decode w' = decode w ∨ (decode w).len = 4 ∨ decode w = .unknown w := by
  unfold decode
  rw [decode6_of_lowHalf low]
  rcases decode8_of_lowHalf low with e8 | ⟨i, e8, four⟩
  · rw [e8]
    cases decode8 w with
    | some i => exact .inl rfl
    | none =>
      cases decode6 w with
      | some i => exact .inl rfl
      | none =>
        rcases decode4_of_lowHalf low with e4 | ⟨i, e4, four⟩
        · rw [e4]
          cases decode4 w with
          | some i => exact .inl rfl
          | none => exact .inr (.inr rfl)
        · rw [e4]
          exact .inr (.inl four)
  · rw [e8]
    exact .inr (.inl four)

/-! ### Opcodes that ignore register fields -/

theorem encodesR_j : EncodesR 0x10 .j := fun w h => decode_of_decode8 (by rw [decode8, discT8, h]; rfl)
theorem encodesR_jal : EncodesR 0x11 .jal := fun w h => decode_of_decode8 (by rw [decode8, discT8, h]; rfl)
theorem encodesR_jt : EncodesR 0x12 .jt := fun w h => decode_of_decode8 (by rw [decode8, discT8, h]; rfl)
theorem encodesR_jf : EncodesR 0x13 .jf := fun w h => decode_of_decode8 (by rw [decode8, discT8, h]; rfl)
theorem encodesR_push : EncodesR 0x14 .push := fun w h => decode_of_decode8 (by rw [decode8, discT8, h]; rfl)
theorem encodesR16_lil : EncodesR16 0x2F .lil := fun w h => decode_of_decode8 (by rw [decode8, discT8, h]; rfl)
theorem encodesR16_lih : EncodesR16 0x30 .lih := fun w h => decode_of_decode8 (by rw [decode8, discT8, h]; rfl)
theorem encodesOp_ei : EncodesOp 0x15 .ei := fun w h => decode_of_decode8 (by rw [decode8, discT8, h]; rfl)
theorem encodesOp_di : EncodesOp 0x16 .di := fun w h => decode_of_decode8 (by rw [decode8, discT8, h]; rfl)
theorem encodesOp_reti : EncodesOp 0x17 .reti := fun w h => decode_of_decode8 (by rw [decode8, discT8, h]; rfl)
theorem encodesOp_wait : EncodesOp 0x18 .wait := fun w h => decode_of_decode8 (by rw [decode8, discT8, h]; rfl)

theorem decode_eq_of_encodesR {op : BitVec 8} {mk : RegId → Instr} (enc : EncodesR op mk) {w w' : Word}
    (top : w.extractLsb' 8 8 = op) (agree : w'.extractLsb' 4 28 = w.extractLsb' 4 28) : decode w' = decode w := by
  have top' : w'.extractLsb' 8 8 = w.extractLsb' 8 8 := extractLsb'_eq_of_subrange agree
  have ra : w'.extractLsb' 4 4 = w.extractLsb' 4 4 := extractLsb'_eq_of_subrange agree
  rw [enc w top, enc w' (top'.trans top), ra]

theorem decode_eq_of_encodesR16 {op : BitVec 8} {mk : RegId → BitVec 16 → Instr} (enc : EncodesR16 op mk)
    {w w' : Word} (top : w.extractLsb' 8 8 = op) (agree : w'.extractLsb' 4 28 = w.extractLsb' 4 28) :
    decode w' = decode w := by
  have top' : w'.extractLsb' 8 8 = w.extractLsb' 8 8 := extractLsb'_eq_of_subrange agree
  have ra : w'.extractLsb' 4 4 = w.extractLsb' 4 4 := extractLsb'_eq_of_subrange agree
  have imm : w'.extractLsb' 16 16 = w.extractLsb' 16 16 := extractLsb'_eq_of_subrange agree
  rw [enc w top, enc w' (top'.trans top), ra, imm]

theorem decode_eq_of_encodesOp {op : BitVec 8} {i : Instr} (enc : EncodesOp op i) {w w' : Word}
    (top : w.extractLsb' 8 8 = op) (agree : w'.extractLsb' 8 24 = w.extractLsb' 8 24) : decode w' = decode w := by
  have top' : w'.extractLsb' 8 8 = w.extractLsb' 8 8 := extractLsb'_eq_of_subrange agree
  rw [enc w top, enc w' (top'.trans top)]

theorem decode_ignores_rb {w w' : Word}
    (top : w.extractLsb' 8 8 ∈ [0x10#8, 0x11#8, 0x12#8, 0x13#8, 0x14#8, 0x2F#8, 0x30#8])
    (agree : w'.extractLsb' 4 28 = w.extractLsb' 4 28) : decode w' = decode w := by
  simp only [List.mem_cons, List.not_mem_nil, or_false] at top
  rcases top with j | jal | jt | jf | push | lil | lih
  · exact decode_eq_of_encodesR encodesR_j j agree
  · exact decode_eq_of_encodesR encodesR_jal jal agree
  · exact decode_eq_of_encodesR encodesR_jt jt agree
  · exact decode_eq_of_encodesR encodesR_jf jf agree
  · exact decode_eq_of_encodesR encodesR_push push agree
  · exact decode_eq_of_encodesR16 encodesR16_lil lil agree
  · exact decode_eq_of_encodesR16 encodesR16_lih lih agree

theorem decode_ignores_ra_rb {w w' : Word} (top : w.extractLsb' 8 8 ∈ [0x15#8, 0x16#8, 0x17#8, 0x18#8])
    (agree : w'.extractLsb' 8 24 = w.extractLsb' 8 24) : decode w' = decode w := by
  simp only [List.mem_cons, List.not_mem_nil, or_false] at top
  rcases top with ei | di | reti | wait
  · exact decode_eq_of_encodesOp encodesOp_ei ei agree
  · exact decode_eq_of_encodesOp encodesOp_di di agree
  · exact decode_eq_of_encodesOp encodesOp_reti reti agree
  · exact decode_eq_of_encodesOp encodesOp_wait wait agree

/-! ### Bits the encoder writes 0 -/

theorem encodeRR_high (op : BitVec 8) (ra rb : RegId) : (encodeRR op ra rb).extractLsb' 16 16 = 0 := by
  apply BitVec.eq_of_getLsbD_eq
  intro i hi
  interval_cases i <;> simp [encodeRR, regBits_eq]

theorem encodeRI_high (op : BitVec 4) (ra : RegId) (imm : BitVec 8) : (encodeRI op ra imm).extractLsb' 16 16 = 0 := by
  apply BitVec.eq_of_getLsbD_eq
  intro i hi
  interval_cases i <;> simp [encodeRI, regBits_eq]

theorem encodeC_high (op : BitVec 6) (ca cb : CRegId) (imm : BitVec 6) :
    (encodeC op ca cb imm).extractLsb' 16 16 = 0 := by
  apply BitVec.eq_of_getLsbD_eq
  intro i hi
  interval_cases i <;> simp [encodeC, cregBits_eq]

theorem encodeB12_high (op : BitVec 4) (imm : BitVec 12) : (encodeB12 op imm).extractLsb' 16 16 = 0 := by
  apply BitVec.eq_of_getLsbD_eq
  intro i hi
  interval_cases i <;> simp [encodeB12]

/-- A register field that reads 0 has its four bits 0. -/
theorem rb_bits_of_fieldRb {w : Word} (h : fieldRb w = 0) : w.extractLsb' 0 4 = 0 := BitVec.eq_of_toFin_eq h

theorem encodeRR_rb_unused (op : BitVec 8) (ra : RegId) : (encodeRR op ra 0).extractLsb' 0 4 = 0 :=
  rb_bits_of_fieldRb (fieldRb_encodeRR op ra 0)

theorem encodeRR16_rb_unused (op : BitVec 8) (ra : RegId) (imm : BitVec 16) :
    (encodeRR16 op ra 0 imm).extractLsb' 0 4 = 0 :=
  rb_bits_of_fieldRb (fieldRb_encodeRR16 op ra 0 imm)

theorem encode_high_of_len_two {i : Instr} (known : ∀ u, i ≠ .unknown u) (len : i.len = 2) :
    (encode i).extractLsb' 16 16 = 0 := by
  cases i with
  | mov | add | sub | and | or | xor | shl | shr | sar => exact encodeRR_high ..
  | teq | tne | tlt | tltu | tge | tgeu => exact encodeRR_high ..
  | j | jal | jt | jf | push | ei | di | reti | wait => exact encodeRR_high ..
  | lwc | swc => exact encodeC_high ..
  | li | liu => exact encodeRI_high ..
  | bra | bt | bf => exact encodeB12_high ..
  | lb | lbu | lh | lhu | lw | sb | sh | sw => cases len
  | addi | andi | ori | xori | shli | shri | sari | lil | lih | jmp | call => cases len
  | unknown u => exact absurd rfl (known u)

theorem encode_rb_unused (r : RegId) (imm : BitVec 16) :
    ∀ i ∈ [Instr.j r, .jal r, .jt r, .jf r, .push r, .lil r imm, .lih r imm], (encode i).extractLsb' 0 4 = 0 := by
  simp only [List.forall_mem_cons]
  exact ⟨encodeRR_rb_unused .., encodeRR_rb_unused .., encodeRR_rb_unused .., encodeRR_rb_unused ..,
    encodeRR_rb_unused .., encodeRR16_rb_unused .., encodeRR16_rb_unused .., nofun⟩

/-- Settles O3: the decoder's stages on one low half, the opcodes that ignore register fields, the encoder's formats. -/
theorem unusedBitsAreIgnored : Obligations.UnusedBitsAreIgnored := by
  refine ⟨fun w w' known len low => ?_, fun w w' => decode_ignores_rb, fun w w' => decode_ignores_ra_rb,
    fun i => encode_high_of_len_two, encode_rb_unused, by decide⟩
  rcases decode_of_lowHalf low with same | four | unknown
  · exact same
  · omega
  · exact absurd unknown (known w)

end Sys2Proof.Laws
end

section
/-! Loads, stores and push (41_loads_stores.md R140 to R153). Each is one shared operation over the MMU, so each of
the three rules is proved once, and an instruction gives it its operands: the address, the width, the extension. -/

namespace Sys2Proof.Laws

/-! ### The opcodes of the loads and stores -/

theorem encodesRR16_lb : EncodesRR16 0x20 .lb := fun w h => decode_of_decode8 (by rw [decode8, discT8, h]; rfl)
theorem encodesRR16_lbu : EncodesRR16 0x21 .lbu := fun w h => decode_of_decode8 (by rw [decode8, discT8, h]; rfl)
theorem encodesRR16_lh : EncodesRR16 0x22 .lh := fun w h => decode_of_decode8 (by rw [decode8, discT8, h]; rfl)
theorem encodesRR16_lhu : EncodesRR16 0x23 .lhu := fun w h => decode_of_decode8 (by rw [decode8, discT8, h]; rfl)
theorem encodesRR16_lw : EncodesRR16 0x24 .lw := fun w h => decode_of_decode8 (by rw [decode8, discT8, h]; rfl)
theorem encodesRR16_sb : EncodesRR16 0x25 .sb := fun w h => decode_of_decode8 (by rw [decode8, discT8, h]; rfl)
theorem encodesRR16_sh : EncodesRR16 0x26 .sh := fun w h => decode_of_decode8 (by rw [decode8, discT8, h]; rfl)
theorem encodesRR16_sw : EncodesRR16 0x27 .sw := fun w h => decode_of_decode8 (by rw [decode8, discT8, h]; rfl)

/-- An answer of the 6-bit stage decides on a word with a 6-bit opcode. -/
theorem decode_of_decode6 {w : Word} {i : Instr} (op : (discT6 w).toNat = 0b010000 ∨ (discT6 w).toNat = 0b010001)
    (h : decode6 w = some i) : decode w = i := by rw [decode_of_discT6 w op, h]

theorem encodesC_lwc : EncodesC 0b010000 .lwc := fun w h =>
  decode_of_decode6 (.inl (by rw [discT6, h]; rfl)) (by rw [decode6, discT6, h]; rfl)

theorem encodesC_swc : EncodesC 0b010001 .swc := fun w h =>
  decode_of_decode6 (.inr (by rw [discT6, h]; rfl)) (by rw [decode6, discT6, h]; rfl)

end Sys2Proof.Laws

namespace Sys2Proof.Machine

open Sys2Proof.Laws

/-! ### Operands -/

theorem sextByte_toInt (v : Word) : (sextByte v).toInt = (v.extractLsb' 0 8).toInt :=
  BitVec.toInt_signExtend_of_le (by decide)

theorem sextHalf_toInt (v : Word) : (sextHalf v).toInt = (v.extractLsb' 0 16).toInt :=
  BitVec.toInt_signExtend_of_le (by decide)

theorem zextByte_toNat (v : Word) : (zextByte v).toNat = v.toNat % 2 ^ 8 := Gran.trunc_toNat .byte v

theorem zextHalf_toNat (v : Word) : (zextHalf v).toNat = v.toNat % 2 ^ 16 := Gran.trunc_toNat .half v

theorem effAddrC_eq (s : State) (b : CRegId) (off : BitVec 6) :
    effAddrC s b off = s.reg (b.castLE (by decide)) + BitVec.ofNat 32 (4 * off.toNat) := by
  rw [effAddrC, compactOffset_eq, compactReg]

/-! ### The rules of the shared load, the shared store and push -/

theorem loadRule_of_loadInto {i : Instr} {s : State} {ea len : Word} {g : Gran} {rd : RegId} {ext : Word → Word}
    {value : Word → Word → Prop} (meaning : exec i s = s.loadInto rd ea g ext len) (extended : ∀ v, value v (ext v)) :
    LoadRule i s ea g rd len value := by
  refine ⟨fun v s' read => ?_, fun st s' read => ?_⟩
  · have hooks := State.memRead_ok_onlyHooks read
    refine ⟨hooks, _, ext v, by rw [meaning, State.loadInto, read], ?_, extended v⟩
    rw [← hooks.pc]
    exact s'.wroteReg_advance rd (ext v) len
  · exact ⟨(State.memRead_failed_onlyHooks read).1, _, by rw [meaning, State.loadInto, read],
      s'.routeFault_routed .load st⟩

theorem storeRule_of_storeFrom {i : Instr} {s : State} {ea len : Word} {g : Gran} {rs : RegId}
    (meaning : exec i s = s.storeFrom ea g (s.reg rs) len) : StoreRule i s ea g rs len := by
  refine ⟨fun u s' write => ?_, fun st s' write => ?_⟩
  · have memory := State.memWrite_ok_onlyMemory write
    refine ⟨memory, _, by rw [meaning, State.storeFrom, write], ?_⟩
    rw [← memory.pc]
    exact s'.wentTo_commit (s'.pc + len)
  · exact ⟨(State.memWrite_failed_onlyHooks write).1, _, by rw [meaning, State.storeFrom, write],
      s'.routeFault_routed .store st⟩

/-- `push` on an MMU write that answers Ok: only then `x[14]` takes the address. -/
theorem exec_push_of_ok {s s' : State} {rs : RegId} {u : Unit}
    (write : s.memWrite (s.reg 14 - 4) .word (s.reg rs) = .ok u s') :
    exec (.push rs) s = .next ((s'.setReg 14 (s.reg 14 - 4)).advance 2) := by
  rw [exec, execPush, pushAddr, spReg, write]

/-- `push` on an MMU write that answers another status. -/
theorem exec_push_of_failed {s s' : State} {rs : RegId} {st : AccessStatus}
    (write : s.memWrite (s.reg 14 - 4) .word (s.reg rs) = .failed st s') :
    exec (.push rs) s = .next (s'.routeFault .store st) := by
  rw [exec, execPush, pushAddr, spReg, write]

/-! ### The compact forms -/

theorem exec_lwc (rd b : CRegId) (off : BitVec 6) (s : State) :
    exec (.lwc rd b off) s = s.loadInto (rd.castLE (by decide))
      (s.reg (b.castLE (by decide)) + BitVec.ofNat 32 (4 * off.toNat)) .word id 2 := by
  rw [exec, execLwc, effAddrC_eq, compactReg]

theorem exec_swc (rs b : CRegId) (off : BitVec 6) (s : State) :
    exec (.swc rs b off) s = s.storeFrom (s.reg (b.castLE (by decide)) + BitVec.ofNat 32 (4 * off.toNat)) .word
      (s.reg (rs.castLE (by decide))) 2 := by
  rw [exec, execSwc, effAddrC_eq, compactReg]

/-! ### The statements -/

/-- Settles O26: each load is the shared load, with its own extension of the value read. -/
theorem loadsFollowTheMmuRead : Obligations.LoadsFollowTheMmuRead :=
  ⟨⟨encodesRR16_lb, fun _ _ _ _ => loadRule_of_loadInto rfl sextByte_toInt⟩,
    ⟨encodesRR16_lbu, fun _ _ _ _ => loadRule_of_loadInto rfl zextByte_toNat⟩,
    ⟨encodesRR16_lh, fun _ _ _ _ => loadRule_of_loadInto rfl sextHalf_toInt⟩,
    ⟨encodesRR16_lhu, fun _ _ _ _ => loadRule_of_loadInto rfl zextHalf_toNat⟩,
    ⟨encodesRR16_lw, fun _ _ _ _ => loadRule_of_loadInto rfl fun _ => rfl⟩,
    ⟨encodesC_lwc, fun s rd b off => loadRule_of_loadInto (exec_lwc rd b off s) fun _ => rfl⟩⟩

/-- Settles O27: each store is the shared store of its source register. -/
theorem storesFollowTheMmuWrite : Obligations.StoresFollowTheMmuWrite :=
  ⟨⟨encodesRR16_sb, fun _ _ _ _ => storeRule_of_storeFrom rfl⟩,
    ⟨encodesRR16_sh, fun _ _ _ _ => storeRule_of_storeFrom rfl⟩,
    ⟨encodesRR16_sw, fun _ _ _ _ => storeRule_of_storeFrom rfl⟩,
    ⟨encodesC_swc, fun s rs b off => storeRule_of_storeFrom (exec_swc rs b off s)⟩⟩

/-- Settles O28: `push` is a store that writes `x[14]` after the MMU write, from the state that the write left. -/
theorem pushFollowsTheMmuWrite : Obligations.PushFollowsTheMmuWrite := by
  refine ⟨encodesR_push, fun s rs => ⟨fun u s' write => ?_, fun st s' write => ?_⟩⟩
  · have memory := State.memWrite_ok_onlyMemory write
    refine ⟨memory, _, exec_push_of_ok write, ?_⟩
    rw [← memory.pc]
    exact s'.wroteReg_advance 14 (s.reg 14 - 4) 2
  · exact ⟨(State.memWrite_failed_onlyHooks write).1, _, exec_push_of_failed write, s'.routeFault_routed .store st⟩

end Sys2Proof.Machine
end

section
/-! Register moves and immediate loads (42_moves_immediates.md R170 to R174). Each is the shared write-back of one
word, so the frame is proved once, and an instruction gives it its word and what that word is. -/

namespace Sys2Proof.Laws

/-! ### The opcodes of the moves and immediate loads -/

theorem encodesRR_mov : EncodesRR 0x01 .mov := fun w h => decode_of_decode8 (by rw [decode8, discT8, h]; rfl)

/-- An answer of the 4-bit stage decides on a word with a 4-bit opcode. -/
theorem decode_of_decode4 {w : Word} {i : Instr} (op : (discT4 w).toNat = 5 ∨ 6 ≤ (discT4 w).toNat)
    (h : decode4 w = some i) : decode w = i := by rw [decode_of_discT4 w op, h]

theorem encodesRI_li : EncodesRI 0x5 .li := fun w h =>
  decode_of_decode4 (.inl (by rw [discT4, h]; rfl)) (by rw [decode4, discT4, h]; rfl)

theorem encodesRI_liu : EncodesRI 0x6 .liu := fun w h =>
  decode_of_decode4 (.inr (by rw [discT4, h]; decide)) (by rw [decode4, discT4, h]; rfl)

end Sys2Proof.Laws

namespace Sys2Proof.Machine

open Sys2Proof.Laws

/-! ### The words written -/

theorem sext_toInt {n : Nat} (imm : BitVec n) (h : n ≤ 32) : (sext imm).toInt = imm.toInt :=
  BitVec.toInt_signExtend_of_le h

theorem zext_toNat {n : Nat} (imm : BitVec n) (h : n ≤ 32) : (zext imm).toNat = imm.toNat :=
  BitVec.toNat_setWidth_of_le h

theorem and_lowHalf_mask (v : Word) : v &&& 0x0000FFFF = zextHalf v := by
  apply BitVec.eq_of_toNat_eq
  rw [zextHalf_toNat, BitVec.toNat_and]
  exact Nat.and_two_pow_sub_one_eq_mod v.toNat 16

/-- The word that `lih` writes is the immediate above the old low half (R174). -/
theorem lih_word_eq_append (imm : BitVec 16) (v : Word) :
    zext imm <<< 16 ||| (v &&& (0x0000FFFF : Word)) = imm ++ v.extractLsb' 0 16 :=
  calc zext imm <<< 16 ||| (v &&& (0x0000FFFF : Word))
      = zext imm <<< 16 ||| zextHalf v := by rw [and_lowHalf_mask]
    _ = (imm ++ v.extractLsb' 0 16).setWidth 32 := BitVec.setWidth_append_eq_shiftLeft_setWidth_or.symm
    _ = imm ++ v.extractLsb' 0 16 := BitVec.setWidth_eq _

/-! ### The shared write-back -/

/-- An instruction that writes one word back completes in every state, and its frame is that of `WroteReg`. -/
theorem exec_writesReg_of_writeBack {i : Instr} {s : State} {rd : RegId} {v len : Word}
    (meaning : exec i s = s.writeBack rd v len) : ∃ t, exec i s = .next t ∧ WroteReg s t rd v (s.pc + len) :=
  ⟨_, meaning, s.wroteReg_advance rd v len⟩

/-- The same, for a word that a rule gives by a property. -/
theorem exec_writesRegWith_of_writeBack {i : Instr} {s : State} {rd : RegId} {v len : Word} {value : Word → Prop}
    (meaning : exec i s = s.writeBack rd v len) (holds : value v) :
    ∃ t x, exec i s = .next t ∧ WroteReg s t rd x (s.pc + len) ∧ value x :=
  have ⟨t, next, wrote⟩ := exec_writesReg_of_writeBack meaning
  ⟨t, v, next, wrote, holds⟩

/-! ### The statement -/

/-- Settles O8: each instruction is the shared write-back, with its own word. -/
theorem movesAndImmediatesWriteTheirValue : Obligations.MovesAndImmediatesWriteTheirValue := by
  refine ⟨⟨encodesRR_mov, fun s rd rs => exec_writesReg_of_writeBack rfl⟩,
    ⟨encodesRI_li, fun s rd imm => exec_writesRegWith_of_writeBack rfl (sext_toInt imm (by decide))⟩,
    ⟨encodesRI_liu, fun s rd imm => exec_writesRegWith_of_writeBack rfl (zext_toNat imm (by decide))⟩,
    ⟨encodesR16_lil, fun s rd imm => exec_writesRegWith_of_writeBack rfl (zext_toNat imm (by decide))⟩,
    ⟨encodesR16_lih, fun s rd imm => exec_writesRegWith_of_writeBack rfl ?_⟩⟩
  rw [lih_word_eq_append imm (s.reg rd)]
  exact ⟨BitVec.extractLsb'_append_eq_left, BitVec.extractLsb'_append_eq_right⟩

end Sys2Proof.Machine
end

section
/-! Tests (43_tests.md R185 to R191). Each is the shared write of the t-bit, so the frame is proved once, and an
instruction gives it its comparison and what that comparison means. -/

namespace Sys2Proof.Laws

/-! ### The opcodes of the tests -/

theorem encodesRR_teq : EncodesRR 0x0A .teq := fun w h => decode_of_decode8 (by rw [decode8, discT8, h]; rfl)
theorem encodesRR_tne : EncodesRR 0x0B .tne := fun w h => decode_of_decode8 (by rw [decode8, discT8, h]; rfl)
theorem encodesRR_tlt : EncodesRR 0x0C .tlt := fun w h => decode_of_decode8 (by rw [decode8, discT8, h]; rfl)
theorem encodesRR_tltu : EncodesRR 0x0D .tltu := fun w h => decode_of_decode8 (by rw [decode8, discT8, h]; rfl)
theorem encodesRR_tge : EncodesRR 0x0E .tge := fun w h => decode_of_decode8 (by rw [decode8, discT8, h]; rfl)
theorem encodesRR_tgeu : EncodesRR 0x0F .tgeu := fun w h => decode_of_decode8 (by rw [decode8, discT8, h]; rfl)

end Sys2Proof.Laws

namespace Sys2Proof.Machine

open Sys2Proof.Laws

/-! ### The comparisons -/

theorem tEq_iff (a b : Word) : tEq a b = true ↔ a = b := beq_iff_eq
theorem tNe_iff (a b : Word) : tNe a b = true ↔ a ≠ b := bne_iff_ne
theorem tLtS_iff (a b : Word) : tLtS a b = true ↔ a.toInt < b.toInt := decide_eq_true_iff
theorem tLtU_iff (a b : Word) : tLtU a b = true ↔ a.toNat < b.toNat := decide_eq_true_iff
theorem tGeS_iff (a b : Word) : tGeS a b = true ↔ b.toInt ≤ a.toInt := decide_eq_true_iff
theorem tGeU_iff (a b : Word) : tGeU a b = true ↔ b.toNat ≤ a.toNat := decide_eq_true_iff

/-! ### The shared write of the t-bit -/

/-- An instruction that writes a test's result completes in every state, its frame is that of `WroteT`, and the t-bit
means what the result means. -/
theorem exec_writesT_of_writeTest {i : Instr} {s : State} {b : Bool} {p : Prop} (meaning : exec i s = s.writeTest b)
    (compares : b = true ↔ p) : ∃ t b, exec i s = .next t ∧ WroteT s t b (s.pc + 2) ∧ (b = true ↔ p) :=
  ⟨_, b, meaning, s.wroteT_advance b, compares⟩

/-! ### The statement -/

/-- Settles O13: each test is the shared write of the t-bit, with its own comparison of the two registers. -/
theorem testsWriteTheComparisonToT : Obligations.TestsWriteTheComparisonToT :=
  ⟨⟨encodesRR_teq, fun _ _ _ => exec_writesT_of_writeTest rfl (tEq_iff _ _)⟩,
    ⟨encodesRR_tne, fun _ _ _ => exec_writesT_of_writeTest rfl (tNe_iff _ _)⟩,
    ⟨encodesRR_tlt, fun _ _ _ => exec_writesT_of_writeTest rfl (tLtS_iff _ _)⟩,
    ⟨encodesRR_tltu, fun _ _ _ => exec_writesT_of_writeTest rfl (tLtU_iff _ _)⟩,
    ⟨encodesRR_tge, fun _ _ _ => exec_writesT_of_writeTest rfl (tGeS_iff _ _)⟩,
    ⟨encodesRR_tgeu, fun _ _ _ => exec_writesT_of_writeTest rfl (tGeU_iff _ _)⟩⟩

end Sys2Proof.Machine
end

section
/-! Jumps, branches and calls (44_control.md R200 to R212). There are three shapes: a commit of one target, a choice
between a target and the next instruction, and a link in `x[15]` before the commit. Each is proved once, and an
instruction gives it its target. -/

namespace Sys2Proof.Laws

/-! ### The opcodes of the branches, the long jump and the call -/

/-- On a word whose 4-bit opcode stands above those of the 8-bit and 6-bit stages, the 4-bit stage decides. -/
theorem decode_of_opcode4 {w : Word} {op : BitVec 4} {i : Instr} (top : w.extractLsb' 12 4 = op) (high : 6 ≤ op.toNat)
    (h : decode4 w = some i) : decode w = i := decode_of_decode4 (.inr (by rw [discT4, top]; exact high)) h

theorem encodesB12_bra : EncodesB12 0x8 .bra := fun w h =>
  decode_of_opcode4 h (by decide) (by rw [decode4, discT4, h]; rfl)

theorem encodesB12_bt : EncodesB12 0x9 .bt := fun w h =>
  decode_of_opcode4 h (by decide) (by rw [decode4, discT4, h]; rfl)

theorem encodesB12_bf : EncodesB12 0xA .bf := fun w h =>
  decode_of_opcode4 h (by decide) (by rw [decode4, discT4, h]; rfl)

/-- The split immediate of format B28 is `w[31:16]` above `w[11:0]` (30_encoding.md R89). -/
theorem fieldImm28_eq_append (w : Word) : fieldImm28 w = w.extractLsb' 16 16 ++ w.extractLsb' 0 12 :=
  BitVec.setWidth_append_eq_shiftLeft_setWidth_or.symm.trans (BitVec.setWidth_eq _)

theorem fieldImm28_toNat (w : Word) :
    (fieldImm28 w).toNat = (w.extractLsb' 16 16).toNat * 2 ^ 12 + (w.extractLsb' 0 12).toNat := by
  rw [fieldImm28_eq_append, BitVec.toNat_append, ← Nat.shiftLeft_add_eq_or_of_lt (w.extractLsb' 0 12).isLt,
    Nat.shiftLeft_eq]

theorem fieldImm28_eq_of_toNat {w : Word} {imm : BitVec 28}
    (h : imm.toNat = (w.extractLsb' 16 16).toNat * 2 ^ 12 + (w.extractLsb' 0 12).toNat) : fieldImm28 w = imm :=
  BitVec.eq_of_toNat_eq ((fieldImm28_toNat w).trans h.symm)

theorem encodesB28_jmp : EncodesB28 0xB .jmp := fun w imm h immBits =>
  decode_of_opcode4 h (by decide) (by rw [decode4, discT4, h, ← fieldImm28_eq_of_toNat immBits]; rfl)

theorem encodesB28_call : EncodesB28 0xC .call := fun w imm h immBits =>
  decode_of_opcode4 h (by decide) (by rw [decode4, discT4, h, ← fieldImm28_eq_of_toNat immBits]; rfl)

end Sys2Proof.Laws

namespace Sys2Proof.Machine

open Sys2Proof.Laws

/-! ### Displacements -/

/-- A displacement is twice the signed immediate, modulo 2^32 (R200). -/
theorem sext_shiftLeft_one_eq {n : Nat} (imm : BitVec n) : sext imm <<< 1 = BitVec.ofInt 32 (2 * imm.toInt) :=
  calc sext imm <<< 1
      = BitVec.twoPow 32 1 * sext imm := (BitVec.twoPow_mul_eq_shiftLeft _ 1).symm
    _ = BitVec.ofInt 32 2 * BitVec.ofInt 32 imm.toInt := rfl
    _ = BitVec.ofInt 32 (2 * imm.toInt) := (BitVec.ofInt_mul _ _).symm

theorem disp12_eq (imm : BitVec 12) : disp12 imm = BitVec.ofInt 32 (2 * imm.toInt) := sext_shiftLeft_one_eq imm

theorem disp28_eq (imm : BitVec 28) : disp28 imm = BitVec.ofInt 32 (2 * imm.toInt) := sext_shiftLeft_one_eq imm

/-! ### The three shapes -/

/-- An instruction that commits one target completes in every state and changes nothing else. -/
theorem exec_wentTo_of_commit {i : Instr} {s : State} {target next : Word}
    (meaning : exec i s = .next (s.commit target)) (reaches : target = next) :
    ∃ t, exec i s = .next t ∧ WentTo s t next :=
  ⟨_, meaning, reaches ▸ s.wentTo_commit target⟩

/-- A conditional branch completes in every state: at its target where its condition holds, else at the next
instruction. -/
theorem exec_wentTo_of_branchIf {i : Instr} {s : State} {taken : Bool} {target next : Word} {p : Prop} [Decidable p]
    (meaning : exec i s = s.branchIf taken target) (condition : taken = true ↔ p) (reaches : target = next) :
    ∃ t, exec i s = .next t ∧ WentTo s t (if p then next else s.pc + 2) :=
  exec_wentTo_of_commit (meaning.trans (s.branchIf_eq taken target)) (by simp only [condition, reaches])

/-- A linking jump completes in every state; of the registers it writes `x[15]` only (R211). -/
theorem exec_linked_of_commit {i : Instr} {s : State} {link target next : Word}
    (meaning : exec i s = .next ((s.setReg raReg link).commit target)) (reaches : target = next) :
    ∃ t, exec i s = .next t ∧ WroteReg s t 15 link next :=
  ⟨_, meaning, reaches ▸ s.wroteReg_commit raReg link target⟩

/-! ### The statements -/

/-- Settles O15: both jumps commit the register's value of the state before the link. -/
theorem registerJumpsGoToTheRegister : Obligations.RegisterJumpsGoToTheRegister :=
  ⟨⟨encodesR_j, fun _ _ => exec_wentTo_of_commit rfl rfl⟩,
    ⟨encodesR_jal, fun _ _ => exec_linked_of_commit rfl rfl⟩⟩

/-- Settles O16: `jt` is taken on the t-bit, `jf` on its negation. -/
theorem conditionalRegisterJumpsFollowT : Obligations.ConditionalRegisterJumpsFollowT :=
  ⟨⟨encodesR_jt, fun _ _ => exec_wentTo_of_branchIf rfl Iff.rfl rfl⟩,
    ⟨encodesR_jf, fun _ _ => exec_wentTo_of_branchIf rfl (Bool.not_eq_true' _).to_iff rfl⟩⟩

/-- Settles O17: the three branches share one target, the displaced address. -/
theorem branchesGoToTheDisplacedAddress : Obligations.BranchesGoToTheDisplacedAddress :=
  ⟨⟨encodesB12_bra, fun _ _ => exec_wentTo_of_commit rfl (by rw [disp12_eq])⟩,
    ⟨encodesB12_bt, fun _ _ => exec_wentTo_of_branchIf rfl Iff.rfl (by rw [disp12_eq])⟩,
    ⟨encodesB12_bf, fun _ _ => exec_wentTo_of_branchIf rfl (Bool.not_eq_true' _).to_iff (by rw [disp12_eq])⟩⟩

/-- Settles O18: `jmp` commits the displaced address, `call` links first. -/
theorem longJumpAndCallGoToTheDisplacedAddress : Obligations.LongJumpAndCallGoToTheDisplacedAddress :=
  ⟨⟨encodesB28_jmp, fun _ _ => exec_wentTo_of_commit rfl (by rw [disp28_eq])⟩,
    ⟨encodesB28_call, fun _ _ => exec_linked_of_commit rfl (by rw [disp28_eq])⟩⟩

end Sys2Proof.Machine
end

section
/-! Arithmetic, logical and shift instructions (45_alu.md R220 to R236). Each is the shared write-back of one word, so
`exec_writesRegWith_of_writeBack` gives the frame, and an instruction gives it what its word is. A shift by a register
and a shift by an immediate share that fact and differ in the amount only. -/

namespace Sys2Proof.Laws

/-! ### The opcodes of the register forms -/

theorem encodesRR_add : EncodesRR 0x02 .add := fun w h => decode_of_decode8 (by rw [decode8, discT8, h]; rfl)
theorem encodesRR_sub : EncodesRR 0x03 .sub := fun w h => decode_of_decode8 (by rw [decode8, discT8, h]; rfl)
theorem encodesRR_and : EncodesRR 0x04 .and := fun w h => decode_of_decode8 (by rw [decode8, discT8, h]; rfl)
theorem encodesRR_or : EncodesRR 0x05 .or := fun w h => decode_of_decode8 (by rw [decode8, discT8, h]; rfl)
theorem encodesRR_xor : EncodesRR 0x06 .xor := fun w h => decode_of_decode8 (by rw [decode8, discT8, h]; rfl)
theorem encodesRR_shl : EncodesRR 0x07 .shl := fun w h => decode_of_decode8 (by rw [decode8, discT8, h]; rfl)
theorem encodesRR_shr : EncodesRR 0x08 .shr := fun w h => decode_of_decode8 (by rw [decode8, discT8, h]; rfl)
theorem encodesRR_sar : EncodesRR 0x09 .sar := fun w h => decode_of_decode8 (by rw [decode8, discT8, h]; rfl)

/-! ### The opcodes of the immediate forms -/

theorem encodesRR16_addi : EncodesRR16 0x28 .addi := fun w h => decode_of_decode8 (by rw [decode8, discT8, h]; rfl)
theorem encodesRR16_andi : EncodesRR16 0x29 .andi := fun w h => decode_of_decode8 (by rw [decode8, discT8, h]; rfl)
theorem encodesRR16_ori : EncodesRR16 0x2A .ori := fun w h => decode_of_decode8 (by rw [decode8, discT8, h]; rfl)
theorem encodesRR16_xori : EncodesRR16 0x2B .xori := fun w h => decode_of_decode8 (by rw [decode8, discT8, h]; rfl)
theorem encodesRR16_shli : EncodesRR16 0x2C .shli := fun w h => decode_of_decode8 (by rw [decode8, discT8, h]; rfl)
theorem encodesRR16_shri : EncodesRR16 0x2D .shri := fun w h => decode_of_decode8 (by rw [decode8, discT8, h]; rfl)
theorem encodesRR16_sari : EncodesRR16 0x2E .sari := fun w h => decode_of_decode8 (by rw [decode8, discT8, h]; rfl)

end Sys2Proof.Laws

namespace Sys2Proof.Machine

open Sys2Proof.Laws

/-! ### Sums and differences -/

/-- The difference of two words with the wrap-around added before the subtraction (R223). -/
theorem sub_toNat_eq_wrapped (a b : Word) : (a - b).toNat = (a.toNat + 2 ^ 32 - b.toNat) % 2 ^ 32 := by
  have wrap : 2 ^ 32 - b.toNat + a.toNat = a.toNat + 2 ^ 32 - b.toNat := by omega
  rw [BitVec.toNat_sub, wrap]

/-- The word counts unsigned and the immediate signed; modulo 2^32 the two readings agree (R230). -/
theorem add_sext_toNat {n : Nat} (v : Word) (imm : BitVec n) :
    ((v + sext imm).toNat : Int) = (v.toNat + imm.toInt) % 2 ^ 32 := by
  have sum : v + sext imm = BitVec.ofInt 32 (v.toNat + imm.toInt) := by
    rw [BitVec.ofInt_add, BitVec.ofInt_natCast, BitVec.ofNat_toNat, BitVec.setWidth_eq]
    rfl
  rw [sum, BitVec.toNat_ofInt]
  exact Int.toNat_of_nonneg (Int.emod_nonneg _ (by decide))

/-! ### Zero-extended operands -/

/-- Above the immediate's width both bits read 0 (R231 to R233). -/
theorem zext_getLsbD {n : Nat} (imm : BitVec n) {k : Nat} (h : k < 32) : (zext imm).getLsbD k = imm.getLsbD k := by
  rw [zext, BitVec.getLsbD_setWidth, decide_eq_true h, Bool.true_and]

/-! ### Shifts -/

/-- The amount is reduced modulo 32 (R221). -/
theorem shiftAmount_eq_mod (amount : Word) : shiftAmount amount = amount.toNat % 32 :=
  BitVec.extractLsb'_toNat 0 5 amount

theorem shiftAmount_zext {n : Nat} (imm : BitVec n) (h : n ≤ 32) : shiftAmount (zext imm) = imm.toNat % 32 := by
  rw [shiftAmount_eq_mod, zext_toNat imm h]

theorem shiftLeft_toNat (v amount : Word) :
    (shiftLeft v amount).toNat = v.toNat * 2 ^ shiftAmount amount % 2 ^ 32 := by
  rw [shiftLeft, BitVec.toNat_shiftLeft, Nat.shiftLeft_eq]

theorem shiftRightU_toNat (v amount : Word) : (shiftRightU v amount).toNat = v.toNat / 2 ^ shiftAmount amount := by
  rw [shiftRightU, BitVec.toNat_ushiftRight, Nat.shiftRight_eq_div_pow]

/-- The arithmetic shift is a floored quotient, since `/` on `Int` rounds down for a divisor above 0 (R229). -/
theorem shiftRightS_toInt (v amount : Word) : (shiftRightS v amount).toInt = v.toInt / 2 ^ shiftAmount amount := by
  rw [shiftRightS, BitVec.toInt_sshiftRight, Int.shiftRight_eq_div_pow, Nat.cast_pow, Nat.cast_ofNat]

/-! ### The statements -/

/-- Settles O9: each instruction is the shared write-back, with its own operation on the old values. -/
theorem registerArithmeticWritesItsResult : Obligations.RegisterArithmeticWritesItsResult :=
  ⟨⟨encodesRR_add, fun _ _ _ => exec_writesRegWith_of_writeBack rfl (BitVec.toNat_add _ _)⟩,
    ⟨encodesRR_sub, fun _ _ _ => exec_writesRegWith_of_writeBack rfl (sub_toNat_eq_wrapped _ _)⟩,
    ⟨encodesRR_and, fun _ _ _ => exec_writesRegWith_of_writeBack rfl fun _ _ => BitVec.getLsbD_and⟩,
    ⟨encodesRR_or, fun _ _ _ => exec_writesRegWith_of_writeBack rfl fun _ _ => BitVec.getLsbD_or⟩,
    ⟨encodesRR_xor, fun _ _ _ => exec_writesRegWith_of_writeBack rfl fun _ _ => BitVec.getLsbD_xor⟩⟩

/-- Settles O10: the shared write-back of each shift, by the amount register's value modulo 32. -/
theorem registerShiftsTakeTheAmountModulo32 : Obligations.RegisterShiftsTakeTheAmountModulo32 := by
  refine ⟨⟨encodesRR_shl, fun s rd rs => exec_writesRegWith_of_writeBack rfl ?_⟩,
    ⟨encodesRR_shr, fun s rd rs => exec_writesRegWith_of_writeBack rfl ?_⟩,
    ⟨encodesRR_sar, fun s rd rs => exec_writesRegWith_of_writeBack rfl ?_⟩⟩
  · rw [shiftLeft_toNat, shiftAmount_eq_mod]
  · rw [shiftRightU_toNat, shiftAmount_eq_mod]
  · rw [shiftRightS_toInt, shiftAmount_eq_mod]

/-- Settles O11: the sum with the signed immediate, and the bitwise operations with the zero-extended one. -/
theorem immediateArithmeticWritesItsResult : Obligations.ImmediateArithmeticWritesItsResult := by
  refine ⟨⟨encodesRR16_addi, fun s rd rs imm => exec_writesRegWith_of_writeBack rfl (add_sext_toNat _ _)⟩,
    ⟨encodesRR16_andi, fun s rd rs imm => exec_writesRegWith_of_writeBack rfl fun k hk => ?_⟩,
    ⟨encodesRR16_ori, fun s rd rs imm => exec_writesRegWith_of_writeBack rfl fun k hk => ?_⟩,
    ⟨encodesRR16_xori, fun s rd rs imm => exec_writesRegWith_of_writeBack rfl fun k hk => ?_⟩⟩
  · rw [BitVec.getLsbD_and, zext_getLsbD imm hk]
  · rw [BitVec.getLsbD_or, zext_getLsbD imm hk]
  · rw [BitVec.getLsbD_xor, zext_getLsbD imm hk]

/-- Settles O12: the shifts of the register forms, by the immediate modulo 32. -/
theorem immediateShiftsTakeTheAmountModulo32 : Obligations.ImmediateShiftsTakeTheAmountModulo32 := by
  refine ⟨⟨encodesRR16_shli, fun s rd rs imm => exec_writesRegWith_of_writeBack rfl ?_⟩,
    ⟨encodesRR16_shri, fun s rd rs imm => exec_writesRegWith_of_writeBack rfl ?_⟩,
    ⟨encodesRR16_sari, fun s rd rs imm => exec_writesRegWith_of_writeBack rfl ?_⟩⟩
  · rw [shiftLeft_toNat, shiftAmount_zext imm (by decide)]
  · rw [shiftRightU_toNat, shiftAmount_zext imm (by decide)]
  · rw [shiftRightS_toInt, shiftAmount_zext imm (by decide)]

end Sys2Proof.Machine
end

section
/-! Interrupt instructions and `Unknown` (46_interrupt_instr.md R250 to R256). `ei`, `di` and `reti` share one write of
`ie` and a commit, `wait` has one of three ends, and a word is `Unknown` where no stage of the decoder answers. -/

namespace Sys2Proof.Laws

/-! ### Where a stage of the decoder gives no answer (30_encoding.md R95, R97) -/

theorem decode8_eq_none_iff (w : Word) : decode8 w = none ↔
    (discT8 w).toNat = 0 ∨ (0x19 ≤ (discT8 w).toNat ∧ (discT8 w).toNat ≤ 0x1F) ∨ 0x31 ≤ (discT8 w).toNat := by
  unfold decode8
  split
  case h_42 => simp only [imp_false, true_iff] at *; omega
  all_goals simp only [reduceCtorEq, false_iff]; omega

theorem decode6_eq_none_iff (w : Word) :
    decode6 w = none ↔ (discT6 w).toNat ≠ 0b010000 ∧ (discT6 w).toNat ≠ 0b010001 := by
  refine ⟨fun h => ?_, decode6_eq_none w⟩
  constructor <;> intro op <;> simp [decode6, op] at h

theorem decode4_eq_none_iff (w : Word) : decode4 w = none ↔
    (discT4 w).toNat < 5 ∨ (discT4 w).toNat = 7 ∨ 0xD ≤ (discT4 w).toNat := by
  unfold decode4
  split
  case h_8 => simp only [imp_false, true_iff] at *; omega
  all_goals simp only [reduceCtorEq, false_iff]; omega

/-! ### No stage answers `Unknown` -/

theorem decode8_ne_unknown (w u : Word) : decode8 w ≠ some (.unknown u) := by
  unfold decode8
  split <;> nofun

theorem decode6_ne_unknown (w u : Word) : decode6 w ≠ some (.unknown u) := by
  unfold decode6
  split <;> nofun

theorem decode4_ne_unknown (w u : Word) : decode4 w ≠ some (.unknown u) := by
  unfold decode4
  split <;> nofun

/-! ### Which words are `Unknown` (30_encoding.md R98) -/

/-- `Unknown` is the answer of no stage: it stands for none of them answering, and keeps the word. -/
theorem decode_eq_unknown_iff (w u : Word) :
    decode w = .unknown u ↔ (decode8 w = none ∧ decode6 w = none ∧ decode4 w = none) ∧ w = u := by
  cases e8 : decode8 w with
  | some i => simpa [decode, e8] using fun e => decode8_ne_unknown w u (e8.trans (congrArg some e))
  | none =>
    cases e6 : decode6 w with
    | some i => simpa [decode, e8, decode7, e6] using fun e => decode6_ne_unknown w u (e6.trans (congrArg some e))
    | none =>
      cases e4 : decode4 w with
      | some i =>
        simpa [decode, e8, decode7, e6, e4] using fun e => decode4_ne_unknown w u (e4.trans (congrArg some e))
      | none => simp [decode, e8, decode7, e6, e4]

/-- The top bytes that R98 lists are those that R95 and R97 leave over. -/
theorem isUnassignedTop_iff (w : Word) : isUnassignedTop (discT8 w) = true ↔
    decode8 w = none ∧ decode6 w = none ∧ decode4 w = none := by
  have t6 := discT6_toNat w
  have t4 := discT4_toNat w
  rw [decode8_eq_none_iff, decode6_eq_none_iff, decode4_eq_none_iff]
  simp only [isUnassignedTop, Bool.or_eq_true, Bool.and_eq_true, beq_iff_eq, decide_eq_true_iff]
  omega

theorem decode_eq_unknown_self_iff (w : Word) : decode w = .unknown w ↔ isUnassignedTop (discT8 w) = true := by
  rw [decode_eq_unknown_iff, isUnassignedTop_iff, and_iff_left rfl]

end Sys2Proof.Laws

namespace Sys2Proof.Machine

open Sys2Proof.Laws

/-! ### The shared write of `ie` -/

theorem State.wroteIe_commit (s : State) (b : Bool) (next : Word) : WroteIe s ((s.setIe b).commit next) b next :=
  ⟨rfl, rfl, rfl, rfl, fun _ => rfl, rfl, fun _ => rfl, ⟨rfl, rfl, rfl, rfl, rfl, rfl, rfl⟩, ⟨rfl, rfl, rfl⟩, ⟨rfl, rfl⟩⟩

/-- An instruction that sets `ie` and commits completes in every state and changes nothing else. -/
theorem exec_wroteIe_of_commit {i : Instr} {s : State} {b : Bool} {next : Word}
    (meaning : exec i s = .next ((s.setIe b).commit next)) : ∃ t, exec i s = .next t ∧ WroteIe s t b next :=
  ⟨_, meaning, s.wroteIe_commit b next⟩

/-! ### The three ends of `wait` (R253, R256) -/

theorem exec_wait_of_suspend {s : State} (enabled : s.ie = true) (mode : s.cfg.waitMode = .suspend) :
    exec .wait s = .next ((s.advance 2).setRun .waiting) := by
  rw [exec, execWait, if_pos enabled, mode]

theorem exec_wait_of_fatal {s : State} (enabled : s.ie = true) (mode : s.cfg.waitMode = .fatal) :
    exec .wait s = .next (s.haltWith .waitUnimplemented .ok) := by
  rw [exec, execWait, if_pos enabled, mode]

theorem exec_wait_of_disabled {s : State} (disabled : s.ie = false) :
    exec .wait s = .next (s.haltWith .waitWhileDisabled .ok) := by
  rw [exec, execWait, if_neg (Bool.eq_false_iff.mp disabled)]

/-! ### The statements -/

/-- Settles O36: each instruction is the shared write of `ie`, with its own value and its own next address. -/
theorem eiDiRetiSetTheInterruptState : Obligations.EiDiRetiSetTheInterruptState :=
  ⟨⟨encodesOp_ei, fun _ => exec_wroteIe_of_commit rfl⟩,
    ⟨encodesOp_di, fun _ => exec_wroteIe_of_commit rfl⟩,
    ⟨encodesOp_reti, fun _ => exec_wroteIe_of_commit rfl⟩⟩

/-- Settles O37: the suspension is a commit and a write of the run state, and both halts are the shared halt. -/
theorem waitSuspendsOrHalts : Obligations.WaitSuspendsOrHalts := by
  refine ⟨encodesOp_wait, rfl, rfl, fun s => ⟨fun enabled suspend => ?_, fun enabled fatal => ?_, fun disabled => ?_⟩⟩
  · exact ⟨_, exec_wait_of_suspend enabled suspend, rfl, ⟨rfl, rfl⟩, fun _ => rfl, rfl, rfl, rfl, rfl, fun _ => rfl,
      ⟨rfl, rfl, rfl, rfl, rfl, rfl, rfl⟩, ⟨rfl, rfl, rfl⟩⟩
  · exact ⟨_, exec_wait_of_fatal enabled fatal, s.haltWith_haltedWith _ _⟩
  · exact ⟨_, exec_wait_of_disabled disabled, s.haltWith_haltedWith _ _⟩

/-- Settles O4: no stage of the decoder answers exactly on the listed top bytes, and executing `Unknown` is the routing
of the illegal-instruction fault. -/
theorem unknownWordsRaiseIllegalInstruction : Obligations.UnknownWordsRaiseIllegalInstruction :=
  ⟨decode_eq_unknown_self_iff, fun w u h => ((decode_eq_unknown_iff w u).mp h).2.symm, by decide, rfl,
    fun _ s => ⟨_, rfl, s.routeFault_routed .illegal .ok⟩⟩

end Sys2Proof.Machine
end

section
/-! External requests and fault routing (60_exceptions.md R272, R276, R280 to R283). Nothing but the sampling of a request
reads the lines: a change of them commutes with every access, every instruction and the fetch, so with `ie = 0`, where no
request is sampled, it commutes with the step. -/

namespace Sys2Proof.Machine

/-! ### A change of the lines -/

/-- The state with these vector ids' lines raised and no other. -/
def State.setIrq (s : State) (lines : List Nat) : State := { s with irq := lines }

@[simp] theorem State.setIrq_ie (s : State) (lines : List Nat) : (s.setIrq lines).ie = s.ie := rfl
@[simp] theorem State.setIrq_pc (s : State) (lines : List Nat) : (s.setIrq lines).pc = s.pc := rfl
@[simp] theorem State.setIrq_cfg (s : State) (lines : List Nat) : (s.setIrq lines).cfg = s.cfg := rfl
@[simp] theorem State.setIrq_reg (s : State) (lines : List Nat) (r : RegId) : (s.setIrq lines).reg r = s.reg r := rfl
@[simp] theorem State.setIrq_readHook (s : State) (lines : List Nat) : (s.setIrq lines).readHook = s.readHook := rfl
@[simp] theorem State.setIrq_writeHook (s : State) (lines : List Nat) : (s.setIrq lines).writeHook = s.writeHook := rfl
@[simp] theorem State.setIrq_hookAnswers (s : State) (lines : List Nat) :
    (s.setIrq lines).hookAnswers = s.hookAnswers := rfl
@[simp] theorem pushAddr_setIrq (s : State) (lines : List Nat) : pushAddr (s.setIrq lines) = pushAddr s := rfl

/-! ### The lines and the memory accesses -/

theorem State.drawAnswer_setIrq (s : State) (lines : List Nat) :
    (s.setIrq lines).drawAnswer = (s.drawAnswer.1, s.drawAnswer.2.setIrq lines) := by
  rw [State.drawAnswer, State.drawAnswer, State.setIrq_hookAnswers]
  cases s.hookAnswers <;> rfl

theorem State.callHook_setIrq (s : State) (lines : List Nat) (c : MmioCall) :
    (s.setIrq lines).callHook c = (s.callHook c).mapState (·.setIrq lines) := by
  have draw : ((s.setIrq lines).logCall c).drawAnswer = _ := State.drawAnswer_setIrq (s.logCall c) lines
  rw [State.callHook, State.callHook, draw]
  rcases (s.logCall c).drawAnswer with ⟨⟨⟨st, v⟩⟩ | _, s'⟩
  · cases st <;> rfl
  · rfl

theorem State.memRead_setIrq (s : State) (lines : List Nat) (a : Word) (g : Gran) :
    (s.setIrq lines).memRead a g = (s.memRead a g).mapState (·.setIrq lines) := by
  rw [State.memRead, State.memRead, State.setIrq_cfg, State.setIrq_readHook, State.callHook_setIrq]
  cases classify s.cfg a with
  | unmapped => rfl
  | ram => cases g.aligned a <;> rfl
  | mmio =>
    cases g.aligned a
    · rfl
    · cases s.readHook
      · rfl
      · cases s.callHook (.read (a - s.cfg.mmioBase) g) <;> rfl

theorem State.memWrite_setIrq (s : State) (lines : List Nat) (a : Word) (g : Gran) (v : Word) :
    (s.setIrq lines).memWrite a g v = (s.memWrite a g v).mapState (·.setIrq lines) := by
  rw [State.memWrite, State.memWrite, State.setIrq_cfg, State.setIrq_writeHook, State.callHook_setIrq]
  cases classify s.cfg a with
  | unmapped => rfl
  | ram => cases g.aligned a <;> rfl
  | mmio =>
    cases g.aligned a
    · rfl
    · cases s.writeHook
      · rfl
      · cases s.callHook (.write (a - s.cfg.mmioBase) g (g.trunc v)) <;> rfl

theorem State.fetch_setIrq (s : State) (lines : List Nat) :
    (s.setIrq lines).fetch = s.fetch.mapState (·.setIrq lines) := by
  rw [State.fetch, State.fetch, State.setIrq_pc, State.memRead_setIrq]
  cases s.memRead s.pc .half with
  | ok lo s1 =>
    simp only [Access.mapState, State.memRead_setIrq]
    cases s1.memRead (s.pc + 2) .half <;> rfl
  | failed st s1 => rfl
  | blocked => rfl

/-! ### What follows an access (40_dispatch.md R124) -/

/-- What loads, stores, `push` and the fetch make of an access: they go on from an Ok, route the fault of any other
status, and are stuck with a hook that never returns. -/
def Access.orFault {α : Type} (k : FaultKind) (goOn : α → State → Result) : Access α → Result
  | .ok v s => goOn v s
  | .failed st s => .next (s.routeFault k st)
  | .blocked => .fault .hookBlocked

theorem State.loadInto_eq_orFault (s : State) (rd : RegId) (ea : Word) (g : Gran) (ext : Word → Word) (len : Word) :
    s.loadInto rd ea g ext len =
      (s.memRead ea g).orFault .load fun v s' => .next ((s'.setReg rd (ext v)).advance len) := by
  rw [State.loadInto]
  cases s.memRead ea g <;> rfl

theorem State.storeFrom_eq_orFault (s : State) (ea : Word) (g : Gran) (v len : Word) :
    s.storeFrom ea g v len = (s.memWrite ea g v).orFault .store fun _ s' => .next (s'.advance len) := by
  rw [State.storeFrom]
  cases s.memWrite ea g v <;> rfl

theorem exec_push_eq_orFault (rs : RegId) (s : State) :
    exec (.push rs) s = (s.memWrite (pushAddr s) .word (s.reg rs)).orFault .store
      fun _ s' => .next ((s'.setReg spReg (pushAddr s)).advance 2) := by
  rw [exec, execPush]
  cases s.memWrite (pushAddr s) .word (s.reg rs) <;> rfl

theorem State.runInstruction_eq_orFault (s : State) :
    s.runInstruction = s.fetch.orFault .fetch fun w => exec (decode w) := by
  rw [State.runInstruction]
  cases s.fetch <;> rfl

theorem State.routeFault_setIrq (s : State) (lines : List Nat) (k : FaultKind) (st : AccessStatus) :
    (s.setIrq lines).routeFault k st = (s.routeFault k st).setIrq lines := by
  rw [State.routeFault_eq, State.routeFault_eq, State.setIrq_ie]
  cases s.ie <;> rfl

theorem Access.orFault_setIrq {α : Type} {goOn : α → State → Result} {lines : List Nat}
    (goOn_setIrq : ∀ v s, goOn v (s.setIrq lines) = mapNext (·.setIrq lines) (goOn v s)) (k : FaultKind) (a : Access α) :
    (a.mapState (·.setIrq lines)).orFault k goOn = mapNext (·.setIrq lines) (a.orFault k goOn) := by
  cases a with
  | ok v s => exact goOn_setIrq v s
  | failed st s => exact congrArg Host.Outcome.next (s.routeFault_setIrq lines k st)
  | blocked => rfl

/-! ### The lines and the instructions -/

theorem State.loadInto_setIrq (s : State) (lines : List Nat) (rd : RegId) (ea : Word) (g : Gran) (ext : Word → Word)
    (len : Word) :
    (s.setIrq lines).loadInto rd ea g ext len = mapNext (·.setIrq lines) (s.loadInto rd ea g ext len) := by
  rw [State.loadInto_eq_orFault, State.loadInto_eq_orFault, State.memRead_setIrq]
  exact Access.orFault_setIrq (fun _ _ => rfl) .load _

theorem State.storeFrom_setIrq (s : State) (lines : List Nat) (ea : Word) (g : Gran) (v len : Word) :
    (s.setIrq lines).storeFrom ea g v len = mapNext (·.setIrq lines) (s.storeFrom ea g v len) := by
  rw [State.storeFrom_eq_orFault, State.storeFrom_eq_orFault, State.memWrite_setIrq]
  exact Access.orFault_setIrq (fun _ _ => rfl) .store _

theorem State.branchIf_setIrq (s : State) (lines : List Nat) (taken : Bool) (target : Word) :
    (s.setIrq lines).branchIf taken target = mapNext (·.setIrq lines) (s.branchIf taken target) := by
  cases taken <;> rfl

theorem exec_push_setIrq (s : State) (lines : List Nat) (rs : RegId) :
    exec (.push rs) (s.setIrq lines) = mapNext (·.setIrq lines) (exec (.push rs) s) := by
  rw [exec_push_eq_orFault, exec_push_eq_orFault, pushAddr_setIrq, State.setIrq_reg, State.memWrite_setIrq]
  exact Access.orFault_setIrq (fun _ _ => rfl) .store _

theorem exec_wait_setIrq (s : State) (lines : List Nat) :
    exec .wait (s.setIrq lines) = mapNext (·.setIrq lines) (exec .wait s) := by
  cases enabled : s.ie with
  | false => rw [exec_wait_of_disabled enabled, exec_wait_of_disabled (s := s.setIrq lines) enabled]; rfl
  | true =>
    cases mode : s.cfg.waitMode with
    | fatal => rw [exec_wait_of_fatal enabled mode, exec_wait_of_fatal (s := s.setIrq lines) enabled mode]; rfl
    | suspend => rw [exec_wait_of_suspend enabled mode, exec_wait_of_suspend (s := s.setIrq lines) enabled mode]; rfl

/-- No instruction reads or writes the lines. -/
theorem exec_setIrq (i : Instr) (s : State) (lines : List Nat) :
    exec i (s.setIrq lines) = mapNext (·.setIrq lines) (exec i s) := by
  cases i with
  | lb | lbu | lh | lhu | lw | lwc => exact s.loadInto_setIrq lines _ _ _ _ _
  | sb | sh | sw | swc => exact s.storeFrom_setIrq lines _ _ _ _
  | push rs => exact exec_push_setIrq s lines rs
  | wait => exact exec_wait_setIrq s lines
  | jt | jf | bt | bf => exact s.branchIf_setIrq lines _ _
  | unknown w => exact congrArg Host.Outcome.next (s.routeFault_setIrq lines .illegal .ok)
  | _ => rfl

theorem State.runInstruction_setIrq (s : State) (lines : List Nat) :
    (s.setIrq lines).runInstruction = mapNext (·.setIrq lines) s.runInstruction := by
  rw [State.runInstruction_eq_orFault, State.runInstruction_eq_orFault, State.fetch_setIrq]
  exact Access.orFault_setIrq (fun w s' => exec_setIrq (decode w) s' lines) .fetch _

/-! ### The sampling of a request (R282, R283) -/

theorem State.sampleRequest_of_disabled {s : State} (disabled : s.ie = false) : s.sampleRequest = none :=
  if_neg (Bool.eq_false_iff.mp disabled)

/-- A running core that samples a request takes it and fetches nothing. -/
theorem coreStep_interrupted {s : State} {v : Nat} (running : s.run = .running) (sampled : s.sampleRequest = some v) :
    coreStep s = .next (s.takeInterrupt v) := by
  simp only [coreStep, running, sampled]

/-- A running core with interrupts disabled steps the same under any lines. -/
theorem coreStep_setIrq {s : State} (running : s.run = .running) (disabled : s.ie = false) (lines : List Nat) :
    coreStep (s.setIrq lines) = mapNext (·.setIrq lines) (coreStep s) := by
  rw [coreStep_running running (State.sampleRequest_of_disabled disabled),
    coreStep_running (s := s.setIrq lines) running (State.sampleRequest_of_disabled disabled),
    State.runInstruction_setIrq]

/-- A run that the host has stopped makes no core step (40_dispatch.md R129). -/
theorem step_of_stopped {s : State} (alone : s.script = []) (stopped : s.stopped = true) :
    step s = .fault .runStopped := by
  simp [step, alone, State.letCore, stopped]

/-! ### `fire` (R272) -/

theorem State.fire_of_enabled {s : State} (enabled : s.ie = true) (v : Nat) : s.fire v = some (s.enterVector v) :=
  State.fire_eq_some.mpr ⟨enabled, rfl⟩

theorem State.fire_of_disabled {s : State} (disabled : s.ie = false) (v : Nat) : s.fire v = none :=
  if_neg (Bool.eq_false_iff.mp disabled)

/-! ### The statements -/

/-- Settles O42: a stopped run makes no step under any lines; otherwise the core's step commutes with the change. -/
theorem maskedLinesHaveNoEffect : Obligations.MaskedLinesHaveNoEffect := by
  intro s lines alone running disabled
  change step (s.setIrq lines) = mapNext (·.setIrq lines) (step s)
  cases stopped : s.stopped with
  | true => rw [step_of_stopped alone stopped, step_of_stopped (s := s.setIrq lines) alone stopped]; rfl
  | false =>
    rw [step_core alone stopped, step_core (s := s.setIrq lines) alone stopped, coreStep_setIrq running disabled]

/-- Settles O38: `fire` is the shared entry of a vector, and each kind of fault is routed with its own reason. -/
theorem faultsAreRoutedToVectorZeroOrHalt : Obligations.FaultsAreRoutedToVectorZeroOrHalt := by
  intro s st
  refine ⟨fun v => ⟨fun enabled => ?_, fun disabled => State.fire_of_disabled disabled v⟩,
    s.routeFault_routed .fetch st, s.routeFault_routed .load st, s.routeFault_routed .store st,
    s.routeFault_routed .illegal st, rfl, rfl, rfl, rfl, rfl, rfl⟩
  exact ⟨s.enterVector v, State.fire_of_enabled enabled v, s.enterVector_vectored v, rfl⟩

/-- Settles O41: the lowest raised line is the request sampled, and taking it is the shared entry of its vector. -/
theorem lowestRaisedLineIsTakenBeforeFetch : Obligations.LowestRaisedLineIsTakenBeforeFetch := by
  intro s v alone notStopped running enabled low high raised lowest
  have sampled : s.sampleRequest = some v := State.sampleRequest_eq_some.mpr ⟨enabled, ⟨low, high, raised⟩, lowest⟩
  refine ⟨s.enterVector v, ?_, s.enterVector_vectored v, running⟩
  rw [step_core alone notStopped, coreStep_interrupted running sampled, State.takeInterrupt_eq enabled]

end Sys2Proof.Machine
end

section
/-! Encoding and decoding as a round trip (30_encoding.md R81, R83 to R100). A format's word decodes to the instruction
of its opcode with the operands it was written from; the lengths and the disjointness of the opcode widths are facts
about the top byte, which tells the stage that answers. -/

namespace Sys2Proof.Laws

/-! ### A format's word decodes to its operands -/

theorem decode_encodeRR {op : BitVec 8} {mk : RegId → RegId → Instr} (enc : EncodesRR op mk) (ra rb : RegId) :
    decode (encodeRR op ra rb) = mk ra rb :=
  (enc _ (discT8_encodeRR op ra rb)).trans (congrArg₂ mk (fieldRa_encodeRR op ra rb) (fieldRb_encodeRR op ra rb))

theorem decode_encodeRR_of_encodesR {op : BitVec 8} {mk : RegId → Instr} (enc : EncodesR op mk) (ra : RegId) :
    decode (encodeRR op ra 0) = mk ra :=
  (enc _ (discT8_encodeRR op ra 0)).trans (congrArg mk (fieldRa_encodeRR op ra 0))

theorem decode_encodeRR_of_encodesOp {op : BitVec 8} {i : Instr} (enc : EncodesOp op i) :
    decode (encodeRR op 0 0) = i := enc _ (discT8_encodeRR op 0 0)

theorem decode_encodeRR16 {op : BitVec 8} {mk : RegId → RegId → BitVec 16 → Instr} (enc : EncodesRR16 op mk)
    (ra rb : RegId) (imm : BitVec 16) : decode (encodeRR16 op ra rb imm) = mk ra rb imm := by
  have decoded : decode (encodeRR16 op ra rb imm) = mk (fieldRa _) (fieldRb _) (fieldImm16 _) :=
    enc _ (discT8_encodeRR16 op ra rb imm)
  rw [decoded, fieldRa_encodeRR16, fieldRb_encodeRR16, fieldImm16_encodeRR16]

theorem decode_encodeRR16_of_encodesR16 {op : BitVec 8} {mk : RegId → BitVec 16 → Instr} (enc : EncodesR16 op mk)
    (ra : RegId) (imm : BitVec 16) : decode (encodeRR16 op ra 0 imm) = mk ra imm :=
  (enc _ (discT8_encodeRR16 op ra 0 imm)).trans
    (congrArg₂ mk (fieldRa_encodeRR16 op ra 0 imm) (fieldImm16_encodeRR16 op ra 0 imm))

theorem decode_encodeC {op : BitVec 6} {mk : CRegId → CRegId → BitVec 6 → Instr} (enc : EncodesC op mk)
    (ca cb : CRegId) (imm : BitVec 6) : decode (encodeC op ca cb imm) = mk ca cb imm := by
  have decoded : decode (encodeC op ca cb imm) = mk (fieldCa _) (fieldCb _) (fieldImm6 _) :=
    enc _ (discT6_encodeC op ca cb imm)
  rw [decoded, fieldCa_encodeC, fieldCb_encodeC, fieldImm6_encodeC]

theorem decode_encodeRI {op : BitVec 4} {mk : RegId → BitVec 8 → Instr} (enc : EncodesRI op mk) (ra : RegId)
    (imm : BitVec 8) : decode (encodeRI op ra imm) = mk ra imm :=
  (enc _ (discT4_encodeRI op ra imm)).trans (congrArg₂ mk (fieldRaRI_encodeRI op ra imm) (fieldImm8_encodeRI op ra imm))

theorem decode_encodeB12 {op : BitVec 4} {mk : BitVec 12 → Instr} (enc : EncodesB12 op mk) (imm : BitVec 12) :
    decode (encodeB12 op imm) = mk imm :=
  (enc _ (discT4_encodeB12 op imm)).trans (congrArg mk (fieldImm12_encodeB12 op imm))

theorem decode_encodeB28 {op : BitVec 4} {mk : BitVec 28 → Instr} (enc : EncodesB28 op mk) (imm : BitVec 28) :
    decode (encodeB28 op imm) = mk imm :=
  enc _ imm (discT4_encodeB28 op imm) (by rw [← fieldImm28_toNat, fieldImm28_encodeB28])

/-! ### The round trip -/

/-- Settles O1: each constructor is its format's round trip at its own opcode; an unassigned top byte is `Unknown`. -/
theorem encodeThenDecodeIsIdentity : Obligations.EncodeThenDecodeIsIdentity := by
  intro i wf
  cases i with
  | mov => exact decode_encodeRR encodesRR_mov _ _
  | add => exact decode_encodeRR encodesRR_add _ _
  | sub => exact decode_encodeRR encodesRR_sub _ _
  | and => exact decode_encodeRR encodesRR_and _ _
  | or => exact decode_encodeRR encodesRR_or _ _
  | xor => exact decode_encodeRR encodesRR_xor _ _
  | shl => exact decode_encodeRR encodesRR_shl _ _
  | shr => exact decode_encodeRR encodesRR_shr _ _
  | sar => exact decode_encodeRR encodesRR_sar _ _
  | teq => exact decode_encodeRR encodesRR_teq _ _
  | tne => exact decode_encodeRR encodesRR_tne _ _
  | tlt => exact decode_encodeRR encodesRR_tlt _ _
  | tltu => exact decode_encodeRR encodesRR_tltu _ _
  | tge => exact decode_encodeRR encodesRR_tge _ _
  | tgeu => exact decode_encodeRR encodesRR_tgeu _ _
  | j => exact decode_encodeRR_of_encodesR encodesR_j _
  | jal => exact decode_encodeRR_of_encodesR encodesR_jal _
  | jt => exact decode_encodeRR_of_encodesR encodesR_jt _
  | jf => exact decode_encodeRR_of_encodesR encodesR_jf _
  | push => exact decode_encodeRR_of_encodesR encodesR_push _
  | ei => exact decode_encodeRR_of_encodesOp encodesOp_ei
  | di => exact decode_encodeRR_of_encodesOp encodesOp_di
  | reti => exact decode_encodeRR_of_encodesOp encodesOp_reti
  | wait => exact decode_encodeRR_of_encodesOp encodesOp_wait
  | lb => exact decode_encodeRR16 encodesRR16_lb _ _ _
  | lbu => exact decode_encodeRR16 encodesRR16_lbu _ _ _
  | lh => exact decode_encodeRR16 encodesRR16_lh _ _ _
  | lhu => exact decode_encodeRR16 encodesRR16_lhu _ _ _
  | lw => exact decode_encodeRR16 encodesRR16_lw _ _ _
  | sb => exact decode_encodeRR16 encodesRR16_sb _ _ _
  | sh => exact decode_encodeRR16 encodesRR16_sh _ _ _
  | sw => exact decode_encodeRR16 encodesRR16_sw _ _ _
  | addi => exact decode_encodeRR16 encodesRR16_addi _ _ _
  | andi => exact decode_encodeRR16 encodesRR16_andi _ _ _
  | ori => exact decode_encodeRR16 encodesRR16_ori _ _ _
  | xori => exact decode_encodeRR16 encodesRR16_xori _ _ _
  | shli => exact decode_encodeRR16 encodesRR16_shli _ _ _
  | shri => exact decode_encodeRR16 encodesRR16_shri _ _ _
  | sari => exact decode_encodeRR16 encodesRR16_sari _ _ _
  | lil => exact decode_encodeRR16_of_encodesR16 encodesR16_lil _ _
  | lih => exact decode_encodeRR16_of_encodesR16 encodesR16_lih _ _
  | lwc => exact decode_encodeC encodesC_lwc _ _ _
  | swc => exact decode_encodeC encodesC_swc _ _ _
  | li => exact decode_encodeRI encodesRI_li _ _
  | liu => exact decode_encodeRI encodesRI_liu _ _
  | bra => exact decode_encodeB12 encodesB12_bra _
  | bt => exact decode_encodeB12 encodesB12_bt _
  | bf => exact decode_encodeB12 encodesB12_bf _
  | jmp => exact decode_encodeB28 encodesB28_jmp _
  | call => exact decode_encodeB28 encodesB28_call _
  | unknown w => exact (decode_eq_unknown_self_iff w).mpr wf

/-! ### Bytes (R81) -/

theorem wordOfBytes_bytesOfWord (w : Word) :
    wordOfBytes (w.extractLsb' 0 8) (w.extractLsb' 8 8) (w.extractLsb' 16 8) (w.extractLsb' 24 8) = w := by
  apply BitVec.eq_of_getLsbD_eq
  intro i hi
  interval_cases i <;> simp [wordOfBytes]

/-- The first two bytes of a word are its low half, whatever the last two are. -/
theorem wordOfBytes_lowHalf (w : Word) (b2 b3 : Byte) :
    (wordOfBytes (w.extractLsb' 0 8) (w.extractLsb' 8 8) b2 b3).extractLsb' 0 16 = w.extractLsb' 0 16 := by
  apply BitVec.eq_of_getLsbD_eq
  intro i hi
  interval_cases i <;> simp [wordOfBytes]

theorem decodeBytes_four (b0 b1 b2 b3 : Byte) (rest : List Byte) :
    decodeBytes (b0 :: b1 :: b2 :: b3 :: rest) = .ok (decode (wordOfBytes b0 b1 b2 b3),
      (b0 :: b1 :: b2 :: b3 :: rest).drop (decode (wordOfBytes b0 b1 b2 b3)).len) := rfl

theorem wf_of_known {i : Instr} (known : ∀ u, i ≠ .unknown u) : i.wf = true := by
  cases i with
  | unknown u => exact absurd rfl (known u)
  | _ => rfl

theorem len_two_or_four (i : Instr) : i.len = 2 ∨ i.len = 4 := by
  cases i <;> simp [Instr.len]

/-- Settles O2: an instruction of 4 bytes is the round trip of its word, and one of 2 bytes is told by its low half. -/
theorem bytesDecodeAndAreConsumed : Obligations.BytesDecodeAndAreConsumed := by
  intro i rest known enough
  have roundTrip : decode (encode i) = i := encodeThenDecodeIsIdentity i (wf_of_known known)
  rcases len_two_or_four i with two | four
  · match rest, enough with
    | b2 :: b3 :: rest, _ =>
      have low := wordOfBytes_lowHalf (encode i) b2 b3
      obtain ⟨sameDecode, -⟩ := unusedBitsAreIgnored
      have decoded := (sameDecode _ _ (by rwa [roundTrip]) (by rwa [roundTrip]) low).trans roundTrip
      simp [encodeBytes, bytesOfWord, two, decodeBytes_four, decoded]
    | [_], enough | [], enough => simp [two] at enough
  · simp [encodeBytes, bytesOfWord, four, decodeBytes_four, wordOfBytes_bytesOfWord, roundTrip]

/-! ### What the top byte tells of a stage's answer (R100) -/

theorem len_of_decode8 {w : Word} {i : Instr} (h : decode8 w = some i) :
    i.len = if 0x20 ≤ (discT8 w).toNat then 4 else 2 := by
  unfold decode8 at h
  split at h
  case h_42 => cases h
  all_goals next op => rw [op, ← Option.some.inj h]; rfl

theorem len_of_decode6 {w : Word} {i : Instr} (h : decode6 w = some i) : i.len = 2 := by
  unfold decode6 at h
  split at h
  case h_3 => cases h
  all_goals rw [← Option.some.inj h]; rfl

theorem len_of_decode4 {w : Word} {i : Instr} (h : decode4 w = some i) :
    i.len = if 0xB ≤ (discT4 w).toNat then 4 else 2 := by
  unfold decode4 at h
  split at h
  case h_8 => cases h
  all_goals next op => rw [op, ← Option.some.inj h]; rfl

theorem decode8_eq_some {w : Word} {i : Instr} (h : decode8 w = some i) :
    (1 ≤ (discT8 w).toNat ∧ (discT8 w).toNat ≤ 0x18) ∨ (0x20 ≤ (discT8 w).toNat ∧ (discT8 w).toNat ≤ 0x30) := by
  have answers := mt (decode8_eq_none_iff w).mpr (by simp [h])
  omega

theorem decode6_eq_some {w : Word} {i : Instr} (h : decode6 w = some i) :
    0x40 ≤ (discT8 w).toNat ∧ (discT8 w).toNat ≤ 0x47 := by
  have answers := mt (decode6_eq_none_iff w).mpr (by simp [h])
  have top := discT6_toNat w
  omega

theorem decode4_eq_some {w : Word} {i : Instr} (h : decode4 w = some i) :
    (0x50 ≤ (discT8 w).toNat ∧ (discT8 w).toNat ≤ 0x6F) ∨ (0x80 ≤ (discT8 w).toNat ∧ (discT8 w).toNat ≤ 0xCF) := by
  have answers := mt (decode4_eq_none_iff w).mpr (by simp [h])
  have top := discT4_toNat w
  omega

/-! ### The widths are disjoint (R93, R94) -/

theorem decode6_and_decode4_of_decode8 {w : Word} {i : Instr} (h : decode8 w = some i) :
    decode6 w = none ∧ decode4 w = none := by
  have top := decode8_eq_some h
  have top6 := discT6_toNat w
  have top4 := discT4_toNat w
  exact ⟨(decode6_eq_none_iff w).mpr (by omega), (decode4_eq_none_iff w).mpr (by omega)⟩

theorem decode4_of_decode6 {w : Word} {i : Instr} (h : decode6 w = some i) : decode4 w = none := by
  have top := decode6_eq_some h
  have top4 := discT4_toNat w
  exact (decode4_eq_none_iff w).mpr (by omega)

/-- A word decodes to the answer of the one stage that gives one, or to `Unknown`. -/
theorem decode_cases (w : Word) :
    (∃ i, decode w = i ∧ decode8 w = some i ∧ decode6 w = none ∧ decode4 w = none) ∨
    (∃ i, decode w = i ∧ decode8 w = none ∧ decode6 w = some i ∧ decode4 w = none) ∨
    (∃ i, decode w = i ∧ decode8 w = none ∧ decode6 w = none ∧ decode4 w = some i) ∨
    (decode w = .unknown w ∧ decode8 w = none ∧ decode6 w = none ∧ decode4 w = none) := by
  cases e8 : decode8 w with
  | some i => exact .inl ⟨i, decode_of_decode8 e8, rfl, decode6_and_decode4_of_decode8 e8⟩
  | none =>
    cases e6 : decode6 w with
    | some i => exact .inr (.inl ⟨i, by simp [decode, e8, decode7, e6], rfl, rfl, decode4_of_decode6 e6⟩)
    | none =>
      cases e4 : decode4 w with
      | some i => exact .inr (.inr (.inl ⟨i, by simp [decode, e8, decode7, e6, e4], rfl, rfl, rfl⟩))
      | none => exact .inr (.inr (.inr ⟨by simp [decode, e8, decode7, e6, e4], rfl, rfl, rfl⟩))

/-- Settles O6: the top bytes of the three widths are apart, so exactly one stage answers. -/
theorem discriminatorClassesAreDisjoint : Obligations.DiscriminatorClassesAreDisjoint := by
  refine ⟨fun _ => rfl, fun w h8 => ?_, fun w h6 => ?_, fun w i known => ?_⟩
  · obtain ⟨i, e8⟩ := Option.isSome_iff_exists.mp h8
    exact decode6_and_decode4_of_decode8 e8
  · obtain ⟨i, e6⟩ := Option.isSome_iff_exists.mp h6
    exact decode4_of_decode6 e6
  · rcases decode_cases w with ⟨j, e, e8, e6, e4⟩ | ⟨j, e, e8, e6, e4⟩ | ⟨j, e, e8, e6, e4⟩ | ⟨e, e8, e6, e4⟩
    · simp [e, e8, e6, e4]
    · simp [e, e8, e6, e4]
    · simp [e, e8, e6, e4]
    · simpa [e, e8, e6, e4] using (known w).symm

/-- Settles O5: the stage that answers and the length of its answer are both told by the top byte. -/
theorem lengthIsToldByTheTopByte : Obligations.LengthIsToldByTheTopByte := by
  intro w
  change (decode w).len = if (0x20 ≤ (discT8 w).toNat ∧ (discT8 w).toNat ≤ 0x30) ∨
    (0xB0 ≤ (discT8 w).toNat ∧ (discT8 w).toNat ≤ 0xCF) then 4 else 2
  rcases decode_cases w with ⟨i, e, e8, -, -⟩ | ⟨i, e, -, e6, -⟩ | ⟨i, e, -, -, e4⟩ | ⟨e, n8, n6, n4⟩
  · have top := decode8_eq_some e8
    rw [e, len_of_decode8 e8]
    exact if_congr (by omega) rfl rfl
  · have top := decode6_eq_some e6
    rw [e, len_of_decode6 e6, if_neg (by omega)]
  · have top := decode4_eq_some e4
    have top4 := discT4_toNat w
    rw [e, len_of_decode4 e4]
    exact if_congr (by omega) rfl rfl
  · have top8 := (decode8_eq_none_iff w).mp n8
    have top4 := (decode4_eq_none_iff w).mp n4
    have toNat4 := discT4_toNat w
    rw [e, if_neg (by omega)]
    rfl

/-- Settles O7: the decoder evaluates on each of the words. -/
theorem specWordsDecodeAsWritten : Obligations.SpecWordsDecodeAsWritten := by
  unfold Obligations.SpecWordsDecodeAsWritten
  decide

end Sys2Proof.Laws
end

section
/-! RAM and MMIO accesses (20_memory.md R53 to R63). What a read sees is told by the bytes of RAM, so a write is
read back through them whatever the two granularities are; what a hook call leaves is told by the one draw it makes. -/

namespace Sys2Proof.Machine

/-! ### Legal parameters and aligned addresses (00_scope.md R8) -/

theorem Params.wf_bounds {c : Params} (h : c.wf = true) :
    c.ramSize % 4 = 0 ∧ 4 ≤ c.ramSize ∧ c.ramSize ≤ c.mmioBase.toNat ∧ c.mmioBase.toNat % 4 = 0 ∧
      c.vectorBase.toNat % 2 = 0 ∧ c.vectorStride.toNat % 2 = 0 := by
  simp only [Params.wf, Bool.and_eq_true, beq_iff_eq, decide_eq_true_iff] at h
  omega

theorem Gran.bytes_cases (g : Gran) : g.bytes = 1 ∨ g.bytes = 2 ∨ g.bytes = 4 := by
  cases g <;> decide

/-- An offset inside an aligned access does not wrap. -/
theorem add_toNat_of_aligned {a : Word} {g : Gran} {k : Nat} (aligned : a.toNat % g.bytes = 0) (hk : k < g.bytes) :
    (a + BitVec.ofNat 32 k).toNat = a.toNat + k := by
  have below := a.isLt
  rw [BitVec.toNat_add, BitVec.toNat_ofNat]
  rcases g.bytes_cases with e | e | e <;> rw [e] at aligned hk <;> omega

/-- Addresses on the same side of both bounds have the same class. -/
theorem classify_congr {c : Params} {a b : Word} (ram : a.toNat < c.ramSize ↔ b.toNat < c.ramSize)
    (mmio : c.mmioBase.toNat ≤ a.toNat ↔ c.mmioBase.toNat ≤ b.toNat) : classify c a = classify c b := by
  simp only [classify, ram, mmio]

/-- Settles O20: both bounds are multiples of 4, so an aligned access lies on one side of each. -/
theorem noAlignedAccessStraddlesClasses : Obligations.NoAlignedAccessStraddlesClasses := by
  intro c a g legal aligned
  have bounds := Params.wf_bounds legal
  refine ⟨fun k hk => ?_, fun ram => ?_⟩
  · have sum := add_toNat_of_aligned aligned hk
    refine ⟨sum, classify_congr ?_ ?_⟩ <;> rw [sum] <;>
      rcases g.bytes_cases with e | e | e <;> rw [e] at aligned hk <;> omega
  · have below := classify_ram.mp ram
    rcases g.bytes_cases with e | e | e <;> rw [e] at aligned ⊢ <;> omega

/-! ### A value in RAM -/

/-- The `n` bytes of RAM at `a` are the low bytes of `v`, little-endian. -/
def Memory.Holds (m : Memory) (a n : Nat) (v : Word) : Prop := ∀ i, i < n → m.read (a + i) = v.extractLsb' (8 * i) 8

theorem Memory.holds_writeBytes_split (m : Memory) (a : Nat) (g : Gran) (v : Word) :
    (m.writeBytes a (g.split v)).Holds a g.bytes v := by
  intro i hi
  rw [Memory.read_writeBytes_split, if_pos (by omega), Nat.add_sub_cancel_left]

/-- An aligned write to RAM leaves RAM holding the value. -/
theorem State.memWrite_holds {s : State} {a : Word} {g : Gran} (v : Word) (ram : a.toNat < s.cfg.ramSize)
    (aligned : a.toNat % g.bytes = 0) :
    ∃ m, s.memWrite a g v = .ok () (s.setRam m) ∧ m.Holds a.toNat g.bytes v :=
  ⟨_, State.memWrite_ram v ram aligned, Memory.holds_writeBytes_split _ _ _ _⟩

/-- Bytes inside those of a value are the bytes of the value shifted down. -/
theorem Memory.Holds.shift {m : Memory} {a n : Nat} {v : Word} (h : m.Holds a n v) {j k : Nat} (inside : j + k ≤ n) :
    m.Holds (a + j) k (v >>> (8 * j)) := by
  intro i hi
  have byte : (v >>> (8 * j)).extractLsb' (8 * i) 8 = v.extractLsb' (8 * (j + i)) 8 := by
    apply BitVec.eq_of_getLsbD_eq
    intro b hb
    simp [hb, show 8 * j + (8 * i + b) = 8 * (j + i) + b by omega]
  rw [byte, Nat.add_assoc]
  exact h (j + i) (by omega)

/-- An aligned read of RAM gives the value its bytes hold, cut to the width, and changes nothing. -/
theorem State.memRead_of_holds {s : State} {a v : Word} {g : Gran} (ram : a.toNat < s.cfg.ramSize)
    (aligned : a.toNat % g.bytes = 0) (holds : s.ram.Holds a.toNat g.bytes v) : s.memRead a g = .ok (g.trunc v) s := by
  rw [State.memRead_ram ram aligned, Memory.readLE_of_bytes _ _ _ _ holds]

/-- Settles O23: the write leaves the value's bytes in RAM, and the read finds them. -/
theorem ramWriteThenReadReturnsTheValue : Obligations.RamWriteThenReadReturnsTheValue := by
  intro s a v g ram aligned
  obtain ⟨m, write, holds⟩ := State.memWrite_holds v ram aligned
  exact ⟨s.setRam m, g.trunc v, write, State.memRead_of_holds ram aligned holds, g.trunc_toNat v⟩

/-! ### A word in RAM, read in parts -/

/-- An aligned read inside an aligned word of RAM gives that part of the word. -/
theorem State.memRead_inside_word {s : State} {a v : Word} {g : Gran} {j : Nat} (ram : a.toNat < s.cfg.ramSize)
    (ramWords : s.cfg.ramSize % 4 = 0) (aligned : a.toNat % 4 = 0) (holds : s.ram.Holds a.toNat 4 v)
    (part : j % g.bytes = 0) (inside : j + g.bytes ≤ 4) :
    s.memRead (a + BitVec.ofNat 32 j) g = .ok (g.trunc (v >>> (8 * j))) s := by
  have positive : 0 < g.bytes := by rcases g.bytes_cases with e | e | e <;> omega
  have sum : (a + BitVec.ofNat 32 j).toNat = a.toNat + j :=
    add_toNat_of_aligned (g := .word) aligned (show j < 4 by omega)
  refine State.memRead_of_holds ?_ ?_ ?_ <;> rw [sum]
  · omega
  · rcases g.bytes_cases with e | e | e <;> rw [e] at part ⊢ <;> omega
  · exact holds.shift inside

theorem Gran.trunc_byte_shift (v : Word) (k : Nat) :
    Gran.trunc .byte (v >>> (8 * k)) = (v.extractLsb' (8 * k) 8).setWidth 32 := by
  apply BitVec.eq_of_getLsbD_eq
  intro i hi
  by_cases h : i < 8 <;> simp [Gran.trunc, zextByte, zext, hi, h]

theorem Gran.trunc_half_shift (v : Word) (k : Nat) :
    Gran.trunc .half (v >>> (8 * (2 * k))) = (v.extractLsb' (16 * k) 16).setWidth 32 := by
  rw [show 8 * (2 * k) = 16 * k by omega]
  apply BitVec.eq_of_getLsbD_eq
  intro i hi
  by_cases h : i < 16 <;> simp [Gran.trunc, zextHalf, zext, hi, h]

/-- A word is made of its two halves. -/
theorem halves_or_eq (v : Word) :
    Gran.trunc .half v ||| (Gran.trunc .half (v >>> 16)) <<< 16 = v := by
  apply BitVec.eq_of_getLsbD_eq
  intro i hi
  interval_cases i <;> simp [Gran.trunc, zextHalf, zext]

/-- A fetch at an even `pc` whose four bytes lie in RAM reads the word they hold (30_encoding.md R80). -/
theorem State.fetch_of_holds {s : State} {v : Word} (even : s.pc.toNat % 2 = 0) (ram : s.pc.toNat + 3 < s.cfg.ramSize)
    (noWrap : s.pc.toNat + 3 < 2 ^ 32) (holds : s.ram.Holds s.pc.toNat 4 v) : s.fetch = .ok v s := by
  have sum : (s.pc + 2).toNat = s.pc.toNat + 2 := by
    rw [BitVec.toNat_add]
    exact Nat.mod_eq_of_lt (show s.pc.toNat + 2 < 2 ^ 32 by omega)
  have low : s.memRead s.pc .half = .ok (Gran.trunc .half v) s :=
    State.memRead_of_holds (by omega) even (fun i hi => holds i (Nat.lt_trans hi (by decide)))
  have high : s.memRead (s.pc + 2) .half = .ok (Gran.trunc .half (v >>> 16)) s := by
    refine State.memRead_of_holds ?_ ?_ ?_ <;> rw [sum]
    · omega
    · exact (Nat.add_mod_right _ 2).trans even
    · exact holds.shift (j := 2) (by decide)
  simp only [State.fetch, low, high, halves_or_eq]

/-- Settles O22: the write leaves the word's bytes in RAM, where every narrower read finds its part of them. -/
theorem narrowReadsSeeTheBytesOfAWordWrite : Obligations.NarrowReadsSeeTheBytesOfAWordWrite := by
  intro s a v legal ram aligned
  obtain ⟨ramWords, -⟩ := Params.wf_bounds legal
  obtain ⟨m, write, holds⟩ := State.memWrite_holds (g := .word) v ram aligned
  refine ⟨s.setRam m, write, fun k hk => ?_, fun k hk => ?_, State.memRead_of_holds ram aligned holds,
    State.fetch_of_holds (s := { s.setRam m with pc := a }) ?_ ?_ ?_ holds⟩
  · rw [← Gran.trunc_byte_shift]
    exact State.memRead_inside_word ram ramWords aligned holds (Nat.mod_one k) (show k + 1 ≤ 4 by omega)
  · rw [← Gran.trunc_half_shift]
    exact State.memRead_inside_word ram ramWords aligned holds (Nat.mul_mod_right 2 k) (show 2 * k + 2 ≤ 4 by omega)
  · change a.toNat % 2 = 0
    omega
  · change a.toNat + 3 < s.cfg.ramSize
    omega
  · change a.toNat + 3 < 2 ^ 32
    have := a.isLt
    omega

/-! ### Failed accesses, reads, and hook calls -/

/-- Settles O24: a failed access and a read are at most one hook call. -/
theorem failedAccessesAndReadsChangeNoRam : Obligations.FailedAccessesAndReadsChangeNoRam := by
  refine ⟨fun s s' a v g st failed => ?_, fun s s' a g st failed => ?_, fun s s' a v g read => ?_⟩
  · have ⟨hooks, notOk⟩ := State.memWrite_failed_onlyHooks failed
    exact ⟨notOk, hooks, State.memWrite_failed_ram failed⟩
  · have ⟨hooks, notOk⟩ := State.memRead_failed_onlyHooks failed
    exact ⟨notOk, hooks, State.memRead_failed_ram failed⟩
  · exact ⟨State.memRead_ok_onlyHooks read, State.memRead_ok_ram read⟩

/-- A read that returns logs its hook call where it makes one (20_memory.md R61). -/
theorem State.memRead_mmioLog {s s' : State} {a x : Word} {g : Gran} {st : AccessStatus}
    (h : s.memRead a g = .ok x s' ∨ s.memRead a g = .failed st s') :
    s'.mmioLog = if classify s.cfg a = .mmio ∧ g.aligned a = true ∧ s.readHook = true
      then .read (a - s.cfg.mmioBase) g :: s.mmioLog else s.mmioLog := by
  rcases h with ok | failed
  · rcases State.memRead_ok ok with ⟨aligned, ⟨ram, rfl, -⟩ | ⟨mmio, hook, u, call, -⟩⟩
    · rw [if_neg (by simp [ram])]
    · rw [if_pos ⟨mmio, aligned, hook⟩, (State.callHook_ok call).2.1]
  · rcases State.memRead_failed failed with
      ⟨unmapped, -, rfl⟩ | ⟨-, misaligned, -, rfl⟩ | ⟨-, -, noHook, -, rfl⟩ | ⟨mmio, aligned, hook, call⟩
    · rw [if_neg (by simp [unmapped])]
    · rw [if_neg (by simp [misaligned])]
    · rw [if_neg (by simp [noHook])]
    · rw [if_pos ⟨mmio, aligned, hook⟩, (State.callHook_failed call).2.2.1]

/-- A write that returns logs its hook call, with the cut value, where it makes one (20_memory.md R61). -/
theorem State.memWrite_mmioLog {s s' : State} {a v : Word} {g : Gran} {st : AccessStatus}
    (h : s.memWrite a g v = .ok () s' ∨ s.memWrite a g v = .failed st s') :
    s'.mmioLog = if classify s.cfg a = .mmio ∧ g.aligned a = true ∧ s.writeHook = true
      then .write (a - s.cfg.mmioBase) g (g.trunc v) :: s.mmioLog else s.mmioLog := by
  rcases h with ok | failed
  · rcases State.memWrite_ok ok with ⟨aligned, ⟨ram, rfl⟩ | ⟨mmio, hook, u, call⟩⟩
    · rw [if_neg (by simp [ram]), State.setRam_mmioLog]
    · rw [if_pos ⟨mmio, aligned, hook⟩, (State.callHook_ok call).2.1]
  · rcases State.memWrite_failed failed with
      ⟨unmapped, -, rfl⟩ | ⟨-, misaligned, -, rfl⟩ | ⟨-, -, noHook, -, rfl⟩ | ⟨mmio, aligned, hook, call⟩
    · rw [if_neg (by simp [unmapped])]
    · rw [if_neg (by simp [misaligned])]
    · rw [if_neg (by simp [noHook])]
    · rw [if_pos ⟨mmio, aligned, hook⟩, (State.callHook_failed call).2.2.1]

/-- Settles O25: the log after an access, with alignment read as divisibility. -/
theorem mmioAccessesMakeExactlyOneHookCall : Obligations.MmioAccessesMakeExactlyOneHookCall := by
  intro s s' a v x g st
  refine ⟨fun read => ?_, fun write => ⟨g.trunc v, g.trunc_toNat v, ?_⟩⟩
  · simp only [← Gran.aligned_iff, State.memRead_mmioLog read]
  · simp only [← Gran.aligned_iff, State.memWrite_mmioLog write]

end Sys2Proof.Machine
end

section
/-! Loads, stores and `push` at RAM and at MMIO addresses (20_memory.md R53 to R62, 41_loads_stores.md). At RAM the
rules in terms of the MMU (R140 to R153) meet an access that completes in place; for the other addresses each instruction
with a data access is brought to its access once, and the access tells how it ends. -/

namespace Sys2Proof.Machine

/-! ### The number that bytes of RAM make -/

theorem Memory.readLE_byte_extract (m : Memory) (a : Nat) : (m.readLE a .byte).extractLsb' 0 8 = m.read a := by
  apply BitVec.eq_of_getLsbD_eq
  intro i hi
  simp [Memory.readLE, zext, hi, show i < 32 by omega]

theorem Memory.readLE_byte_toNat (m : Memory) (a : Nat) : (m.readLE a .byte).toNat = (m.read a).toNat :=
  zext_toNat (m.read a) (by decide)

theorem Memory.readLE_half_eq_append (m : Memory) (a : Nat) :
    m.readLE a .half = zext (m.read (a + 1) ++ m.read a) :=
  (BitVec.or_comm _ _).trans BitVec.setWidth_append_eq_shiftLeft_setWidth_or.symm

theorem Memory.readLE_word_eq_append (m : Memory) (a : Nat) :
    m.readLE a .word = zext (m.read (a + 3) ++ (m.read (a + 2) ++ (m.read (a + 1) ++ m.read a))) := by
  rw [zext, BitVec.setWidth_append_eq_shiftLeft_setWidth_or, BitVec.setWidth_append_eq_shiftLeft_setWidth_or,
    BitVec.setWidth_append_eq_shiftLeft_setWidth_or, Memory.readLE, BitVec.or_comm (zext (m.read a)),
    BitVec.or_comm _ (zext (m.read (a + 2)) <<< 16), BitVec.or_comm _ (zext (m.read (a + 3)) <<< 24)]
  rfl

theorem append_toNat {n k : Nat} (hi : BitVec n) (lo : BitVec k) : (hi ++ lo).toNat = lo.toNat + 2 ^ k * hi.toNat := by
  rw [BitVec.toNat_append, ← Nat.shiftLeft_add_eq_or_of_lt lo.isLt, Nat.shiftLeft_eq]
  ring

theorem Memory.readLE_half_toNat (m : Memory) (a : Nat) :
    (m.readLE a .half).toNat = (m.read a).toNat + 2 ^ 8 * (m.read (a + 1)).toNat := by
  rw [Memory.readLE_half_eq_append, zext_toNat _ (by decide), append_toNat]

theorem Memory.readLE_half_extract_toInt (m : Memory) (a : Nat) :
    ((m.readLE a .half).extractLsb' 0 16).toInt =
      Int.bmod ((m.read a).toNat + 2 ^ 8 * (m.read (a + 1)).toNat) (2 ^ 16) := by
  have low : ((m.readLE a .half).extractLsb' 0 16).toNat = (m.readLE a .half).toNat % 2 ^ 16 :=
    BitVec.extractLsb'_toNat 0 16 _
  have below : (m.readLE a .half).toNat < 2 ^ 16 := by rw [Memory.readLE_half_toNat]; omega
  rw [BitVec.toInt_eq_toNat_bmod, low, Nat.mod_eq_of_lt below, Memory.readLE_half_toNat]
  rfl

theorem Memory.readLE_word_toNat (m : Memory) (a : Nat) :
    (m.readLE a .word).toNat = (m.read a).toNat + 2 ^ 8 * (m.read (a + 1)).toNat
      + 2 ^ 16 * (m.read (a + 2)).toNat + 2 ^ 24 * (m.read (a + 3)).toNat := by
  rw [Memory.readLE_word_eq_append, zext_toNat _ (by decide), append_toNat, append_toNat, append_toNat]

/-! ### Loads from RAM -/

/-- A load from an aligned RAM address completes with what its rule makes of the bytes there. -/
theorem LoadRule.of_ram {i : Instr} {s : State} {ea : Word} {g : Gran} {rd : RegId} {len : Word}
    {value : Word → Word → Prop} {p : Word → Prop} (rule : LoadRule i s ea g rd len value)
    (ram : ea.toNat < s.cfg.ramSize) (aligned : ea.toNat % g.bytes = 0)
    (means : ∀ x, value (s.ram.readLE ea.toNat g) x → p x) :
    ∃ t x, exec i s = .next t ∧ WroteReg s t rd x (s.pc + len) ∧ p x := by
  obtain ⟨onOk, -⟩ := rule
  obtain ⟨-, t, x, next, wrote, holds⟩ := onOk _ _ (State.memRead_ram ram aligned)
  exact ⟨t, x, next, wrote, means x holds⟩

/-- Settles O29: each load's rule at an MMU read that answers the number its bytes make. -/
theorem loadsFromRamWriteTheBytesAtTheAddress : Obligations.LoadsFromRamWriteTheBytesAtTheAddress := by
  obtain ⟨⟨-, lb⟩, ⟨-, lbu⟩, ⟨-, lh⟩, ⟨-, lhu⟩, ⟨-, lw⟩, ⟨-, lwc⟩⟩ := loadsFollowTheMmuRead
  intro s rd b off crd cb coff
  refine ⟨?_, ?_⟩
  · rintro _ rfl ram
    refine ⟨?_, ?_, fun even => ⟨?_, ?_⟩, fun aligned => ?_⟩
    · exact (lb s rd b off).of_ram ram (Nat.mod_one _) fun x h => by rw [h, Memory.readLE_byte_extract]
    · refine (lbu s rd b off).of_ram ram (Nat.mod_one _) fun x h => ?_
      rw [h, Memory.readLE_byte_toNat, Nat.mod_eq_of_lt (BitVec.isLt _)]
    · exact (lh s rd b off).of_ram ram even fun x h => by rw [h, Memory.readLE_half_extract_toInt]
    · refine (lhu s rd b off).of_ram ram even fun x h => ?_
      rw [h, Memory.readLE_half_toNat]
      omega
    · exact (lw s rd b off).of_ram ram aligned fun x h => by rw [h, Memory.readLE_word_toNat]
  · rintro _ rfl ram aligned
    exact (lwc s crd cb coff).of_ram ram aligned fun x h => by rw [h, Memory.readLE_word_toNat]

/-! ### Stores to RAM -/

/-- Completing after a write of `v` to RAM, with RAM as the write left it, stores the bytes of `v`. -/
theorem storedBytes_of_setRam {s t : State} {a v next : Word} {g : Gran}
    (ram : SameRam (s.setRam (s.ram.writeBytes a.toNat (g.split v))) t) (tbit : t.t = s.t)
    (rest : SameRest (s.setRam (s.ram.writeBytes a.toNat (g.split v))) t)
    (commit : Committed (s.setRam (s.ram.writeBytes a.toNat (g.split v))) t next) : StoredBytes s t a g v next where
  stored i hi := (ram _).trans (Memory.holds_writeBytes_split s.ram a.toNat g v i hi)
  otherBytes b hb := by rw [ram, State.setRam_ram, Memory.read_writeBytes_split, if_neg (by omega)]
  tbit := tbit
  rest :=
    { control := { rest.control with }
      inputs := { rest.inputs with }
      hooks := { rest.hooks with } }
  commit := { commit with }

/-- A store to an aligned RAM address completes and stores its bytes. -/
theorem StoreRule.of_ram {i : Instr} {s : State} {ea : Word} {g : Gran} {rs : RegId} {len : Word}
    (rule : StoreRule i s ea g rs len) (ram : ea.toNat < s.cfg.ramSize) (aligned : ea.toNat % g.bytes = 0) :
    ∃ t, exec i s = .next t ∧ SameRegs s t ∧ StoredBytes s t ea g (s.reg rs) (s.pc + len) := by
  obtain ⟨onOk, -⟩ := rule
  obtain ⟨-, t, next, went⟩ := onOk _ _ (State.memWrite_ram _ ram aligned)
  exact ⟨t, next, went.regs, storedBytes_of_setRam went.ram went.tbit went.rest went.commit⟩

/-- Settles O30: each store's rule at an MMU write that is done in place. -/
theorem storesToRamChangeExactlyTheirBytes : Obligations.StoresToRamChangeExactlyTheirBytes := by
  obtain ⟨⟨-, sb⟩, ⟨-, sh⟩, ⟨-, sw⟩, ⟨-, swc⟩⟩ := storesFollowTheMmuWrite
  intro s rs b off crs cb coff
  refine ⟨rfl, effAddrC_eq s cb coff, fun ram => ?_, fun ram even => ?_, fun ram aligned => ?_, fun ram aligned => ?_⟩
  · exact (sb s rs b off).of_ram ram (Nat.mod_one _)
  · exact (sh s rs b off).of_ram ram even
  · exact (sw s rs b off).of_ram ram aligned
  · rw [effAddrC_eq] at ram aligned ⊢
    exact (swc s crs cb coff).of_ram ram aligned

/-- Settles O31: the rule of `push` at an MMU write that is done in place. -/
theorem pushToRamStoresBelowTheStackPointer : Obligations.PushToRamStoresBelowTheStackPointer := by
  obtain ⟨-, push⟩ := pushFollowsTheMmuWrite
  intro s rs
  refine ⟨rfl, fun ram aligned => ?_⟩
  obtain ⟨onOk, -⟩ := push s rs
  obtain ⟨-, t, next, wrote⟩ := onOk _ _ (State.memWrite_ram (g := .word) _ ram aligned)
  exact ⟨t, next, wrote.value, wrote.otherRegs,
    storedBytes_of_setRam wrote.ram wrote.tbit wrote.rest wrote.commit⟩

/-! ### Instructions with a data access whose access answers Ok -/

/-- How a load extends the word that the MMU read (R140 to R144). -/
def loadExtension : Instr → Word → Word
  | .lb _ _ _ => sextByte
  | .lbu _ _ _ => zextByte
  | .lh _ _ _ => sextHalf
  | .lhu _ _ _ => zextHalf
  | _ => id

/-- Every load is the shared load at its own operands. -/
theorem exec_eq_loadInto {i : Instr} {s : State} {ea : Word} {g : Gran} {rd : RegId}
    (access : dataAccess i s = some (.load, ea, g)) (dest : destReg i = some rd) :
    exec i s = s.loadInto rd ea g (loadExtension i) (BitVec.ofNat 32 i.len) := by
  cases i with
  | lb | lbu | lh | lhu | lw => cases access; cases dest; rfl
  | lwc rd b off => cases access; cases dest; exact exec_lwc rd b off s
  | _ => cases access

/-- Every store whose MMU write answers Ok commits; only `push` writes a register, `x[14]`. -/
theorem exec_of_ok_store {i : Instr} {s s' : State} {ea : Word} {g : Gran} {rs : RegId} {u : Unit}
    (access : dataAccess i s = some (.store, ea, g)) (source : storeSource i = some rs)
    (write : s.memWrite ea g (s.reg rs) = .ok u s') :
    (destReg i = none ∧ exec i s = .next (s'.advance (BitVec.ofNat 32 i.len))) ∨
    (destReg i = some 14 ∧ exec i s = .next ((s'.setReg 14 ea).advance (BitVec.ofNat 32 i.len))) := by
  have stores {len : Word} (meaning : exec i s = s.storeFrom ea g (s.reg rs) len) :
      exec i s = .next (s'.advance len) := by rw [meaning, State.storeFrom, write]
  cases i with
  | sb | sh | sw => cases access; cases source; exact .inl ⟨rfl, stores rfl⟩
  | swc r b off => cases access; cases source; exact .inl ⟨rfl, stores (exec_swc r b off s)⟩
  | push => cases access; cases source; exact .inr ⟨rfl, exec_push_of_ok write⟩
  | _ => cases access

/-! ### Data accesses that fail a check (R54, R57) -/

/-- A data access that fails, whatever it would write, is a routed load or store fault. -/
theorem exec_routes_failed_access {i : Instr} {s : State} {k : DataKind} {ea : Word} {g : Gran} {st : AccessStatus}
    (access : dataAccess i s = some (k, ea, g)) (read : k = .load → s.memRead ea g = .failed st s)
    (write : k = .store → ∀ v, s.memWrite ea g v = .failed st s) :
    ∃ t, exec i s = .next t ∧ FaultRouted k.reason st s t := by
  cases k with
  | load =>
    obtain ⟨failed, -⟩ := exec_of_failed_load access
    exact ⟨_, failed st s (read rfl), s.routeFault_routed .load st⟩
  | store =>
    obtain ⟨rs, -, failed, -⟩ := exec_of_failed_store access
    exact ⟨_, failed st s (write rfl _), s.routeFault_routed .store st⟩

/-- Settles O32: the MMU's checks in their order, each a failed access that changed nothing. -/
theorem dataAccessFaultsAreRouted : Obligations.DataAccessFaultsAreRouted := by
  intro i s k ea g access
  refine ⟨fun range => ?_, fun ⟨range, misaligned⟩ => ?_, fun ⟨aboveRam, inMmio, aligned, noHook⟩ => ?_⟩
  · have unmapped := classify_unmapped.mpr range
    exact exec_routes_failed_access access (fun _ => State.memRead_unmapped g unmapped)
      (fun _ v => State.memWrite_unmapped g v unmapped)
  · have mapped := classify_ne_unmapped.mpr range
    exact exec_routes_failed_access access (fun _ => State.memRead_misaligned mapped misaligned)
      (fun _ v => State.memWrite_misaligned v mapped misaligned)
  · have mmio := classify_mmio.mpr ⟨aboveRam, inMmio⟩
    refine exec_routes_failed_access access (fun load => ?_) (fun store v => ?_)
    · rw [State.memRead_mmio mmio aligned, if_neg (by simpa [load] using noHook)]
    · rw [State.memWrite_mmio v mmio aligned, if_neg (by simpa [store] using noHook)]

/-! ### Data accesses that call a hook (R61, R62) -/

/-- The state after a hook call that used up the first queued answer. -/
def State.afterCall (s : State) (c : MmioCall) (rest : List HookAnswer) : State :=
  { s with hookAnswers := rest, mmioLog := c :: s.mmioLog }

theorem State.afterCall_onlyHooks (s : State) (c : MmioCall) (rest : List HookAnswer) :
    OnlyHooks s (s.afterCall c rest) :=
  ⟨fun _ => rfl, rfl, rfl, rfl, fun _ => rfl, ⟨rfl, rfl, rfl, rfl⟩, ⟨rfl, rfl, rfl, rfl, rfl, rfl, rfl⟩⟩

/-- An aligned MMIO read with a hook and a queued reply ends as the reply says. -/
theorem State.memRead_returns {s : State} {a : Word} {g : Gran} {r : HookReply} {rest : List HookAnswer}
    (mmio : classify s.cfg a = .mmio) (aligned : a.toNat % g.bytes = 0) (hook : s.readHook = true)
    (answers : s.hookAnswers = .returns r :: rest) :
    s.memRead a g = if r.status = .ok
      then .ok (g.trunc r.value) (s.afterCall (.read (a - s.cfg.mmioBase) g) rest)
      else .failed r.status (s.afterCall (.read (a - s.cfg.mmioBase) g) rest) := by
  rw [State.memRead_mmio mmio aligned, if_pos hook, State.callHook_returns _ answers]
  by_cases ok : r.status = .ok
  · rw [if_pos ok, if_pos ok]; rfl
  · rw [if_neg ok, if_neg ok]; rfl

/-- An aligned MMIO write with a hook and a queued reply ends as the reply says. -/
theorem State.memWrite_returns {s : State} {a : Word} {g : Gran} (v : Word) {r : HookReply} {rest : List HookAnswer}
    (mmio : classify s.cfg a = .mmio) (aligned : a.toNat % g.bytes = 0) (hook : s.writeHook = true)
    (answers : s.hookAnswers = .returns r :: rest) :
    s.memWrite a g v = if r.status = .ok
      then .ok () (s.afterCall (.write (a - s.cfg.mmioBase) g (g.trunc v)) rest)
      else .failed r.status (s.afterCall (.write (a - s.cfg.mmioBase) g (g.trunc v)) rest) := by
  rw [State.memWrite_mmio v mmio aligned, if_pos hook, State.callHook_returns _ answers]
  by_cases ok : r.status = .ok
  · rw [if_pos ok, if_pos ok]; rfl
  · rw [if_neg ok, if_neg ok]; rfl

theorem State.memRead_blocks {s : State} {a : Word} {g : Gran} {rest : List HookAnswer}
    (mmio : classify s.cfg a = .mmio) (aligned : a.toNat % g.bytes = 0) (hook : s.readHook = true)
    (answers : s.hookAnswers = .blocks :: rest) : s.memRead a g = .blocked := by
  rw [State.memRead_mmio mmio aligned, if_pos hook, State.callHook_blocks _ answers]

theorem State.memWrite_blocks {s : State} {a : Word} {g : Gran} (v : Word) {rest : List HookAnswer}
    (mmio : classify s.cfg a = .mmio) (aligned : a.toNat % g.bytes = 0) (hook : s.writeHook = true)
    (answers : s.hookAnswers = .blocks :: rest) : s.memWrite a g v = .blocked := by
  rw [State.memWrite_mmio v mmio aligned, if_pos hook, State.callHook_blocks _ answers]

/-! ### The extension of a truncated value -/

theorem zextByte_extract (v : Word) : (zextByte v).extractLsb' 0 8 = v.extractLsb' 0 8 := by
  apply BitVec.eq_of_getLsbD_eq
  intro i hi
  simp [zextByte, zext, hi, show i < 32 by omega]

theorem zextHalf_extract (v : Word) : (zextHalf v).extractLsb' 0 16 = v.extractLsb' 0 16 := by
  apply BitVec.eq_of_getLsbD_eq
  intro i hi
  simp [zextHalf, zext, hi, show i < 32 by omega]

/-- A load of a word extends nothing. -/
theorem loadExtension_word {i : Instr} {s : State} {ea : Word} (access : dataAccess i s = some (.load, ea, .word)) :
    loadExtension i = id := by
  cases i with
  | lb | lbu | lh | lhu => cases access
  | _ => rfl

/-- Settles O33: the shared load at a hook call that answers Ok, with each load's own extension. -/
theorem mmioLoadsExtendTheHooksTruncatedValue : Obligations.MmioLoadsExtendTheHooksTruncatedValue := by
  intro i s ea g rd v rest access dest mmio aligned hook answers
  have read := State.memRead_returns mmio aligned hook answers
  rw [if_pos rfl] at read
  have next := exec_eq_loadInto access dest
  rw [State.loadInto, read] at next
  have value := State.setReg_reg_self (s.afterCall (.read (ea - s.cfg.mmioBase) g) rest) rd
    (loadExtension i (g.trunc v))
  refine ⟨_, next, rfl, rfl, fun r hr => State.setReg_reg_of_ne _ rd r _ hr, rfl, fun _ => rfl, ⟨rfl, rfl, rfl, rfl⟩,
    ⟨rfl, rfl, rfl, rfl, rfl, rfl, rfl⟩, rfl, rfl, rfl, ?_, ?_, ?_, ?_, ?_⟩
  · rintro b off rfl
    cases access
    exact (congrArg BitVec.toInt value).trans ((sextByte_toInt _).trans (congrArg _ (zextByte_extract v)))
  · rintro b off rfl
    cases access
    refine (congrArg BitVec.toNat value).trans ((zextByte_toNat _).trans ?_)
    rw [Gran.trunc_toNat]
    exact Nat.mod_mod _ _
  · rintro b off rfl
    cases access
    exact (congrArg BitVec.toInt value).trans ((sextHalf_toInt _).trans (congrArg _ (zextHalf_extract v)))
  · rintro b off rfl
    cases access
    refine (congrArg BitVec.toNat value).trans ((zextHalf_toNat _).trans ?_)
    rw [Gran.trunc_toNat]
    exact Nat.mod_mod _ _
  · rintro rfl
    exact value.trans (by rw [loadExtension_word access]; rfl)

/-- Settles O34: a store, or `push`, at a hook call that answers Ok. -/
theorem mmioStoresPassTheLowBitsToTheHook : Obligations.MmioStoresPassTheLowBitsToTheHook := by
  intro i s ea g rs v rest access source mmio aligned hook answers
  have write := State.memWrite_returns (s.reg rs) mmio aligned hook answers
  rw [if_pos rfl] at write
  rcases exec_of_ok_store access source write with ⟨dest, next⟩ | ⟨dest, next⟩
  · exact ⟨_, _, next, rfl, rfl, g.trunc_toNat (s.reg rs), rfl, rfl, rfl, fun _ _ => rfl, by simp [dest], rfl,
      fun _ => rfl, ⟨rfl, rfl, rfl, rfl⟩, ⟨rfl, rfl, rfl, rfl, rfl, rfl, rfl⟩⟩
  · refine ⟨_, _, next, rfl, rfl, g.trunc_toNat (s.reg rs), rfl, rfl, rfl, fun r hr => ?_,
      fun _ => State.setReg_reg_self _ 14 ea, rfl, fun _ => rfl, ⟨rfl, rfl, rfl, rfl⟩,
      ⟨rfl, rfl, rfl, rfl, rfl, rfl, rfl⟩⟩
    exact State.setReg_reg_of_ne _ 14 r ea (by rintro rfl; exact hr dest)

/-- Settles O35: the failing reply is the status routed, after exactly its call; a blocked call blocks the access. -/
theorem failingHooksFaultAndBlockingHooksStick : Obligations.FailingHooksFaultAndBlockingHooksStick := by
  intro i s k ea g rest access mmio aligned hook
  cases k with
  | load =>
    obtain ⟨failed, blocked⟩ := exec_of_failed_load access
    refine ⟨fun st v notOk answers => ?_, fun answers => blocked (State.memRead_blocks mmio aligned hook answers)⟩
    have read := State.memRead_returns mmio aligned hook answers
    rw [if_neg notOk] at read
    exact ⟨_, _, s.afterCall_onlyHooks _ rest, rfl, rfl, fun _ => rfl, nofun, failed st _ read,
      State.routeFault_routed _ .load st⟩
  | store =>
    obtain ⟨rs, source, failed, blocked⟩ := exec_of_failed_store access
    refine ⟨fun st v notOk answers => ?_, fun answers => blocked (State.memWrite_blocks _ mmio aligned hook answers)⟩
    have write := State.memWrite_returns (s.reg rs) mmio aligned hook answers
    rw [if_neg notOk] at write
    exact ⟨_, _, s.afterCall_onlyHooks _ rest, rfl, rfl, nofun, fun _ => ⟨rs, _, source, g.trunc_toNat _, rfl⟩,
      failed st _ write, State.routeFault_routed _ .store st⟩

end Sys2Proof.Machine
end

section
/-! What every instruction leaves alone (10_state.md R22 to R30, 20_memory.md R64, 60_exceptions.md R271 to R280). Each
statement is read off the three ends that `exec_cases` gives an execution: a routed fault, a commit, a halt. -/

namespace Sys2Proof.Machine

/-! ### Frames -/

theorem SameInputs.trans {s t u : State} (h : SameInputs s t) (k : SameInputs t u) : SameInputs s u :=
  ⟨k.cfg.trans h.cfg, k.readHook.trans h.readHook, k.writeHook.trans h.writeHook, k.irq.trans h.irq,
    k.script.trans h.script, k.loadWarning.trans h.loadWarning, k.stopped.trans h.stopped⟩

@[simp] theorem State.routeFault_reg (s : State) (k : FaultKind) (st : AccessStatus) (r : RegId) :
    (s.routeFault k st).reg r = s.reg r := by
  rcases s.routeFault_cases k st with ⟨-, e⟩ | ⟨-, e⟩ <;> rw [e] <;> rfl

@[simp] theorem State.routeFault_ram (s : State) (k : FaultKind) (st : AccessStatus) :
    (s.routeFault k st).ram = s.ram := by
  rcases s.routeFault_cases k st with ⟨-, e⟩ | ⟨-, e⟩ <;> rw [e] <;> rfl

@[simp] theorem State.routeFault_retired (s : State) (k : FaultKind) (st : AccessStatus) :
    (s.routeFault k st).retired = s.retired := by
  rcases s.routeFault_cases k st with ⟨-, e⟩ | ⟨-, e⟩ <;> rw [e] <;> rfl

theorem State.routeFault_sameInputs (s : State) (k : FaultKind) (st : AccessStatus) :
    SameInputs s (s.routeFault k st) := by
  rcases s.routeFault_cases k st with ⟨-, e⟩ | ⟨-, e⟩ <;> rw [e] <;> exact ⟨rfl, rfl, rfl, rfl, rfl, rfl, rfl⟩

/-- Settles O46: a fault and a halt write no register, and a commit only the destination. -/
theorem onlyTheDestinationRegisterChanges : Obligations.OnlyTheDestinationRegisterChanges := by
  intro i s t r next notDest
  cases exec_cases next with
  | fault s' k st hooks ram routed cause => rw [routed, State.routeFault_reg, hooks.regs]
  | commit retired run halt saved inputs regs => exact regs r notDest
  | halt reason isWait why halted => rw [halted]; rfl

/-- RAM after an execution: as data the same, or with the data access's bytes written in place. -/
theorem exec_ram {i : Instr} {s t : State} (next : exec i s = .next t) :
    (isStore i = false → t.ram = s.ram) ∧
    (t.ram = s.ram ∨ ∃ k ea g v, dataAccess i s = some (k, ea, g) ∧ ea.toNat < s.cfg.ramSize ∧
      ea.toNat % g.bytes = 0 ∧ t.ram = s.ram.writeBytes ea.toNat (g.split v)) := by
  cases exec_cases next with
  | fault s' k st hooks ram routed cause =>
    have same : t.ram = s.ram := by rw [routed, State.routeFault_ram, ram]
    exact ⟨fun _ => same, .inl same⟩
  | commit retired run halt saved inputs regs tbit noStore ram => exact ⟨noStore, ram⟩
  | halt reason isWait why halted =>
    have same : t.ram = s.ram := by rw [halted]; rfl
    exact ⟨fun _ => same, .inl same⟩

/-- Settles O47: a write in place reads as before outside the bytes of the access. -/
theorem onlyStoresChangeRamAndOnlyTheirBytes : Obligations.OnlyStoresChangeRamAndOnlyTheirBytes := by
  intro i s t next
  obtain ⟨noStore, same | ⟨k, ea, g, v, access, -, -, written⟩⟩ := exec_ram next
  · exact ⟨fun _ a => by rw [same], fun _ _ _ _ a _ => by rw [same]⟩
  · refine ⟨fun notStore a => by rw [noStore notStore], fun k' ea' g' access' a outside => ?_⟩
    cases access.symm.trans access'
    rw [written, Memory.read_writeBytes_split, if_neg (by omega)]

theorem exec_sameInputs {i : Instr} {s t : State} (next : exec i s = .next t) : SameInputs s t := by
  cases exec_cases next with
  | fault s' k st hooks ram routed cause => exact routed ▸ hooks.inputs.trans (s'.routeFault_sameInputs k st)
  | commit retired run halt saved inputs => exact inputs
  | halt reason isWait why halted => exact halted ▸ ⟨rfl, rfl, rfl, rfl, rfl, rfl, rfl⟩

/-! ### An odd `pc` -/

theorem even_mul {a b : Word} (hb : b.toNat % 2 = 0) : (a * b).toNat % 2 = 0 := by
  rw [BitVec.toNat_mul, Nat.mod_mod_of_dvd _ (by decide), Nat.mul_mod, hb, Nat.mul_zero, Nat.zero_mod]

/-- With legal parameters every vector address is even (60_exceptions.md R273). -/
theorem vectorAddr_even {c : Params} (legal : c.wf = true) (v : Nat) : (vectorAddr c v).toNat % 2 = 0 := by
  obtain ⟨-, -, -, -, base, stride⟩ := Params.wf_bounds legal
  exact even_add base (even_mul stride)

/-- Settles O19: a fault goes to an even vector or stays, a commit keeps `pc` even, a halt leaves it. -/
theorem oddPcComesOnlyFromRegisterJumpsAndReti : Obligations.OddPcComesOnlyFromRegisterJumpsAndReti := by
  intro i s t legal even noJump next
  cases exec_cases next with
  | fault s' k st hooks ram routed cause =>
    rcases s'.routeFault_cases k st with ⟨-, e⟩ | ⟨-, e⟩ <;> rw [routed, e]
    · exact vectorAddr_even (hooks.inputs.cfg ▸ legal) 0
    · exact hooks.pc ▸ even
  | commit retired run halt saved inputs regs tbit noStore ram keepsEven => exact keepsEven noJump even
  | halt reason isWait why halted => exact halted ▸ even

/-! ### The run state -/

/-- Settles O45: a fault with interrupts disabled halts with its cause's record, and `wait` waits or halts. -/
theorem runStateChangesOnlyByWaitAndFatalFaults : Obligations.RunStateChangesOnlyByWaitAndFatalFaults := by
  intro i s t running next
  cases exec_cases next with
  | fault s' k st hooks ram routed cause =>
    have control := hooks.control
    rcases s'.routeFault_cases k st with ⟨enabled, e⟩ | ⟨disabled, e⟩ <;> rw [e] at routed <;> subst routed
    · exact .inl ⟨control.run.trans running, control.halt⟩
    · have masked : s.ie = false := control.ie.symm.trans disabled
      refine .inr (.inr ⟨rfl, hooks.pc, control.ie, _, rfl, hooks.pc, .inr (.inr ?_)⟩)
      rcases cause with ⟨isUnknown, rfl, rfl⟩ | ⟨d, ea, g, access, reason, notOk⟩
      · exact .inl ⟨masked, isUnknown, rfl, rfl⟩
      · exact .inr ⟨masked, d, ea, g, access, reason, notOk⟩
  | commit retired run halt =>
    rcases run with same | waits
    · exact .inl ⟨same.trans running, halt⟩
    · exact .inr (.inl waits)
  | halt reason isWait why halted =>
    subst halted
    refine .inr (.inr ⟨rfl, rfl, rfl, _, rfl, rfl, ?_⟩)
    rcases why with ⟨enabled, fatal, rfl⟩ | ⟨disabled, rfl⟩
    · exact .inl ⟨enabled, isWait, fatal, rfl, rfl⟩
    · exact .inr (.inl ⟨disabled, isWait, rfl, rfl⟩)

/-- Settles O40: such an execution entered vector 0, where `saved` is the faulting instruction's address. -/
theorem retiAfterFaultReturnsToTheFaultingInstruction : Obligations.RetiAfterFaultReturnsToTheFaultingInstruction := by
  intro i s t running next notRetired stillRunning
  cases exec_cases next with
  | fault s' k st hooks ram routed cause =>
    rcases s'.routeFault_cases k st with ⟨-, e⟩ | ⟨-, e⟩ <;> rw [e] at routed <;> subst routed
    · exact ⟨_, rfl, hooks.pc, rfl, hooks.regs, hooks.tbit, hooks.ram⟩
    · cases stillRunning
  | commit retired => exact absurd (retired.symm.trans notRetired) (by simp)
  | halt reason isWait why halted => subst halted; cases stillRunning

end Sys2Proof.Machine
end

section
/-! The step of the core and of the machine (40_dispatch.md R120 to R127). `coreStep_cases` says once what a core step
can be; the precision of faults, the invariant and the frame of the settings are read off it, and `step_cases` adds the
host's actions. -/

namespace Sys2Proof.Machine

/-! ### What a core step can be -/

/-- Everything a core step that gives a next state can be. -/
inductive CoreStepCases (s t : State) : Prop
  /-- A running core took the request it sampled. -/
  | interrupt (v : Nat) (running : s.run = .running) (sampled : s.sampleRequest = some v)
      (entered : t = s.enterVector v)
  /-- No request was sampled, and the fetch failed. -/
  | fetchFault (s' : State) (st : AccessStatus) (running : s.run = .running) (unsampled : s.sampleRequest = none)
      (hooks : OnlyHooks s s') (ram : s'.ram = s.ram) (routed : t = s'.routeFault .fetch st)
  /-- No request was sampled, and the fetched instruction was executed. -/
  | instruction (s' : State) (w : Word) (running : s.run = .running) (unsampled : s.sampleRequest = none)
      (hooks : OnlyHooks s s') (ram : s'.ram = s.ram) (next : exec (decode w) s' = .next t)
  /-- A waiting core woke up into a raised line's vector. -/
  | wakeUp (v : Nat) (waiting : s.run = .waiting) (raised : s.request = some v) (woken : t = s.wakeUp v)

theorem coreStep_of_halted {s : State} (halted : s.run = .halted) : coreStep s = .fault .coreHalted := by
  simp only [coreStep, halted]

theorem coreStep_of_raised {s : State} {v : Nat} (waiting : s.run = .waiting) (raised : s.request = some v) :
    coreStep s = .next (s.wakeUp v) := by simp only [coreStep, waiting, raised]

theorem coreStep_of_noLine {s : State} (waiting : s.run = .waiting) (noLine : s.request = none) :
    coreStep s = .fault .coreWaiting := by simp only [coreStep, waiting, noLine]

/-- A core step at a fetch that answers is the execution of the decoded word. -/
theorem coreStep_of_fetch_ok {s s' : State} {w : Word} (running : s.run = .running) (unsampled : s.sampleRequest = none)
    (fetched : s.fetch = .ok w s') : coreStep s = exec (decode w) s' := by
  rw [coreStep_running running unsampled, State.runInstruction_eq_orFault, fetched, Access.orFault]

/-- A core step at a fetch that fails is the routing of the fetch fault. -/
theorem coreStep_of_fetch_failed {s s' : State} {st : AccessStatus} (running : s.run = .running)
    (unsampled : s.sampleRequest = none) (failed : s.fetch = .failed st s') :
    coreStep s = .next (s'.routeFault .fetch st) := by
  rw [coreStep_running running unsampled, State.runInstruction_eq_orFault, failed, Access.orFault]

/-- A core step at a fetch that never returns is stuck. -/
theorem coreStep_of_fetch_blocked {s : State} (running : s.run = .running) (unsampled : s.sampleRequest = none)
    (blocked : s.fetch = .blocked) : coreStep s = .fault .hookBlocked := by
  rw [coreStep_running running unsampled, State.runInstruction_eq_orFault, blocked, Access.orFault]

/-- Every core step is one of the four cases. -/
theorem coreStep_cases {s t : State} (next : coreStep s = .next t) : CoreStepCases s t := by
  cases run : s.run with
  | halted => rw [coreStep_of_halted run] at next; cases next
  | waiting =>
    cases line : s.request with
    | none => rw [coreStep_of_noLine run line] at next; cases next
    | some v => rw [coreStep_of_raised run line] at next; cases next; exact .wakeUp v run line rfl
  | running =>
    cases sampled : s.sampleRequest with
    | some v =>
      have ⟨enabled, _⟩ := State.sampleRequest_eq_some.mp sampled
      rw [coreStep_interrupted run sampled, State.takeInterrupt_eq enabled] at next
      cases next
      exact .interrupt v run sampled rfl
    | none =>
      rcases s.fetch_cases with ⟨w, s', fetch, hooks, ram⟩ | ⟨st, s', fetch, -, hooks, ram⟩ | fetch
      · exact .instruction s' w run sampled hooks ram (by rwa [coreStep_of_fetch_ok run sampled fetch] at next)
      · rw [coreStep_of_fetch_failed run sampled fetch] at next
        cases next
        exact .fetchFault s' st run sampled hooks ram rfl
      · rw [coreStep_of_fetch_blocked run sampled fetch] at next
        cases next

/-- The wake-up of a waiting core with interrupts enabled enters the line's vector (60_exceptions.md R285). -/
theorem State.wakeUp_eq {s : State} (enabled : s.ie = true) (v : Nat) :
    s.wakeUp v = (s.setRun .running).enterVector v := State.takeInterrupt_eq (s := s.setRun .running) enabled v

theorem coreStep_of_step {s t : State} (alone : s.script = []) (next : step s = .next t) : coreStep s = .next t := by
  cases stopped : s.stopped with
  | false => rwa [step_core alone stopped] at next
  | true => rw [step_of_stopped alone stopped] at next; cases next

/-! ### Precise ends (60_exceptions.md R277) -/

/-- How a step of a running core ends that retires nothing: the program's state is as it was, and the core halted in
place or entered the vector of the lowest raised line, or vector 0 with no line raised. -/
def PreciseEnd (s t : State) : Prop :=
  t.retired = s.retired ∧ SameRegs s t ∧ t.t = s.t ∧ SameRam s t ∧
    ((t.run = .halted ∧ t.pc = s.pc ∧ t.ie = s.ie ∧ t.saved = s.saved) ∨
     (s.ie = true ∧ t.ie = false ∧ t.run = .running ∧ t.saved = s.pc ∧
      ∃ v, t.pc = vectorAddr s.cfg v ∧
        ((v = 0 ∧ ∀ u, 1 ≤ u → u < s.cfg.numVectors → u ∉ s.irq) ∨
         (1 ≤ v ∧ v < s.cfg.numVectors ∧ v ∈ s.irq ∧ ∀ u, 1 ≤ u → u < v → u ∉ s.irq))))

theorem preciseEnd_of_sampled {s : State} {v : Nat} (running : s.run = .running) (sampled : s.sampleRequest = some v) :
    PreciseEnd s (s.enterVector v) := by
  obtain ⟨enabled, ⟨low, high, raised⟩, lowest⟩ := State.sampleRequest_eq_some.mp sampled
  exact ⟨rfl, fun _ => rfl, rfl, fun _ => rfl,
    .inr ⟨enabled, rfl, running, rfl, v, rfl, .inr ⟨low, high, raised, lowest⟩⟩⟩

theorem preciseEnd_of_halt {s s' : State} (hooks : OnlyHooks s s') (reason : HaltReason) (st : AccessStatus) :
    PreciseEnd s (s'.haltWith reason st) :=
  ⟨hooks.retired, hooks.regs, hooks.tbit, hooks.ram, .inl ⟨rfl, hooks.pc, hooks.control.ie, hooks.control.saved⟩⟩

theorem preciseEnd_of_fault {s s' : State} (running : s.run = .running) (unsampled : s.sampleRequest = none)
    (hooks : OnlyHooks s s') (k : FaultKind) (st : AccessStatus) : PreciseEnd s (s'.routeFault k st) := by
  rcases s'.routeFault_cases k st with ⟨enabled', e⟩ | ⟨-, e⟩ <;> rw [e]
  · have enabled : s.ie = true := hooks.control.ie.symm.trans enabled'
    have noLine := State.sampleRequest_eq_none.mp unsampled enabled
    exact ⟨hooks.retired, hooks.regs, hooks.tbit, hooks.ram, .inr ⟨enabled, rfl, hooks.control.run.trans running,
      hooks.pc, 0, congrArg (vectorAddr · 0) hooks.inputs.cfg, .inl ⟨rfl, noLine⟩⟩⟩
  · exact preciseEnd_of_halt hooks (faultReason k) st

/-- Settles O39: an interrupt and a fault are precise, a commit retires, `wait` halts in place. -/
theorem runningStepsCommitOrArePrecise : Obligations.RunningStepsCommitOrArePrecise := by
  intro s t alone running next
  cases coreStep_cases (coreStep_of_step alone next) with
  | interrupt v _ sampled entered => exact .inr (entered ▸ preciseEnd_of_sampled running sampled)
  | fetchFault s' st _ unsampled hooks ram routed =>
    exact .inr (routed ▸ preciseEnd_of_fault running unsampled hooks .fetch st)
  | instruction s' w _ unsampled hooks ram executed =>
    cases exec_cases executed with
    | fault s'' k st more ram' routed cause =>
      exact .inr (routed ▸ preciseEnd_of_fault running unsampled (hooks.trans more) k st)
    | commit retired => exact .inl (retired.trans (by rw [hooks.retired]))
    | halt reason isWait why halted => exact .inr (halted ▸ preciseEnd_of_halt hooks reason .ok)
  | wakeUp v waiting => cases running.symm.trans waiting

/-! ### The invariant -/

/-- The invariant is about the parameters, RAM, the run state, the halt record and `ie`. -/
theorem Inv.congr {s t : State} (inv : Inv s) (cfg : t.cfg = s.cfg) (ram : t.ram = s.ram) (run : t.run = s.run)
    (halt : t.halt = s.halt) (ie : t.ie = s.ie) : Inv t where
  params := cfg ▸ inv.params
  ramCanonical := ram ▸ inv.ramCanonical
  ramBounded := by rw [ram, cfg]; exact inv.ramBounded
  haltRecord := by rw [run, halt]; exact inv.haltRecord
  waiting := by rw [run, ie, cfg]; exact inv.waiting

theorem Inv.of_onlyHooks {s t : State} (inv : Inv s) (hooks : OnlyHooks s t) (ram : t.ram = s.ram) : Inv t :=
  inv.congr hooks.inputs.cfg ram hooks.control.run hooks.control.halt hooks.control.ie

/-- In a running core `ie` is free. -/
theorem Inv.of_running {s t : State} (inv : Inv s) (running : s.run = .running) (cfg : t.cfg = s.cfg)
    (ram : t.ram = s.ram) (run : t.run = s.run) (halt : t.halt = s.halt) : Inv t where
  params := cfg ▸ inv.params
  ramCanonical := ram ▸ inv.ramCanonical
  ramBounded := by rw [ram, cfg]; exact inv.ramBounded
  haltRecord := by rw [run, halt]; exact inv.haltRecord
  waiting w := by cases (run.trans running).symm.trans w

theorem Inv.enterVector {s : State} (inv : Inv s) (running : s.run = .running) (v : Nat) : Inv (s.enterVector v) :=
  inv.of_running running rfl rfl rfl rfl

theorem Inv.haltWith {s : State} (inv : Inv s) (reason : HaltReason) (st : AccessStatus) :
    Inv (s.haltWith reason st) where
  params := inv.params
  ramCanonical := inv.ramCanonical
  ramBounded := inv.ramBounded
  haltRecord := ⟨fun _ => rfl, fun _ => rfl⟩
  waiting := nofun

theorem Inv.routeFault {s : State} (inv : Inv s) (running : s.run = .running) (k : FaultKind) (st : AccessStatus) :
    Inv (s.routeFault k st) := by
  rcases s.routeFault_cases k st with ⟨-, e⟩ | ⟨-, e⟩ <;> rw [e]
  · exact inv.enterVector running 0
  · exact inv.haltWith (faultReason k) st

/-- A waiting core has no halt record, so it can go on running. -/
theorem Inv.setRun_running {s : State} (inv : Inv s) (waiting : s.run = .waiting) : Inv (s.setRun .running) where
  params := inv.params
  ramCanonical := inv.ramCanonical
  ramBounded := inv.ramBounded
  haltRecord := by
    have noRecord := inv.haltRecord
    rw [waiting] at noRecord
    exact ⟨nofun, fun record => nomatch noRecord.mpr record⟩
  waiting := nofun

/-- An execution keeps RAM canonical and inside its bound: an aligned access that begins in RAM ends there. -/
theorem exec_keeps_ram {i : Instr} {s t : State} (inv : Inv s) (next : exec i s = .next t) :
    t.ram.wf = true ∧ t.ram.within s.cfg.ramSize = true := by
  obtain ⟨-, same | ⟨k, ea, g, v, -, ram, aligned, written⟩⟩ := exec_ram next
  · rw [same]
    exact ⟨inv.ramCanonical, inv.ramBounded⟩
  · obtain ⟨-, inside⟩ := noAlignedAccessStraddlesClasses s.cfg ea g inv.params aligned
    have ends := inside (classify_ram.mpr ram)
    rw [written]
    exact ⟨Memory.writeBytes_wf _ _ _ inv.ramCanonical,
      Memory.writeBytes_within _ _ _ _ (by rwa [Gran.split_length]) inv.ramBounded⟩

theorem Inv.exec {i : Instr} {s t : State} (inv : Inv s) (running : s.run = .running) (next : exec i s = .next t) :
    Inv t := by
  have cfg : t.cfg = s.cfg := (exec_sameInputs next).cfg
  obtain ⟨canonical, bounded⟩ := exec_keeps_ram inv next
  cases exec_cases next with
  | fault s' k st hooks ram routed cause =>
    exact routed ▸ (inv.of_onlyHooks hooks ram).routeFault (hooks.control.run.trans running) k st
  | halt reason isWait why halted => exact halted ▸ inv.haltWith reason .ok
  | commit retired run halt =>
    have noRecord := inv.haltRecord
    rw [running] at noRecord
    have notHalted : t.run ≠ .halted := by
      rcases run with same | ⟨-, -, -, waits, -⟩
      · rw [same, running]; nofun
      · rw [waits]; nofun
    refine ⟨cfg ▸ inv.params, canonical, cfg ▸ bounded, ⟨fun h => absurd h notHalted, fun h => ?_⟩, fun waits => ?_⟩
    · exact nomatch noRecord.mpr (halt ▸ h)
    · rcases run with same | ⟨-, -, suspend, -, enabled, -⟩
      · cases (same.trans running).symm.trans waits
      · exact ⟨enabled, cfg ▸ suspend⟩

theorem Inv.coreStep {s t : State} (inv : Inv s) (next : coreStep s = .next t) : Inv t := by
  cases coreStep_cases next with
  | interrupt v running sampled entered => exact entered ▸ inv.enterVector running v
  | fetchFault s' st running unsampled hooks ram routed =>
    exact routed ▸ (inv.of_onlyHooks hooks ram).routeFault (hooks.control.run.trans running) .fetch st
  | instruction s' w running unsampled hooks ram executed =>
    exact (inv.of_onlyHooks hooks ram).exec (hooks.control.run.trans running) executed
  | wakeUp v waiting raised woken =>
    obtain ⟨enabled, -⟩ := inv.waiting waiting
    rw [woken, State.wakeUp_eq enabled]
    exact (inv.setRun_running waiting).enterVector rfl v

/-- A reset keeps the parameters and loads an image that RAM holds. -/
theorem Inv.resetWith {s : State} (inv : Inv s) (image : List Byte) : Inv (s.resetWith image) where
  params := inv.params
  ramCanonical := Memory.ofBytes_wf 0 _
  ramBounded := Memory.ofBytes_within 0 _ _ (by simp)
  haltRecord := ⟨nofun, nofun⟩
  waiting := nofun

/-- Settles O57: the core's step by its cases, a reset from scratch; the host's other actions touch none of it. -/
theorem everyStepKeepsTheInvariant : Obligations.EveryStepKeepsTheInvariant := by
  intro s t inv next
  rcases step_cases next with ⟨-, -, core⟩ | ⟨rest, -, -, core⟩ | ⟨v, b, rest, -, rfl⟩ | ⟨r, w, rest, -, rfl⟩ |
    ⟨image, rest, -, rfl⟩ | ⟨rest, -, rfl⟩ | ⟨rest, -, rfl⟩ | ⟨rest, -, rfl⟩
  · exact inv.coreStep core
  · exact (inv.congr (t := s.setScript rest) rfl rfl rfl rfl rfl).coreStep core
  · exact inv.congr rfl rfl rfl rfl rfl
  · exact inv.congr rfl rfl rfl rfl rfl
  · exact (inv.congr (t := s.setScript rest) rfl rfl rfl rfl rfl).resetWith image
  · exact inv.congr rfl rfl rfl rfl rfl
  · exact inv.congr rfl rfl rfl rfl rfl
  · exact inv.congr rfl rfl rfl rfl rfl

/-- Settles O56: the default parameters are legal, RAM is empty and the core runs. -/
theorem resetSatisfiesTheInvariant : Obligations.ResetSatisfiesTheInvariant where
  params := by decide
  ramCanonical := rfl
  ramBounded := rfl
  haltRecord := ⟨nofun, nofun⟩
  waiting := nofun

/-! ### Parameters and settings -/

theorem coreStep_sameInputs {s t : State} (next : coreStep s = .next t) : SameInputs s t := by
  cases coreStep_cases next with
  | interrupt v running sampled entered => exact entered ▸ (s.enterVector_vectored v).inputs
  | fetchFault s' st running unsampled hooks ram routed =>
    exact routed ▸ hooks.inputs.trans (s'.routeFault_sameInputs .fetch st)
  | instruction s' w running unsampled hooks ram executed => exact hooks.inputs.trans (exec_sameInputs executed)
  | wakeUp v waiting raised woken =>
    rw [woken, State.wakeUp, State.takeInterrupt]
    cases fired : (s.setRun .running).fire v with
    | none => exact ⟨rfl, rfl, rfl, rfl, rfl, rfl, rfl⟩
    | some u =>
      obtain ⟨-, rfl⟩ := State.fire_eq_some.mp fired
      exact ⟨rfl, rfl, rfl, rfl, rfl, rfl, rfl⟩

/-- Settles O58: the core's step by its cases; a host action keeps the parameters by its own update. -/
theorem stepsNeverChangeParametersOrSettings : Obligations.StepsNeverChangeParametersOrSettings := by
  refine ⟨fun s t next => ?_, fun s t => coreStep_sameInputs⟩
  rcases step_cases next with ⟨-, -, core⟩ | ⟨rest, -, -, core⟩ | ⟨v, b, rest, -, rfl⟩ | ⟨r, w, rest, -, rfl⟩ |
    ⟨image, rest, -, rfl⟩ | ⟨rest, -, rfl⟩ | ⟨rest, -, rfl⟩ | ⟨rest, -, rfl⟩
  · exact (coreStep_sameInputs core).cfg
  · exact (coreStep_sameInputs core).cfg
  all_goals rfl

end Sys2Proof.Machine
end

section
/-! Fetches (30_encoding.md R80, 70_reset_and_hazards.md R308, R309). A fetch is two reads of 2 bytes; each of its ends
is said once, and a statement gives the ends of its two reads. -/

namespace Sys2Proof.Machine

/-! ### The ends of a fetch (R80) -/

theorem State.fetch_of_ok {s s1 s2 : State} {lo hi : Word} (low : s.memRead s.pc .half = .ok lo s1)
    (high : s1.memRead (s.pc + 2) .half = .ok hi s2) : s.fetch = .ok (lo ||| hi <<< 16) s2 := by
  simp only [State.fetch, low, high]

theorem State.fetch_of_low_failed {s s1 : State} {st : AccessStatus} (low : s.memRead s.pc .half = .failed st s1) :
    s.fetch = .failed st s1 := by simp only [State.fetch, low]

theorem State.fetch_of_high_failed {s s1 s2 : State} {lo : Word} {st : AccessStatus}
    (low : s.memRead s.pc .half = .ok lo s1) (high : s1.memRead (s.pc + 2) .half = .failed st s2) :
    s.fetch = .failed st s2 := by simp only [State.fetch, low, high]

theorem State.fetch_of_low_blocked {s : State} (low : s.memRead s.pc .half = .blocked) : s.fetch = .blocked := by
  simp only [State.fetch, low]

theorem State.fetch_of_high_blocked {s s1 : State} {lo : Word} (low : s.memRead s.pc .half = .ok lo s1)
    (high : s1.memRead (s.pc + 2) .half = .blocked) : s.fetch = .blocked := by simp only [State.fetch, low, high]

/-! ### The halves of a fetched word -/

/-- The high half of a fetched word is the low half of what the second read answered. -/
theorem halves_or_high {lo : Word} (low : lo.toNat < 2 ^ 16) (hi : Word) :
    (lo ||| (Gran.trunc .half hi) <<< 16).extractLsb' 16 16 = hi.extractLsb' 0 16 := by
  apply BitVec.eq_of_getLsbD_eq
  intro i h
  have inside : 16 + i < 32 := by omega
  have zero : lo[16 + i] = false := by
    rw [BitVec.getElem_eq_testBit_toNat]
    exact Nat.testBit_lt_two_pow (Nat.lt_of_lt_of_le low (Nat.pow_le_pow_right (by decide) (by omega)))
  simp [Gran.trunc, zextHalf, zext, h, inside, zero, show i < 32 by omega]

/-- The low half of a fetched word is the low half of what the first read answered. -/
theorem halves_or_low (lo hi : Word) :
    (Gran.trunc .half lo ||| hi <<< 16).extractLsb' 0 16 = lo.extractLsb' 0 16 := by
  apply BitVec.eq_of_getLsbD_eq
  intro i h
  simp [Gran.trunc, zextHalf, zext, h, show i < 32 by omega]

theorem Gran.trunc_half_lt (v : Word) : (Gran.trunc .half v).toNat < 2 ^ 16 := by
  rw [Gran.trunc_toNat]
  exact Nat.mod_lt _ (by decide)

/-! ### Fetches at the end of RAM and in MMIO -/

/-- Where the second half of a fetch in the last two bytes of RAM is read: at the first address past RAM. -/
theorem add_two_toNat_of_lastHalf {c : Params} {pc : Word} (legal : c.wf = true) (last : pc.toNat = c.ramSize - 2) :
    (pc + 2).toNat = c.ramSize := by
  obtain ⟨-, four, below, -⟩ := Params.wf_bounds legal
  have mmio := c.mmioBase.isLt
  rw [BitVec.toNat_add, show (2 : Word).toNat = 2 from rfl, Nat.mod_eq_of_lt (by omega)]
  omega

/-- Settles O50: the low half is read in RAM, and the high half at the first address past it. -/
theorem fetchInTheLastHalfOfRamReachesPastRam : Obligations.FetchInTheLastHalfOfRamReachesPastRam := by
  intro s legal last
  obtain ⟨words, four, below, -⟩ := Params.wf_bounds legal
  have sum := add_two_toNat_of_lastHalf legal last
  have low : s.memRead s.pc .half = .ok (s.ram.readLE s.pc.toNat .half) s :=
    State.memRead_ram (by omega) (show s.pc.toNat % 2 = 0 by omega)
  have aligned : (s.pc + 2).toNat % Gran.half.bytes = 0 := by
    rw [sum]
    exact show s.cfg.ramSize % 2 = 0 by omega
  have mmio (touch : s.cfg.ramSize = s.cfg.mmioBase.toNat) : classify s.cfg (s.pc + 2) = .mmio :=
    classify_mmio.mpr ⟨sum.ge, (sum.trans touch).ge⟩
  have relative (touch : s.cfg.ramSize = s.cfg.mmioBase.toNat) : s.pc + 2 - s.cfg.mmioBase = 0 := by
    rw [BitVec.eq_of_toNat_eq (sum.trans touch), BitVec.sub_self]
    rfl
  refine ⟨fun gap => ?_, fun touch noHook => ?_, fun st v rest notOk touch hook answers => ?_,
    fun v rest touch hook answers => ?_⟩
  · exact State.fetch_of_high_failed low
      (State.memRead_unmapped .half (classify_unmapped.mpr ⟨sum.ge, sum.trans_lt gap⟩))
  · refine State.fetch_of_high_failed low ?_
    rw [State.memRead_mmio (mmio touch) aligned, if_neg (by simp [noHook])]
  · have high := State.memRead_returns (mmio touch) aligned hook answers
    rw [if_neg notOk, relative touch] at high
    exact ⟨_, State.fetch_of_high_failed low high, rfl, rfl⟩
  · have high := State.memRead_returns (mmio touch) aligned hook answers
    rw [if_pos rfl, relative touch] at high
    refine ⟨_, _, State.fetch_of_ok low high, rfl, rfl, halves_or_high ?_ v⟩
    rw [Memory.readLE_half_toNat]
    omega

/-- Settles O51: each half is one hook call, and the second is made in the state that the first left. -/
theorem mmioFetchReadsTheLowHalfFirst : Obligations.MmioFetchReadsTheLowHalfFirst := by
  intro s lowMmio highMmio even
  have lowAligned : s.pc.toNat % Gran.half.bytes = 0 := even
  have highAligned : (s.pc + 2).toNat % Gran.half.bytes = 0 := even_add even rfl
  refine ⟨fun noHook => ?_, fun st v rest hook notOk answers => ?_, fun lo st v rest hook notOk answers => ?_,
    fun lo rest hook answers => ?_, fun lo hi rest hook answers => ?_⟩
  · refine State.fetch_of_low_failed ?_
    rw [State.memRead_mmio lowMmio lowAligned, if_neg (by simp [noHook])]
  · have low := State.memRead_returns lowMmio lowAligned hook answers
    rw [if_neg notOk] at low
    exact ⟨_, State.fetch_of_low_failed low, rfl, rfl⟩
  · have low := State.memRead_returns lowMmio lowAligned hook answers
    rw [if_pos rfl] at low
    have high := State.memRead_returns
      (s := s.afterCall (.read (s.pc - s.cfg.mmioBase) .half) (.returns ⟨st, v⟩ :: rest)) highMmio highAligned hook rfl
    rw [if_neg notOk] at high
    exact ⟨_, State.fetch_of_high_failed low high, rfl, rfl⟩
  · rcases answers with answers | answers
    · exact State.fetch_of_low_blocked (State.memRead_blocks lowMmio lowAligned hook answers)
    · have low := State.memRead_returns lowMmio lowAligned hook answers
      rw [if_pos rfl] at low
      exact State.fetch_of_high_blocked low
        (State.memRead_blocks (s := s.afterCall _ (.blocks :: rest)) highMmio highAligned hook rfl)
  · have low := State.memRead_returns lowMmio lowAligned hook answers
    rw [if_pos rfl] at low
    have high := State.memRead_returns
      (s := s.afterCall (.read (s.pc - s.cfg.mmioBase) .half) (.returns ⟨.ok, hi⟩ :: rest)) highMmio highAligned hook
      rfl
    rw [if_pos rfl] at high
    exact ⟨_, _, State.fetch_of_ok low high, halves_or_low lo _, halves_or_high (Gran.trunc_half_lt lo) hi, rfl, rfl⟩

/-- Settles O52: the store leaves the register's bytes in RAM at the next `pc`, where the fetch reads them. -/
theorem storeIsSeenByTheNextFetch : Obligations.StoreIsSeenByTheNextFetch := by
  intro s rs b off legal next ram aligned
  obtain ⟨words, -, below, -⟩ := Params.wf_bounds legal
  have mmio := s.cfg.mmioBase.isLt
  obtain ⟨m, write, holds⟩ := State.memWrite_holds (g := .word) (s.reg rs) ram aligned
  have executed : exec (.sw rs b off) s = .next ((s.setRam m).advance 4) := by
    rw [exec, execSw, State.storeFrom, write]
  rw [next] at ram aligned holds
  exact ⟨_, executed, State.fetch_of_holds (s := (s.setRam m).advance 4) (show (s.pc + 4).toNat % 2 = 0 by omega)
    (show (s.pc + 4).toNat + 3 < s.cfg.ramSize by omega) (show (s.pc + 4).toNat + 3 < 2 ^ 32 by omega) holds⟩

/-! ### The step at a fetch (40_dispatch.md R127) -/

theorem wordOfBytes_extract (b0 b1 b2 b3 : Byte) :
    (wordOfBytes b0 b1 b2 b3).extractLsb' 0 8 = b0 ∧ (wordOfBytes b0 b1 b2 b3).extractLsb' 8 8 = b1 ∧
    (wordOfBytes b0 b1 b2 b3).extractLsb' 16 8 = b2 ∧ (wordOfBytes b0 b1 b2 b3).extractLsb' 24 8 = b3 := by
  refine ⟨?_, ?_, ?_, ?_⟩ <;> apply BitVec.eq_of_getLsbD_eq <;> intro i hi <;> interval_cases i <;> simp [wordOfBytes]

/-- RAM holds the word made of its four bytes. -/
theorem Memory.holds_wordOfBytes (m : Memory) (a : Nat) :
    m.Holds a 4 (wordOfBytes (m.read a) (m.read (a + 1)) (m.read (a + 2)) (m.read (a + 3))) := by
  obtain ⟨e0, e1, e2, e3⟩ := wordOfBytes_extract (m.read a) (m.read (a + 1)) (m.read (a + 2)) (m.read (a + 3))
  intro i hi
  interval_cases i
  · exact e0.symm
  · exact e1.symm
  · exact e2.symm
  · exact e3.symm

/-- Letting the core step is the step of the core alone. -/
theorem step_letCoreStep {s : State} (alone : s.script = []) : step { s with script := [.letCoreStep] } = step s := by
  have same : s.setScript [] = s := by rw [← alone]; rfl
  have host := step_host (s := { s with script := [.letCoreStep] }) rfl
  rw [host]
  change (s.setScript []).letCore = step s
  rw [same, step, alone]

/-- Settles O48: the core's step at a fetch that answers, and the answer of a fetch of four bytes in RAM. -/
theorem stepExecutesTheDecodedInstruction : Obligations.StepExecutesTheDecodedInstruction := by
  intro s alone notStopped running noRequest
  have unsampled := State.sampleRequest_eq_none.mpr noRequest
  have executes {w : Word} {s' : State} (fetched : s.fetch = .ok w s') :
      step s = exec (decode w) s' ∧ step { s with script := [.letCoreStep] } = exec (decode w) s' := by
    rw [step_letCoreStep alone, step_core alone notStopped, coreStep_of_fetch_ok running unsampled fetched]
    exact ⟨rfl, rfl⟩
  refine ⟨fun w s' fetched => ⟨?_, executes fetched⟩, ?_⟩
  · rcases s.fetch_cases with ⟨w', s'', e, hooks, -⟩ | ⟨st, s'', e, -⟩ | e <;> cases e.symm.trans fetched
    exact hooks
  · rintro i even ram noWrap rfl
    exact executes (State.fetch_of_holds even ram noWrap (Memory.holds_wordOfBytes s.ram s.pc.toNat))

/-- Settles O59: the core's step at a fetch that fails and at one that is blocked. -/
theorem failedFetchesAreRoutedAndBlockedFetchesStick : Obligations.FailedFetchesAreRoutedAndBlockedFetchesStick := by
  intro s alone notStopped running noRequest
  have unsampled := State.sampleRequest_eq_none.mpr noRequest
  rw [step_core alone notStopped]
  refine ⟨fun st s' failed => ?_, coreStep_of_fetch_blocked running unsampled⟩
  rcases s.fetch_cases with ⟨w, s'', e, -⟩ | ⟨st', s'', e, notOk, hooks, -⟩ | e <;> cases e.symm.trans failed
  exact ⟨notOk, hooks, _, coreStep_of_fetch_failed running unsampled failed, s'.routeFault_routed .fetch st⟩

/-- Settles O49: the MMU's first two checks fail the read of the low half. -/
theorem oddOrUnmappedPcIsAFetchFault : Obligations.OddOrUnmappedPcIsAFetchFault := by
  intro s alone notStopped running noRequest
  obtain ⟨routed, -⟩ := failedFetchesAreRoutedAndBlockedFetchesStick s alone notStopped running noRequest
  refine ⟨fun range => ?_, fun ⟨range, odd⟩ => ?_⟩
  · obtain ⟨-, -, result⟩ :=
      routed _ s (State.fetch_of_low_failed (State.memRead_unmapped .half (classify_unmapped.mpr range)))
    exact result
  · obtain ⟨-, -, result⟩ := routed _ s (State.fetch_of_low_failed
      (State.memRead_misaligned (classify_ne_unmapped.mpr range) (show s.pc.toNat % 2 ≠ 0 by omega)))
    exact result

end Sys2Proof.Machine
end

section
/-! The host's actions, and the states in which the core makes no step (40_dispatch.md R120, R129, 60_exceptions.md
R279, R285, 70_reset_and_hazards.md R300 to R304). `step_host` gives the action, and the laws of its update the rest. -/

namespace Sys2Proof.Machine

/-! ### Waiting and halted cores -/

/-- Settles O43: the lowest raised line wakes the core into its vector, and without one there is no step. -/
theorem waitingCoreWakesOnlyOnARaisedLine : Obligations.WaitingCoreWakesOnlyOnARaisedLine := by
  intro s alone notStopped waiting enabled
  rw [step_core alone notStopped]
  refine ⟨fun v low high raised lowest => ?_,
    fun noLine => coreStep_of_noLine waiting (State.request_eq_none.mpr noLine)⟩
  have request := State.request_eq_some.mpr ⟨⟨low, high, raised⟩, lowest⟩
  refine ⟨_, coreStep_of_raised waiting request, ?_⟩
  rw [State.wakeUp_eq enabled]
  have entered := (s.setRun .running).enterVector_vectored v
  exact ⟨rfl, { entered with inputs := { entered.inputs with }, hooks := { entered.hooks with } }⟩

/-- Settles O44: the core makes no step, and every action of the host but the reset leaves the run state. -/
theorem onlyResetLeavesTheHaltedState : Obligations.OnlyResetLeavesTheHaltedState := by
  refine ⟨fun s halted alone notStopped => ?_, fun s t halted next left => ?_⟩
  · rw [step_core alone notStopped, coreStep_of_halted halted]
  · rcases step_cases next with ⟨-, -, core⟩ | ⟨rest, -, -, core⟩ | ⟨v, b, rest, -, rfl⟩ | ⟨r, w, rest, -, rfl⟩ |
      ⟨image, rest, script, rfl⟩ | ⟨rest, -, rfl⟩ | ⟨rest, -, rfl⟩ | ⟨rest, -, rfl⟩
    · cases (coreStep_of_halted halted).symm.trans core
    · cases (coreStep_of_halted (s := s.setScript rest) halted).symm.trans core
    · exact absurd halted left
    · exact absurd halted left
    · exact ⟨image, rest, script, rfl⟩
    · exact absurd halted left
    · exact absurd halted left
    · exact absurd halted left

/-! ### Reset (10_state.md R35, 70_reset_and_hazards.md R300, R303) -/

/-- RAM after a reset is the image's first RAM_SIZE bytes, then 0. -/
theorem State.resetWith_ram_read (s : State) (image : List Byte) (a : Nat) :
    (s.resetWith image).ram.read a = (image.take s.cfg.ramSize)[a]?.getD 0 := by
  rw [State.resetWith_ram, Memory.read_ofBytes, if_pos a.zero_le, Nat.sub_zero]

/-- Settles O53: the update of the reset, and RAM read below RAM_SIZE. -/
theorem resetLeavesTheStatedValues : Obligations.ResetLeavesTheStatedValues := by
  refine ⟨fun s image => ⟨s.resetWith_reg image, rfl, rfl, rfl, rfl, rfl, rfl, rfl, fun a below => ?_⟩,
    State.resetWith_reg State.reset [], rfl⟩
  rw [State.resetWith_ram_read, List.getElem?_take_of_lt below]

/-- Settles O54: the host's action is done whatever the run state is. -/
theorem hostResetWorksInEveryRunState : Obligations.HostResetWorksInEveryRunState := by
  intro s image rest script
  exact ⟨(s.setScript rest).resetWith image, step_host script, (s.setScript rest).resetWith_reg image, rfl, rfl, rfl,
    rfl, rfl, rfl, rfl, rfl, rfl, (s.setScript rest).resetWith_ram_read image, rfl, rfl, rfl, rfl, ⟨rfl, rfl, rfl⟩,
    decide_eq_true_iff⟩

/-! ### The other actions -/

/-- Settles O55: each action's update, which names the one field it writes. -/
theorem otherHostActionsChangeNoCoreState : Obligations.OtherHostActionsChangeNoCoreState := by
  intro s a rest script notCore notReset
  have next := step_host script
  refine ⟨?_, fun returns => ?_⟩
  · rintro rfl
    exact next
  cases a with
  | letCoreStep => exact absurd rfl notCore
  | reset image => exact absurd rfl (notReset image)
  | setLine v b =>
    refine ⟨_, next, rfl, rfl, rfl, rfl, ⟨rfl, rfl, rfl, rfl⟩, rfl, rfl, rfl, ⟨rfl, rfl, rfl⟩, rfl,
      fun other => absurd rfl (other v b), ?_, fun _ => ⟨rfl, rfl⟩, nofun, rfl⟩
    rintro _ _ ⟨⟩
    refine ⟨?_, fun u other => ?_⟩
    · rw [State.mem_driveLine_irq, if_pos rfl]
    · rw [State.mem_driveLine_irq, if_neg other, State.setScript_irq]
  | configureHooks r w =>
    refine ⟨_, next, rfl, rfl, rfl, rfl, ⟨rfl, rfl, rfl, rfl⟩, rfl, rfl, rfl, ⟨rfl, rfl, rfl⟩, rfl, fun _ => rfl, nofun,
      fun other => absurd rfl (other r w), ?_, rfl⟩
    rintro _ _ ⟨⟩
    exact ⟨rfl, rfl⟩
  | stop | resume =>
    exact ⟨_, next, rfl, rfl, rfl, rfl, ⟨rfl, rfl, rfl, rfl⟩, rfl, rfl, rfl, ⟨rfl, rfl, rfl⟩, rfl, fun _ => rfl, nofun,
      fun _ => ⟨rfl, rfl⟩, nofun, rfl⟩
  | keepalive b =>
    cases b with
    | false => exact absurd rfl returns
    | true =>
      exact ⟨_, next, rfl, rfl, rfl, rfl, ⟨rfl, rfl, rfl, rfl⟩, rfl, rfl, rfl, ⟨rfl, rfl, rfl⟩, rfl, fun _ => rfl,
        nofun, fun _ => ⟨rfl, rfl⟩, nofun, rfl⟩

/-! ### Stopped runs (40_dispatch.md R129) -/

theorem State.letCore_of_stopped {s : State} (stopped : s.stopped = true) : s.letCore = .fault .runStopped :=
  if_pos stopped

/-- Settles O60: a stopped run lets no core step; of the steps that give a next state only two write the flag. -/
theorem stoppedRunMakesNoCoreStepUntilResume : Obligations.StoppedRunMakesNoCoreStepUntilResume := by
  refine ⟨fun s stopped nothingFirst => ?_, fun s rest script => ?_, fun s t next changed => ?_⟩
  · rcases nothingFirst with alone | ⟨rest, script⟩
    · exact step_of_stopped alone stopped
    · exact (step_host script).trans (State.letCore_of_stopped (s := s.setScript rest) stopped)
  · exact ⟨_, _, step_host script, rfl, step_host (rest := rest) (a := .resume) rfl, rfl⟩
  · rcases step_cases next with ⟨-, -, core⟩ | ⟨rest, -, -, core⟩ | ⟨v, b, rest, -, rfl⟩ | ⟨r, w, rest, -, rfl⟩ |
      ⟨image, rest, -, rfl⟩ | ⟨rest, script, rfl⟩ | ⟨rest, script, rfl⟩ | ⟨rest, -, rfl⟩
    · exact absurd (coreStep_sameInputs core).stopped changed
    · exact absurd (coreStep_sameInputs core).stopped changed
    · exact absurd rfl changed
    · exact absurd rfl changed
    · exact absurd rfl changed
    · exact ⟨rest, .inl ⟨script, rfl⟩⟩
    · exact ⟨rest, .inr ⟨script, rfl⟩⟩
    · exact absurd rfl changed

end Sys2Proof.Machine
end
